-- ==== Sys2Proof/Word.lean ====
section
/-! DEFINITION. The word types of the S3C2410X ARM920T: bytes, halfwords, words (20_memory R50, R56) and register numbers. -/

namespace Sys2Proof

/-- 8 bits, the unit of memory (20_memory R50). -/
abbrev Byte := BitVec 8

/-- 16 bits, the length of a THUMB instruction (30_encoding R80). -/
abbrev Half := BitVec 16

/-- 32 bits: a register, an address, an ARM instruction (00_scope R6). -/
abbrev Word := BitVec 32

/-- The 4-bit number by which an instruction names R0 to R15 (00_scope R8). -/
abbrev RegNum := BitVec 4

end Sys2Proof
end

