-- ==== Sys2Proof/Config.lean ====
section
/-! DEFINITION. What the platform fixes (00_scope R6: the parameters P_BIGEND, P_ISYNC, P_ABORT_MODEL, P_MEMMAP, P_ABORT) as plain data that State holds, and the free values the spec draws (00_scope R8 `draw`). -/

namespace Sys2Proof.Machine

/-- The kinds of access P_ABORT distinguishes (00_scope R6). -/
inductive AccessKind where
  | fetch | read | write
deriving DecidableEq, Repr

/-- What P_MEMMAP places at an address (20_memory R66, R67). -/
inductive RegionKind where
  | memory | device
deriving DecidableEq, Repr

/-- The byte addresses `first` to `last`, both included, hold memory or a device. -/
structure Region where
  first : Nat
  last : Nat
  kind : RegionKind
deriving DecidableEq, Repr

/-- One line of P_ABORT (00_scope R6): an access of `size` bytes of this kind and privilege whose address
lies in `first` to `last`, both included, signals abort. -/
structure AbortRule where
  first : Nat
  last : Nat
  size : Nat
  kind : AccessKind
  privileged : Bool
deriving DecidableEq, Repr

/-- P_ABORT_MODEL (43_data_transfer R172, D18): whether an aborted single transfer leaves its base
register updated. -/
inductive AbortModel where
  | baseUpdated | baseRestored
deriving DecidableEq, Repr

/-- The parameters that are fixed for a run (00_scope R6). No step changes them. `isync` is read by no
rule (60_exceptions R211). -/
structure Platform where
  bigEndian : Bool
  isync : Bool
  abortModel : AbortModel
  regions : List Region
  aborts : List AbortRule
deriving DecidableEq, Repr

end Sys2Proof.Machine

namespace Sys2Proof

/-- The free value of PSR bits 27:8 as MRS reads them (10_state R37, 42_psr_transfer R150); log 10. -/
opaque Config.freeReserved : Nat → BitVec 20

/-- The free values of the registers that a Reset exception leaves unspecified (70_reset_and_hazards
R261, 10_state R41); log 11. -/
opaque Config.freeWord : Nat → BitVec 32

/-- The free choice whether a store after the aborting one of an aborted STM reaches memory
(43_data_transfer R174, D26); log 12. -/
opaque Config.freeAccept : Nat → Bool

/-- The free value of a byte that a device shows (20_memory R66, D7), by the count of free values drawn and
the address; log 4. -/
opaque Config.freeDevice : Nat → Nat → BitVec 8

end Sys2Proof
end

