-- ==== Sys2Proof/Machine/State.lean ====
section
/-! DEFINITION. The state of the machine: the 37 registers in their banks (10_state R20, R22), the status registers (R30, R31), memory (20_memory R50), the inputs (10_state R45, 00_scope R6), and the reasons a step can stop. -/

namespace Sys2Proof.Machine

/-- The seven operating modes (10_state R15). -/
inductive Mode where
  | user | fiq | irq | supervisor | abort | undefined | system
deriving DecidableEq, Repr

/-- The five exception modes, each with its own R13, R14 and SPSR (10_state R22, R30). -/
inductive ExcMode where
  | fiq | irq | svc | abt | und
deriving DecidableEq, Repr

/-- The seven exceptions (60_exceptions R200). -/
inductive ExceptionKind where
  | reset | undefined | softwareInterrupt | prefetchAbort | dataAbort | irq | fiq
deriving DecidableEq, Repr

/-- A program status register (10_state R31). Bits 27:8 carry no state (R37, D14): log 10. -/
structure Psr where
  n : Bool
  z : Bool
  c : Bool
  v : Bool
  i : Bool
  f : Bool
  t : Bool
  m : BitVec 5
deriving DecidableEq, Repr

/-- The six copies of R13, or of R14: User and System together, and one for each exception mode
(10_state R20). -/
structure Banked where
  usr : Word
  fiq : Word
  irq : Word
  svc : Word
  abt : Word
  und : Word
deriving DecidableEq, Repr

/-- The general registers but the PC (10_state R20): R0 to R7, R8 to R12 and R8_fiq to R12_fiq, and the
copies of R13 and R14. -/
structure Regs where
  low : Vector Word 8
  high : Vector Word 5
  highFiq : Vector Word 5
  sp : Banked
  lr : Banked
deriving DecidableEq, Repr

/-- The name of one physical register but the PC (10_state R20); `none` is the bank of User and System. -/
inductive PhysReg where
  | low (i : Fin 8)
  | high (i : Fin 5)
  | highFiq (i : Fin 5)
  | sp (bank : Option ExcMode)
  | lr (bank : Option ExcMode)
deriving DecidableEq, Repr

/-- The five SPSRs (10_state R30). -/
structure SavedPsrs where
  fiq : Psr
  irq : Psr
  svc : Psr
  abt : Psr
  und : Psr
deriving DecidableEq, Repr

/-- What P_ENV shows at one instruction boundary (60_exceptions R235, D9): whether a Reset occurs, and
the levels of nFIQ and nIRQ after the synchroniser (`true` is HIGH). -/
structure Boundary where
  reset : Bool
  nFIQ : Bool
  nIRQ : Bool
deriving DecidableEq, Repr

/-- A boundary at which nothing is requested. -/
def Boundary.quiet : Boundary := ⟨false, true, true⟩

/-- The byte memory as the bytes that hold a value, by rising address (20_memory R50). -/
abbrev Memory := List Host.Cell

/-- Why the machine stops with a fault. -/
inductive Fault where
  /-- Raised by a read or a fetch of a byte that nothing has written (10_state R41, R42: "no value"
  whose read faults). Safe: the hardware reads some value and goes on; log 2. -/
  | unwritten (addr : Nat)
deriving DecidableEq, Repr

/-- Why a step is given no meaning (00_scope R8 `refuse`). Every one of them is safe: the model stops
where the hardware does something that the spec does not describe. -/
inductive Refusal where
  /-- Raised by `exec` for an instruction that has no meaning yet. -/
  | notModelled (mnemonic : String)
  /-- Raised by the step for an ARM word with condition field 1111 (30_encoding R93). -/
  | conditionNV
  /-- Raised by the step for a pattern outside the admitted subset (30_encoding R96). -/
  | unmodelledInstruction
  /-- Raised by a word or halfword access at a misaligned address (20_memory R57). -/
  | misaligned
  /-- Raised by an access where P_MEMMAP places nothing (20_memory R60). -/
  | unmapped
  /-- Raised by a fetch from an address the program has stored to (20_memory R73). -/
  | fetchAfterStore
  /-- Raised by a fetch after sequential execution past the top of the space (10_state R27). -/
  | fetchAfterWrap
  /-- Raised by BX R15 in ARM state (40_branch_and_exchange R112). -/
  | bxR15
  /-- Raised by a write of the PC that is not word aligned in ARM state (40_branch_and_exchange R117). -/
  | armTargetNotAligned
  /-- Raised by a write of the PC that is not halfword aligned in THUMB state (R116, 41_data_processing R132). -/
  | thumbTargetNotAligned
  /-- Raised by an instruction that needs the SPSR in User or System mode (10_state R30). -/
  | noSpsr
  /-- Raised by THUMB CMP with R15 as first operand (41_data_processing R141). -/
  | thumbCmpR15
  /-- Raised by MRS to R15 (42_psr_transfer R150). -/
  | mrsToR15
  /-- Raised by MSR from R15 (42_psr_transfer R151). -/
  | msrFromR15
  /-- Raised by MSR that would change CPSR.T (42_psr_transfer R154). -/
  | softwareChangeOfT
  /-- Raised by a single transfer that would write its base R15 back (43_data_transfer R160). -/
  | writebackToR15
  /-- Raised by a single transfer with write-back whose base is its transfer register (R160). -/
  | writebackBaseIsTransfer
  /-- Raised by STR of R15 (43_data_transfer R162). -/
  | strOfR15
  /-- Raised by LDRB to R15 (43_data_transfer R163). -/
  | ldrbToR15
  /-- Raised by STRB of R15 (43_data_transfer R164). -/
  | strbOfR15
  /-- Raised by LDM and STM with an empty list (43_data_transfer R166). -/
  | emptyRegisterList
  /-- Raised by LDM and STM with R15 as base (43_data_transfer R166). -/
  | r15AsBase
  /-- Raised by LDM with write-back and its base in the list (43_data_transfer R167). -/
  | ldmWritebackBaseInList
  /-- Raised by STM with R15 in the list (43_data_transfer R168). -/
  | stmOfR15
  /-- Raised by STM with write-back and its base in the list, not first (43_data_transfer R168). -/
  | stmWritebackBaseNotFirst
  /-- Raised by SWP and SWPB with R15 (43_data_transfer R170). -/
  | swpWithR15
  /-- Raised by SWP and SWPB whose base is an operand (43_data_transfer R170). -/
  | swpBaseIsOperand
deriving DecidableEq, Repr

/-- The state of the machine. -/
structure State where
  /-- The general registers but R15 (10_state R20). -/
  regs : Regs
  /-- R15, the address of the next instruction (10_state R26). -/
  pc : Word
  /-- The current program status register (10_state R30). -/
  cpsr : Psr
  /-- The saved program status registers (10_state R30). -/
  spsr : SavedPsrs
  /-- The byte memory (20_memory R50). -/
  mem : Memory
  /-- The parameters of the platform, constant over a run (00_scope R6). -/
  platform : Platform
  /-- What P_ENV shows at this boundary and at those that follow (60_exceptions R235); log 8. -/
  inputs : List Boundary
  /-- The addresses the program has stored to, rising (20_memory R73); log 15. -/
  stored : List Nat
  /-- Whether the pc was reached by sequential execution past the top of the space (10_state R27); log 16. -/
  pcWrapped : Bool
  /-- How many times free values have been drawn (00_scope R8); the model's own field, log 10. -/
  draws : Nat
deriving DecidableEq, Repr

/-- The outcome of an instruction or a step. -/
abbrev Result := Host.Outcome State Fault Refusal

/-- What an access to memory comes to: a value, the ABORT signal (20_memory R63), or a stop. -/
inductive Access (α : Type) where
  | ok (a : α)
  | abort
  | fault (f : Fault)
  | refuse (r : Refusal)
deriving DecidableEq, Repr

/-- What the accesses of a block transfer come to (43_data_transfer R174): all done, one aborted (with
what was done nevertheless), or a stop. -/
inductive Block (α : Type) where
  | done (a : α)
  | aborted (a : α)
  | fault (f : Fault)
  | refuse (r : Refusal)
deriving DecidableEq, Repr

/-- A PSR with every bit 0. -/
def Psr.zero : Psr := ⟨false, false, false, false, false, false, false, 0⟩

/-- Six copies of 0. -/
def Banked.zero : Banked := ⟨0, 0, 0, 0, 0, 0⟩

/-- The registers after reset: log 1. -/
def Regs.zero : Regs :=
  ⟨Vector.replicate 8 0, Vector.replicate 5 0, Vector.replicate 5 0, Banked.zero, Banked.zero⟩

/-- The CPSR after reset (10_state R41): Supervisor mode, I and F set, ARM state; the flags by log 1. -/
def Psr.afterReset : Psr := ⟨false, false, false, false, true, true, false, 0b10011#5⟩

/-- The platform of the state after reset: logs 3, 5, 6, 9; P_ABORT_MODEL by 00_scope R6. -/
def Platform.atReset : Platform :=
  { bigEndian := false, isync := false, abortModel := .baseUpdated,
    regions := [⟨0, 0xFFFFFFFF, .memory⟩], aborts := [] }

/-- The machine right after reset (10_state R41, 70_reset_and_hazards R261); the values that those rules
leave open are those of log 1. -/
def State.reset : State :=
  { regs := Regs.zero
    pc := 0
    cpsr := Psr.afterReset
    spsr := ⟨Psr.zero, Psr.zero, Psr.zero, Psr.zero, Psr.zero⟩
    mem := []
    platform := Platform.atReset
    inputs := []
    stored := []
    pcWrapped := false
    draws := 0 }

end Sys2Proof.Machine
end

