-- ==== Sys2Proof/Syntax.lean ====
section
/-! DEFINITION. The instructions of the admitted subset (30_encoding R86), one constructor for each row of opcode_table.json. -/

namespace Sys2Proof

/-- The conditions of 30_encoding R84. Code 1111 is not among them: R93 refuses it. -/
inductive Cond where
  | eq | ne | cs | cc | mi | pl | vs | vc | hi | ls | ge | lt | gt | le | al
deriving DecidableEq, Repr

/-- The R bit of MRS and MSR (30_encoding R82): the CPSR, or the SPSR of the current mode. -/
inductive PsrSel where
  | cpsr | spsr
deriving DecidableEq, Repr

/-- The (P, U) addressing modes of LDM and STM (43_data_transfer R166). -/
inductive BlockMode where
  | ia | ib | da | db
deriving DecidableEq, Repr

/-- The instructions. ARM rows first, in the order of opcode_table.json, then the THUMB rows, whose
constructors begin with `t`. `up` is the U bit, `wb` the W bit, `S` the S bit. -/
inductive Instr where
  | bx (cond : Cond) (rn : RegNum)
  | mrs (cond : Cond) (sel : PsrSel) (rd : RegNum)
  | msrReg (cond : Cond) (sel : PsrSel) (mask : BitVec 4) (rm : RegNum)
  | msrImm (cond : Cond) (sel : PsrSel) (mask rotate : BitVec 4) (imm8 : BitVec 8)
  | swp (cond : Cond) (rn rd rm : RegNum)
  | swpb (cond : Cond) (rn rd rm : RegNum)
  | movReg (cond : Cond) (S : Bool) (rd rm : RegNum)
  | movImm (cond : Cond) (S : Bool) (rd : RegNum) (rotate : BitVec 4) (imm8 : BitVec 8)
  | subReg (cond : Cond) (S : Bool) (rn rd rm : RegNum)
  | subImm (cond : Cond) (S : Bool) (rn rd : RegNum) (rotate : BitVec 4) (imm8 : BitVec 8)
  | addReg (cond : Cond) (S : Bool) (rn rd rm : RegNum)
  | addImm (cond : Cond) (S : Bool) (rn rd : RegNum) (rotate : BitVec 4) (imm8 : BitVec 8)
  | cmpReg (cond : Cond) (rn rm : RegNum)
  | cmpImm (cond : Cond) (rn : RegNum) (rotate : BitVec 4) (imm8 : BitVec 8)
  | ldrPre (cond : Cond) (up : Bool) (rn rd : RegNum) (imm12 : BitVec 12)
  | ldrPreWb (cond : Cond) (up : Bool) (rn rd : RegNum) (imm12 : BitVec 12)
  | ldrPost (cond : Cond) (up : Bool) (rn rd : RegNum) (imm12 : BitVec 12)
  | strPre (cond : Cond) (up : Bool) (rn rd : RegNum) (imm12 : BitVec 12)
  | strPreWb (cond : Cond) (up : Bool) (rn rd : RegNum) (imm12 : BitVec 12)
  | strPost (cond : Cond) (up : Bool) (rn rd : RegNum) (imm12 : BitVec 12)
  | ldrbPre (cond : Cond) (up : Bool) (rn rd : RegNum) (imm12 : BitVec 12)
  | ldrbPreWb (cond : Cond) (up : Bool) (rn rd : RegNum) (imm12 : BitVec 12)
  | ldrbPost (cond : Cond) (up : Bool) (rn rd : RegNum) (imm12 : BitVec 12)
  | strbPre (cond : Cond) (up : Bool) (rn rd : RegNum) (imm12 : BitVec 12)
  | strbPreWb (cond : Cond) (up : Bool) (rn rd : RegNum) (imm12 : BitVec 12)
  | strbPost (cond : Cond) (up : Bool) (rn rd : RegNum) (imm12 : BitVec 12)
  | ldm (cond : Cond) (mode : BlockMode) (wb : Bool) (rn : RegNum) (list : BitVec 16)
  | stm (cond : Cond) (mode : BlockMode) (wb : Bool) (rn : RegNum) (list : BitVec 16)
  | b (cond : Cond) (offset24 : BitVec 24)
  | bl (cond : Cond) (offset24 : BitVec 24)
  | swi (cond : Cond) (imm24 : BitVec 24)
  | undef (cond : Cond) (freeHi : BitVec 20) (freeLo : BitVec 4)
  | tBx (rs : RegNum)
  | tAddHi (rd rs : RegNum)
  | tCmpHi (rd rs : RegNum)
  | tMovHi (rd rs : RegNum)
  | tSwi (value8 : BitVec 8)
  | tUndef (free : BitVec 8)
  | tBcond (cond : Cond) (soffset8 : BitVec 8)
  | tBlFirst (offset11 : BitVec 11)
  | tBlSecond (offset11 : BitVec 11)
deriving DecidableEq, Repr

/-- The condition field of an ARM instruction; THUMB instructions have none, and the condition of the
THUMB branch selects between two effects of its own (30_encoding R84, R85). -/
def Instr.cond? : Instr → Option Cond
  | .bx c _ => some c
  | .mrs c _ _ => some c
  | .msrReg c _ _ _ => some c
  | .msrImm c _ _ _ _ => some c
  | .swp c _ _ _ => some c
  | .swpb c _ _ _ => some c
  | .movReg c _ _ _ => some c
  | .movImm c _ _ _ _ => some c
  | .subReg c _ _ _ _ => some c
  | .subImm c _ _ _ _ _ => some c
  | .addReg c _ _ _ _ => some c
  | .addImm c _ _ _ _ _ => some c
  | .cmpReg c _ _ => some c
  | .cmpImm c _ _ _ => some c
  | .ldrPre c _ _ _ _ => some c
  | .ldrPreWb c _ _ _ _ => some c
  | .ldrPost c _ _ _ _ => some c
  | .strPre c _ _ _ _ => some c
  | .strPreWb c _ _ _ _ => some c
  | .strPost c _ _ _ _ => some c
  | .ldrbPre c _ _ _ _ => some c
  | .ldrbPreWb c _ _ _ _ => some c
  | .ldrbPost c _ _ _ _ => some c
  | .strbPre c _ _ _ _ => some c
  | .strbPreWb c _ _ _ _ => some c
  | .strbPost c _ _ _ _ => some c
  | .ldm c _ _ _ _ => some c
  | .stm c _ _ _ _ => some c
  | .b c _ => some c
  | .bl c _ => some c
  | .swi c _ => some c
  | .undef c _ _ => some c
  | .tBx _ => none
  | .tAddHi _ _ => none
  | .tCmpHi _ _ => none
  | .tMovHi _ _ => none
  | .tSwi _ => none
  | .tUndef _ => none
  | .tBcond _ _ => none
  | .tBlFirst _ => none
  | .tBlSecond _ => none

/-- Whether the instruction belongs to the THUMB set (30_encoding R80, R81). -/
def Instr.isThumb (i : Instr) : Bool := i.cond?.isNone

end Sys2Proof
end

