-- ==== Sys2Proof/Machine/Flags.lean ====
section
/-! DEFINITION. The condition code flags: how they are computed (41_data_processing R126) and how they decide whether an instruction executes (30_encoding R84). -/

namespace Sys2Proof.Machine

/-- C of `a + b`: the unsigned sum does not fit 32 bits (41_data_processing R126). -/
def addCarry (a b : Word) : Bool := decide (2 ^ 32 ≤ a.toNat + b.toNat)

/-- V of `a + b` (41_data_processing R126). -/
def addOverflow (a b : Word) : Bool := a.msb == b.msb && (a + b).msb != a.msb

/-- C of `a - b`: no borrow (41_data_processing R126). -/
def subCarry (a b : Word) : Bool := decide (b.toNat ≤ a.toNat)

/-- V of `a - b` (41_data_processing R126). -/
def subOverflow (a b : Word) : Bool := a.msb != b.msb && (a - b).msb != a.msb

/-- N and Z of a result (41_data_processing R126). -/
def Psr.withNZ (p : Psr) (r : Word) : Psr := { p with n := r.msb, z := r == 0 }

/-- The flags of an addition (41_data_processing R126). -/
def Psr.withAdd (p : Psr) (a b : Word) : Psr :=
  { p.withNZ (a + b) with c := addCarry a b, v := addOverflow a b }

/-- The flags of a subtraction (41_data_processing R126). -/
def Psr.withSub (p : Psr) (a b : Word) : Psr :=
  { p.withNZ (a - b) with c := subCarry a b, v := subOverflow a b }

/-- The flags of MOV: C is the shifter carry-out, V unchanged (41_data_processing R126, R127). -/
def Psr.withMov (p : Psr) (r : Word) (carry : Bool) : Psr := { p.withNZ r with c := carry }

/-- `CondPassed` (30_encoding R84). -/
def condPassed (p : Psr) : Cond → Bool
  | .eq => p.z
  | .ne => !p.z
  | .cs => p.c
  | .cc => !p.c
  | .mi => p.n
  | .pl => !p.n
  | .vs => p.v
  | .vc => !p.v
  | .hi => p.c && !p.z
  | .ls => !p.c || p.z
  | .ge => p.n == p.v
  | .lt => p.n != p.v
  | .gt => !p.z && p.n == p.v
  | .le => p.z || p.n != p.v
  | .al => true

end Sys2Proof.Machine
end

