-- ==== Sys2Proof/WellFormed.lean ====
section
/-! DEFINITION. The checks on an instruction that its field widths do not already make: the constraints that 30_encoding R91 puts on the THUMB high-register forms and on the THUMB conditional branch. -/

namespace Sys2Proof

/-- At least one of the two registers is a high register, R8 to R15 (30_encoding R91 rows 2 to 4:
bits 7:6 are not 00). -/
def someHigh (rd rs : RegNum) : Bool := rd.getLsbD 3 || rs.getLsbD 3

/-- The THUMB branch has the conditions 0000 to 1101 only (40_branch_and_exchange R114). -/
def thumbCond (c : Cond) : Bool := c != .al

/-- An instruction that some word encodes. -/
def Instr.wellFormed : Instr → Bool
  | .tAddHi rd rs => someHigh rd rs
  | .tCmpHi rd rs => someHigh rd rs
  | .tMovHi rd rs => someHigh rd rs
  | .tBcond c _ => thumbCond c
  | .bx _ _ => true
  | .mrs _ _ _ => true
  | .msrReg _ _ _ _ => true
  | .msrImm _ _ _ _ _ => true
  | .swp _ _ _ _ => true
  | .swpb _ _ _ _ => true
  | .movReg _ _ _ _ => true
  | .movImm _ _ _ _ _ => true
  | .subReg _ _ _ _ _ => true
  | .subImm _ _ _ _ _ _ => true
  | .addReg _ _ _ _ _ => true
  | .addImm _ _ _ _ _ _ => true
  | .cmpReg _ _ _ => true
  | .cmpImm _ _ _ _ => true
  | .ldrPre _ _ _ _ _ => true
  | .ldrPreWb _ _ _ _ _ => true
  | .ldrPost _ _ _ _ _ => true
  | .strPre _ _ _ _ _ => true
  | .strPreWb _ _ _ _ _ => true
  | .strPost _ _ _ _ _ => true
  | .ldrbPre _ _ _ _ _ => true
  | .ldrbPreWb _ _ _ _ _ => true
  | .ldrbPost _ _ _ _ _ => true
  | .strbPre _ _ _ _ _ => true
  | .strbPreWb _ _ _ _ _ => true
  | .strbPost _ _ _ _ _ => true
  | .ldm _ _ _ _ _ => true
  | .stm _ _ _ _ _ => true
  | .b _ _ => true
  | .bl _ _ => true
  | .swi _ _ => true
  | .undef _ _ _ => true
  | .tBx _ => true
  | .tSwi _ => true
  | .tUndef _ => true
  | .tBlFirst _ => true
  | .tBlSecond _ => true

end Sys2Proof
end

