-- ==== Sys2Proof/Decode.lean ====
section
/-! DEFINITION. From bytes to instructions and back: byte order (20_memory R53 to R55), the two decode tables (30_encoding R90, R91), the formats they come from (R82, R83), and an encoder written from the same formats. -/

namespace Sys2Proof

/-! ### Byte order -/

/-- The bytes of the low `n` bytes of `v` in the order of their addresses: least significant first in
little-endian format (20_memory R54), most significant first in big-endian format (R53, R55, R61). -/
def toBytes (big : Bool) (n : Nat) (v : Word) : List Byte :=
  let little := (List.range n).map fun i => v.extractLsb' (8 * i) 8
  if big then little.reverse else little

/-- The value of 1, 2 or 4 bytes listed in the order of their addresses, zero-extended to a word
(20_memory R53, R54, R55, R60). -/
def ofBytes (big : Bool) (bs : List Byte) : Word :=
  match if big then bs else bs.reverse with
  | [b0] => b0.setWidth 32
  | [b0, b1] => (b0 ++ b1).setWidth 32
  | [b0, b1, b2, b3] => b0 ++ b1 ++ b2 ++ b3
  | _ => 0

/-! ### Field codes -/

/-- The condition codes of 30_encoding R84. -/
def Cond.code : Cond → BitVec 4
  | .eq => 0#4
  | .ne => 1#4
  | .cs => 2#4
  | .cc => 3#4
  | .mi => 4#4
  | .pl => 5#4
  | .vs => 6#4
  | .vc => 7#4
  | .hi => 8#4
  | .ls => 9#4
  | .ge => 10#4
  | .lt => 11#4
  | .gt => 12#4
  | .le => 13#4
  | .al => 14#4

/-- The conditions in the order of their codes. -/
def condList : List Cond :=
  [.eq, .ne, .cs, .cc, .mi, .pl, .vs, .vc, .hi, .ls, .ge, .lt, .gt, .le, .al]

/-- The condition a code stands for; 1111 stands for none (30_encoding R93). -/
def condOf (k : BitVec 4) : Option Cond := condList[k.toNat]?

/-- The R bit of MRS and MSR (30_encoding R82). -/
def PsrSel.bit : PsrSel → Bool
  | .cpsr => false
  | .spsr => true

def psrSelOf (r : Bool) : PsrSel := if r then .spsr else .cpsr

/-- The P bit of a block transfer (43_data_transfer R166). -/
def BlockMode.p : BlockMode → Bool
  | .ia => false
  | .ib => true
  | .da => false
  | .db => true

/-- The U bit of a block transfer (43_data_transfer R166). -/
def BlockMode.u : BlockMode → Bool
  | .ia => true
  | .ib => true
  | .da => false
  | .db => false

def blockModeOf (p u : Bool) : BlockMode :=
  match p, u with
  | false, true => .ia
  | true, true => .ib
  | false, false => .da
  | true, false => .db

/-! ### The ARM table -/

/-- A row of 30_encoding R90: the test on the word, and the instruction it then is. -/
structure ArmRow where
  mask : Word
  pattern : Word
  build : Word → Cond → Instr

def ArmRow.hits (r : ArmRow) (w : Word) : Bool := w &&& r.mask == r.pattern

/-- A register field (30_encoding R82). -/
def regAt (w : Word) (lo : Nat) : RegNum := w.extractLsb' lo 4

/-- The rows 1 to 13 of 30_encoding R90, each split where opcode_table.json splits it. -/
def armRowsA : List ArmRow :=
  [ ⟨0x0FFFFFF0#32, 0x012FFF10#32, fun w c => .bx c (regAt w 0)⟩,
    ⟨0x0FBF0FFF#32, 0x010F0000#32, fun w c => .mrs c (psrSelOf (w.getLsbD 22)) (regAt w 12)⟩,
    ⟨0x0FB0FFF0#32, 0x0120F000#32,
      fun w c => .msrReg c (psrSelOf (w.getLsbD 22)) (regAt w 16) (regAt w 0)⟩,
    ⟨0x0FB0F000#32, 0x0320F000#32,
      fun w c => .msrImm c (psrSelOf (w.getLsbD 22)) (regAt w 16) (regAt w 8) (w.extractLsb' 0 8)⟩,
    ⟨0x0FF00FF0#32, 0x01000090#32, fun w c => .swp c (regAt w 16) (regAt w 12) (regAt w 0)⟩,
    ⟨0x0FF00FF0#32, 0x01400090#32, fun w c => .swpb c (regAt w 16) (regAt w 12) (regAt w 0)⟩,
    ⟨0x0FEF0FF0#32, 0x01A00000#32, fun w c => .movReg c (w.getLsbD 20) (regAt w 12) (regAt w 0)⟩,
    ⟨0x0FEF0000#32, 0x03A00000#32,
      fun w c => .movImm c (w.getLsbD 20) (regAt w 12) (regAt w 8) (w.extractLsb' 0 8)⟩,
    ⟨0x0FE00FF0#32, 0x00400000#32,
      fun w c => .subReg c (w.getLsbD 20) (regAt w 16) (regAt w 12) (regAt w 0)⟩,
    ⟨0x0FE00000#32, 0x02400000#32,
      fun w c => .subImm c (w.getLsbD 20) (regAt w 16) (regAt w 12) (regAt w 8) (w.extractLsb' 0 8)⟩,
    ⟨0x0FE00FF0#32, 0x00800000#32,
      fun w c => .addReg c (w.getLsbD 20) (regAt w 16) (regAt w 12) (regAt w 0)⟩,
    ⟨0x0FE00000#32, 0x02800000#32,
      fun w c => .addImm c (w.getLsbD 20) (regAt w 16) (regAt w 12) (regAt w 8) (w.extractLsb' 0 8)⟩,
    ⟨0x0FF0FFF0#32, 0x01500000#32, fun w c => .cmpReg c (regAt w 16) (regAt w 0)⟩,
    ⟨0x0FF0F000#32, 0x03500000#32,
      fun w c => .cmpImm c (regAt w 16) (regAt w 8) (w.extractLsb' 0 8)⟩ ]

/-- A single transfer row (30_encoding R90 rows 14 to 17, R82). -/
def singleRow (pattern : Word)
    (build : Cond → Bool → RegNum → RegNum → BitVec 12 → Instr) : ArmRow :=
  ⟨0x0F700000#32, pattern,
    fun w c => build c (w.getLsbD 23) (regAt w 16) (regAt w 12) (w.extractLsb' 0 12)⟩

/-- The rows 14 to 17 of 30_encoding R90: pre-indexed, pre-indexed with write-back, post-indexed. -/
def armRowsB : List ArmRow :=
  [ singleRow 0x05100000#32 .ldrPre, singleRow 0x05300000#32 .ldrPreWb,
    singleRow 0x04100000#32 .ldrPost,
    singleRow 0x05000000#32 .strPre, singleRow 0x05200000#32 .strPreWb,
    singleRow 0x04000000#32 .strPost,
    singleRow 0x05500000#32 .ldrbPre, singleRow 0x05700000#32 .ldrbPreWb,
    singleRow 0x04500000#32 .ldrbPost,
    singleRow 0x05400000#32 .strbPre, singleRow 0x05600000#32 .strbPreWb,
    singleRow 0x04400000#32 .strbPost ]

/-- The rows 18 to 23 of 30_encoding R90. -/
def armRowsC : List ArmRow :=
  [ ⟨0x0E500000#32, 0x08100000#32, fun w c =>
      .ldm c (blockModeOf (w.getLsbD 24) (w.getLsbD 23)) (w.getLsbD 21) (regAt w 16)
        (w.extractLsb' 0 16)⟩,
    ⟨0x0E500000#32, 0x08000000#32, fun w c =>
      .stm c (blockModeOf (w.getLsbD 24) (w.getLsbD 23)) (w.getLsbD 21) (regAt w 16)
        (w.extractLsb' 0 16)⟩,
    ⟨0x0F000000#32, 0x0A000000#32, fun w c => .b c (w.extractLsb' 0 24)⟩,
    ⟨0x0F000000#32, 0x0B000000#32, fun w c => .bl c (w.extractLsb' 0 24)⟩,
    ⟨0x0F000000#32, 0x0F000000#32, fun w c => .swi c (w.extractLsb' 0 24)⟩,
    ⟨0x0E000010#32, 0x06000010#32,
      fun w c => .undef c (w.extractLsb' 5 20) (w.extractLsb' 0 4)⟩ ]

/-- The ARM decode table, 30_encoding R90 rows 1 to 23. -/
def armTable : List ArmRow := armRowsA ++ armRowsB ++ armRowsC

/-! ### The THUMB table -/

/-- A row of 30_encoding R91. -/
structure ThumbRow where
  mask : Half
  pattern : Half
  build : Half → Option Instr

def ThumbRow.hits (r : ThumbRow) (h : Half) : Bool := h &&& r.mask == r.pattern

/-- The source register number `H2 : Rs` (30_encoding R83). -/
def thumbS (h : Half) : RegNum := h.extractLsb' 3 4

/-- The destination register number `H1 : Rd` (30_encoding R83). -/
def thumbD (h : Half) : RegNum := h.extractLsb' 7 1 ++ h.extractLsb' 0 3

/-- A high-register row holds only where bits 7:6 are not 00 (30_encoding R91 rows 2 to 4). -/
def highForm (build : RegNum → RegNum → Instr) (h : Half) : Option Instr :=
  if h.extractLsb' 6 2 = 0#2 then none else some (build (thumbD h) (thumbS h))

/-- The THUMB decode table, 30_encoding R91 rows 1 to 9, in its order. -/
def thumbTable : List ThumbRow :=
  [ ⟨0xFF87#16, 0x4700#16, fun h => some (.tBx (thumbS h))⟩,
    ⟨0xFF00#16, 0x4400#16, highForm .tAddHi⟩,
    ⟨0xFF00#16, 0x4500#16, highForm .tCmpHi⟩,
    ⟨0xFF00#16, 0x4600#16, highForm .tMovHi⟩,
    ⟨0xFF00#16, 0xDF00#16, fun h => some (.tSwi (h.extractLsb' 0 8))⟩,
    ⟨0xFF00#16, 0xDE00#16, fun h => some (.tUndef (h.extractLsb' 0 8))⟩,
    ⟨0xF000#16, 0xD000#16,
      fun h => (condOf (h.extractLsb' 8 4)).map fun c => .tBcond c (h.extractLsb' 0 8)⟩,
    ⟨0xF800#16, 0xF000#16, fun h => some (.tBlFirst (h.extractLsb' 0 11))⟩,
    ⟨0xF800#16, 0xF800#16, fun h => some (.tBlSecond (h.extractLsb' 0 11))⟩ ]

/-! ### Decoding -/

/-- Why a word or halfword is given no meaning. -/
inductive Reject where
  /-- An ARM word with condition field 1111 (30_encoding R93). -/
  | conditionNV
  /-- A pattern that matches no row (30_encoding R96). -/
  | unmodelled
  /-- Not as many bytes as an instruction of the state has (30_encoding R80). -/
  | wrongLength
deriving DecidableEq, Repr

/-- One instruction as the core fetches it (30_encoding R80, R81). -/
inductive Code where
  | arm (w : Word)
  | thumb (h : Half)
deriving DecidableEq, Repr

/-- 30_encoding R90: row 0 first, then the first row that matches, then row 24. -/
def decodeArm (w : Word) : Except Reject Instr :=
  match condOf (w.extractLsb' 28 4) with
  | none => .error .conditionNV
  | some c =>
    match armTable.find? (·.hits w) with
    | some r => .ok (r.build w c)
    | none => .error .unmodelled

/-- 30_encoding R91: the first row that matches, then row 10. -/
def decodeThumb (h : Half) : Except Reject Instr :=
  match (thumbTable.find? (·.hits h)).bind (·.build h) with
  | some i => .ok i
  | none => .error .unmodelled

def decode : Code → Except Reject Instr
  | .arm w => decodeArm w
  | .thumb h => decodeThumb h

/-- The instruction that the bytes at an address are, in the state that `thumb` names and the byte
order that `big` names (30_encoding R81, 20_memory R58). -/
def decodeBytes (big thumb : Bool) (bs : List Byte) : Except Reject Instr :=
  if bs.length = (if thumb then 2 else 4) then
    if thumb then decodeThumb ((ofBytes big bs).setWidth 16) else decodeArm (ofBytes big bs)
  else .error .wrongLength

/-! ### Encoding -/

/-- One bit of a format. -/
def bit (x : Bool) : BitVec 1 := BitVec.ofBool x

/-- The data-processing format (30_encoding R82) with a register second operand. -/
def encodeDpReg (c : Cond) (opcode : BitVec 4) (S : Bool) (rn rd rm : RegNum) : Word :=
  c.code ++ 0b000#3 ++ opcode ++ bit S ++ rn ++ rd ++ 0x00#8 ++ rm

/-- The data-processing format (30_encoding R82) with an immediate second operand. -/
def encodeDpImm (c : Cond) (opcode : BitVec 4) (S : Bool) (rn rd : RegNum) (rotate : BitVec 4)
    (imm8 : BitVec 8) : Word :=
  c.code ++ 0b001#3 ++ opcode ++ bit S ++ rn ++ rd ++ rotate ++ imm8

/-- The single data transfer format (30_encoding R82): P, U, B, W, L. -/
def encodeSingle (c : Cond) (p u b w l : Bool) (rn rd : RegNum) (imm12 : BitVec 12) : Word :=
  c.code ++ 0b010#3 ++ bit p ++ bit u ++ bit b ++ bit w ++ bit l ++ rn ++ rd ++ imm12

/-- The block data transfer format (30_encoding R82) with S clear. -/
def encodeBlock (c : Cond) (mode : BlockMode) (w l : Bool) (rn : RegNum) (list : BitVec 16) : Word :=
  c.code ++ 0b100#3 ++ bit mode.p ++ bit mode.u ++ bit false ++ bit w ++ bit l ++ rn ++ list

/-- The swap format (30_encoding R82). -/
def encodeSwap (c : Cond) (b : Bool) (rn rd rm : RegNum) : Word :=
  c.code ++ 0b00010#5 ++ bit b ++ 0b00#2 ++ rn ++ rd ++ 0x09#8 ++ rm

/-- The THUMB high-register format (30_encoding R83). -/
def encodeHigh (op : BitVec 2) (rd rs : RegNum) : Half :=
  0b010001#6 ++ op ++ rd.extractLsb' 3 1 ++ rs ++ rd.extractLsb' 0 3

/-- The word or halfword of a well-formed instruction, from the formats of 30_encoding R82 and R83. -/
def encode : Instr → Code
  | .bx c rn => .arm (c.code ++ 0x12FFF1#24 ++ rn)
  | .mrs c sel rd => .arm (c.code ++ 0b00010#5 ++ bit sel.bit ++ 0b00#2 ++ 0xF#4 ++ rd ++ 0x000#12)
  | .msrReg c sel mask rm =>
      .arm (c.code ++ 0b00010#5 ++ bit sel.bit ++ 0b10#2 ++ mask ++ 0xF#4 ++ 0x00#8 ++ rm)
  | .msrImm c sel mask rotate imm8 =>
      .arm (c.code ++ 0b00110#5 ++ bit sel.bit ++ 0b10#2 ++ mask ++ 0xF#4 ++ rotate ++ imm8)
  | .swp c rn rd rm => .arm (encodeSwap c false rn rd rm)
  | .swpb c rn rd rm => .arm (encodeSwap c true rn rd rm)
  | .movReg c S rd rm => .arm (encodeDpReg c 0b1101#4 S 0#4 rd rm)
  | .movImm c S rd rotate imm8 => .arm (encodeDpImm c 0b1101#4 S 0#4 rd rotate imm8)
  | .subReg c S rn rd rm => .arm (encodeDpReg c 0b0010#4 S rn rd rm)
  | .subImm c S rn rd rotate imm8 => .arm (encodeDpImm c 0b0010#4 S rn rd rotate imm8)
  | .addReg c S rn rd rm => .arm (encodeDpReg c 0b0100#4 S rn rd rm)
  | .addImm c S rn rd rotate imm8 => .arm (encodeDpImm c 0b0100#4 S rn rd rotate imm8)
  | .cmpReg c rn rm => .arm (encodeDpReg c 0b1010#4 true rn 0#4 rm)
  | .cmpImm c rn rotate imm8 => .arm (encodeDpImm c 0b1010#4 true rn 0#4 rotate imm8)
  | .ldrPre c u rn rd imm => .arm (encodeSingle c true u false false true rn rd imm)
  | .ldrPreWb c u rn rd imm => .arm (encodeSingle c true u false true true rn rd imm)
  | .ldrPost c u rn rd imm => .arm (encodeSingle c false u false false true rn rd imm)
  | .strPre c u rn rd imm => .arm (encodeSingle c true u false false false rn rd imm)
  | .strPreWb c u rn rd imm => .arm (encodeSingle c true u false true false rn rd imm)
  | .strPost c u rn rd imm => .arm (encodeSingle c false u false false false rn rd imm)
  | .ldrbPre c u rn rd imm => .arm (encodeSingle c true u true false true rn rd imm)
  | .ldrbPreWb c u rn rd imm => .arm (encodeSingle c true u true true true rn rd imm)
  | .ldrbPost c u rn rd imm => .arm (encodeSingle c false u true false true rn rd imm)
  | .strbPre c u rn rd imm => .arm (encodeSingle c true u true false false rn rd imm)
  | .strbPreWb c u rn rd imm => .arm (encodeSingle c true u true true false rn rd imm)
  | .strbPost c u rn rd imm => .arm (encodeSingle c false u true false false rn rd imm)
  | .ldm c mode wb rn list => .arm (encodeBlock c mode wb true rn list)
  | .stm c mode wb rn list => .arm (encodeBlock c mode wb false rn list)
  | .b c off => .arm (c.code ++ 0b101#3 ++ bit false ++ off)
  | .bl c off => .arm (c.code ++ 0b101#3 ++ bit true ++ off)
  | .swi c imm => .arm (c.code ++ 0b1111#4 ++ imm)
  | .undef c hi lo => .arm (c.code ++ 0b011#3 ++ hi ++ 0b1#1 ++ lo)
  | .tBx rs => .thumb (0b010001#6 ++ 0b11#2 ++ 0b0#1 ++ rs ++ 0b000#3)
  | .tAddHi rd rs => .thumb (encodeHigh 0b00#2 rd rs)
  | .tCmpHi rd rs => .thumb (encodeHigh 0b01#2 rd rs)
  | .tMovHi rd rs => .thumb (encodeHigh 0b10#2 rd rs)
  | .tSwi v => .thumb (0xDF#8 ++ v)
  | .tUndef v => .thumb (0xDE#8 ++ v)
  | .tBcond c off => .thumb (0b1101#4 ++ c.code ++ off)
  | .tBlFirst off => .thumb (0b1111#4 ++ bit false ++ off)
  | .tBlSecond off => .thumb (0b1111#4 ++ bit true ++ off)

/-- The bytes of a word or halfword in the order of their addresses (20_memory R58). -/
def Code.bytes (big : Bool) : Code → List Byte
  | .arm w => toBytes big 4 w
  | .thumb h => toBytes big 2 (h.setWidth 32)

/-- The bytes an instruction occupies in memory. -/
def Instr.bytes (big : Bool) (i : Instr) : List Byte := (encode i).bytes big

/-- The instruction that the decoder reads from a row of opcode_table.json: 32 bits are an ARM word,
16 bits a THUMB halfword, laid out in memory in little-endian order and decoded from its bytes. -/
def decodeTableWord (nbits w : Nat) : Option Instr :=
  if nbits = 32 then (decodeBytes false false (toBytes false 4 (BitVec.ofNat 32 w))).toOption
  else if nbits = 16 then (decodeBytes false true (toBytes false 2 (BitVec.ofNat 32 w))).toOption
  else none

end Sys2Proof
end

