-- ==== Sys2Proof/Machine/Ops.lean ====
section
/-! DEFINITION. The named operations on modes, registers, status registers and memory, and the taking of an exception and the return from one. -/

namespace Sys2Proof.Machine

/-! ### Modes (10_state R15, R35) -/

/-- The value of M[4:0] for a mode (10_state R35). -/
def Mode.bits : Mode → BitVec 5
  | .user => 0b10000#5
  | .fiq => 0b10001#5
  | .irq => 0b10010#5
  | .supervisor => 0b10011#5
  | .abort => 0b10111#5
  | .undefined => 0b11011#5
  | .system => 0b11111#5

/-- The mode that M[4:0] names, if it is one of the seven values of 10_state R35. -/
def modeOf (m : BitVec 5) : Option Mode :=
  [Mode.user, .fiq, .irq, .supervisor, .abort, .undefined, .system].find? fun x => x.bits == m

/-- The exception mode a mode is, if it is one (10_state R22). -/
def Mode.exc : Mode → Option ExcMode
  | .user => none
  | .fiq => some .fiq
  | .irq => some .irq
  | .supervisor => some .svc
  | .abort => some .abt
  | .undefined => some .und
  | .system => none

def ExcMode.mode : ExcMode → Mode
  | .fiq => .fiq
  | .irq => .irq
  | .svc => .supervisor
  | .abt => .abort
  | .und => .undefined

/-- The bank an M field selects (10_state R22); an illegal value selects the User bank, which no step
uses (log 17). -/
def bankOf (m : BitVec 5) : Option ExcMode := (modeOf m).bind Mode.exc

/-- The register bank of the current mode (10_state R22). -/
def State.bank (s : State) : Option ExcMode := bankOf s.cpsr.m

/-- The condition of 10_state R36: M[4:0] holds none of the seven values. -/
def State.stuck (s : State) : Bool := (modeOf s.cpsr.m).isNone

/-- A privileged mode is any mode but User (10_state R16). -/
def State.privileged (s : State) : Bool := s.cpsr.m != Mode.user.bits

/-! ### Registers (10_state R20, R22) -/

def Banked.get (b : Banked) : Option ExcMode → Word
  | none => b.usr
  | some .fiq => b.fiq
  | some .irq => b.irq
  | some .svc => b.svc
  | some .abt => b.abt
  | some .und => b.und

def Banked.set (b : Banked) (k : Option ExcMode) (v : Word) : Banked :=
  match k with
  | none => { b with usr := v }
  | some .fiq => { b with fiq := v }
  | some .irq => { b with irq := v }
  | some .svc => { b with svc := v }
  | some .abt => { b with abt := v }
  | some .und => { b with und := v }

def Regs.get (g : Regs) : PhysReg → Word
  | .low i => g.low[i]
  | .high i => g.high[i]
  | .highFiq i => g.highFiq[i]
  | .sp k => g.sp.get k
  | .lr k => g.lr.get k

def Regs.set (g : Regs) (p : PhysReg) (v : Word) : Regs :=
  match p with
  | .low i => { g with low := g.low.set i v }
  | .high i => { g with high := g.high.set i v }
  | .highFiq i => { g with highFiq := g.highFiq.set i v }
  | .sp k => { g with sp := g.sp.set k v }
  | .lr k => { g with lr := g.lr.set k v }

/-- The physical register that the name R0 to R14 reaches in a bank (the table of 10_state R22). R15 is
not banked and is none of these: no caller asks for it. -/
def physOf (k : Option ExcMode) (r : RegNum) : PhysReg :=
  if h : r.toNat < 8 then .low ⟨r.toNat, h⟩
  else if h : r.toNat < 13 then
    if k = some .fiq then .highFiq ⟨r.toNat - 8, by omega⟩ else .high ⟨r.toNat - 8, by omega⟩
  else if r.toNat = 13 then .sp k
  else .lr k

/-- `x[i]` as an operand (00_scope R8): R15 reads the instruction's address plus 8 in ARM state and
plus 4 in THUMB state (10_state R28). -/
def State.readReg (s : State) (r : RegNum) : Word :=
  if r = 15#4 then s.pc + (if s.cpsr.t then 4#32 else 8#32) else s.regs.get (physOf s.bank r)

/-- `pc <- target`: a branch, an exception's vector, a write of R15. It is no sequential advance, so the
mark of 10_state R27 is cleared. -/
def State.setPc (s : State) (target : Word) : State := { s with pc := target, pcWrapped := false }

/-- `x[i] <- v` (00_scope R8): in the bank of the current mode; for R15 it is a write of the PC. -/
def State.writeReg (s : State) (r : RegNum) (v : Word) : State :=
  if r = 15#4 then s.setPc v else { s with regs := s.regs.set (physOf s.bank r) v }

/-- The length of an instruction in the current state (30_encoding R80). -/
def State.instrLen (s : State) : Word := if s.cpsr.t then 2#32 else 4#32

/-- The sequential advance of the pc (10_state R27), modulo 2^32, with the mark of a passage of the top
of the space (D20). -/
def State.advance (s : State) : State :=
  { s with pc := s.pc + s.instrLen, pcWrapped := decide ((s.pc + s.instrLen).toNat < s.pc.toNat) }

/-! ### Program status registers (10_state R30, R31) -/

def State.setCpsr (s : State) (p : Psr) : State := { s with cpsr := p }

def SavedPsrs.get (q : SavedPsrs) : ExcMode → Psr
  | .fiq => q.fiq
  | .irq => q.irq
  | .svc => q.svc
  | .abt => q.abt
  | .und => q.und

def SavedPsrs.set (q : SavedPsrs) (e : ExcMode) (p : Psr) : SavedPsrs :=
  match e with
  | .fiq => { q with fiq := p }
  | .irq => { q with irq := p }
  | .svc => { q with svc := p }
  | .abt => { q with abt := p }
  | .und => { q with und := p }

def State.setSpsr (s : State) (e : ExcMode) (p : Psr) : State := { s with spsr := s.spsr.set e p }

/-- The fields of a PSR in a word (10_state R31); bits 27:8 are ignored (R37). -/
def Psr.ofWord (w : Word) : Psr :=
  { n := w.getLsbD 31, z := w.getLsbD 30, c := w.getLsbD 29, v := w.getLsbD 28,
    i := w.getLsbD 7, f := w.getLsbD 6, t := w.getLsbD 5, m := w.extractLsb' 0 5 }

/-- A PSR as a word (10_state R31), with the value that bits 27:8 read as. -/
def Psr.toWord (p : Psr) (reserved : BitVec 20) : Word :=
  bit p.n ++ bit p.z ++ bit p.c ++ bit p.v ++ reserved ++ bit p.i ++ bit p.f ++ bit p.t ++ p.m

/-- The state after one free value has been drawn (00_scope R8 `draw`). -/
def State.drawn (s : State) : State := { s with draws := s.draws + 1 }

/-! ### Memory (20_memory R50) -/

/-- What an address that memory does not list reads as: nothing, so that its read faults (log 2). -/
def Memory.unlisted (_ : Nat) : Option Byte := none

/-- The value of one byte, if it has one. -/
def Memory.read : Memory → Nat → Option Byte
  | [], a => Memory.unlisted a
  | (k, b) :: m, a => if k = a then some b else Memory.read m a

/-- Without the entry for an address. -/
def Memory.erase : Memory → Nat → Memory
  | [], _ => []
  | (k, b) :: m, a => if k = a then m else (k, b) :: Memory.erase m a

/-- With one entry for an address, in its place. -/
def Memory.insert : Memory → Nat → Byte → Memory
  | [], a, v => [(a, v)]
  | (k, b) :: m, a, v =>
    if a < k then (a, v) :: (k, b) :: m
    else if k = a then (a, v) :: m
    else (k, b) :: Memory.insert m a v

/-- The write of one byte. It keeps the canonical form: a value that an unlisted address reads as is not
listed. -/
def Memory.write (m : Memory) (a : Nat) (v : Byte) : Memory :=
  if Memory.unlisted a = some v then Memory.erase m a else Memory.insert m a v

/-- The canonical form: addresses of the 32-bit space, strictly rising, and no entry that equals what an
unlisted address reads as. -/
abbrev Memory.wf (m : Memory) : Prop :=
  m.Pairwise (fun x y => x.1 < y.1) ∧ ∀ c ∈ m, c.1 < 2 ^ 32 ∧ Memory.unlisted c.1 ≠ some c.2

/-- A rising list of addresses with one address more. -/
def insertAddr : List Nat → Nat → List Nat
  | [], a => [a]
  | k :: ks, a => if a < k then a :: k :: ks else if k = a then k :: ks else k :: insertAddr ks a

/-- The `n` byte addresses from `addr` on, modulo 2^32 (20_memory R60). -/
def byteAddrs (addr : Word) : Nat → List Nat
  | 0 => []
  | n + 1 => addr.toNat :: byteAddrs (addr + 1) n

/-- Memory after the bytes have been placed from `addr` on, ascending. -/
def Memory.writeBytes (m : Memory) (addr : Word) : List Byte → Memory
  | [] => m
  | b :: bs => Memory.writeBytes (m.write addr.toNat b) (addr + 1) bs

/-! ### Access (20_memory R60 to R63) -/

/-- `addr[1:0] != 0` for a word, `addr[0] != 0` for a halfword; a byte is never misaligned (20_memory
R57). -/
def misaligned (addr : Word) (n : Nat) : Bool := addr.toNat % n != 0

/-- P_ABORT (20_memory R63). -/
def Platform.abortsAccess (p : Platform) (kind : AccessKind) (addr : Word) (n : Nat)
    (privileged : Bool) : Bool :=
  p.aborts.any fun r =>
    decide (r.first ≤ addr.toNat) && decide (addr.toNat ≤ r.last) && r.size == n && r.kind == kind
      && r.privileged == privileged

/-- What P_MEMMAP places at an address (20_memory R67): the first region that holds it. -/
def Platform.kindAt (p : Platform) (a : Nat) : Option RegionKind :=
  (p.regions.find? fun r => decide (r.first ≤ a) && decide (a ≤ r.last)).map (·.kind)

/-- P_MEMMAP places a device at the address (20_memory R66). -/
def Platform.isDevice (p : Platform) (a : Nat) : Bool := p.kindAt a == some .device

/-- P_MEMMAP places memory or a device at the address (20_memory R60). -/
def Platform.placed (p : Platform) (a : Nat) : Bool := (p.kindAt a).isSome

/-- The checks of one access in the order of 20_memory R60: alignment, abort, map. The access is
privileged when the mode is not User (D8). -/
def State.checkAccess (s : State) (kind : AccessKind) (addr : Word) (n : Nat) : Access Unit :=
  if misaligned addr n then .refuse .misaligned
  else if s.platform.abortsAccess kind addr n s.privileged then .abort
  else if (byteAddrs addr n).all s.platform.placed then .ok ()
  else .refuse .unmapped

/-- The byte at an address: a device shows a free value, which may differ at each read (20_memory R66,
D7; log 4), memory what the launch and the stores have left there. -/
def State.byteAt (s : State) (a : Nat) : Option Byte :=
  if s.platform.isDevice a then some (Config.freeDevice s.draws a) else s.mem.read a

/-- The bytes at `n` addresses from `addr` on. -/
def State.readBytes (s : State) (addr : Word) : Nat → Except Fault (List Byte)
  | 0 => .ok []
  | n + 1 =>
    match s.byteAt addr.toNat with
    | none => .error (.unwritten addr.toNat)
    | some b =>
      match State.readBytes s (addr + 1) n with
      | .ok bs => .ok (b :: bs)
      | .error f => .error f

/-- The state after a read of `n` bytes at `addr`: a device among them may show another value at the
next read (20_memory R66), and a read of memory has no side effect. -/
def State.seen (s : State) (addr : Word) (n : Nat) : State :=
  if (byteAddrs addr n).any s.platform.isDevice then s.drawn else s

/-- `MemRead(addr, n)` (20_memory R60), zero-extended to a word. The instruction goes on from
`s.seen addr n`. -/
def State.memRead (s : State) (addr : Word) (n : Nat) : Access Word :=
  match s.checkAccess .read addr n with
  | .ok _ =>
    match s.readBytes addr n with
    | .ok bs => .ok (ofBytes s.platform.bigEndian bs)
    | .error f => .fault f
  | .abort => .abort
  | .fault f => .fault f
  | .refuse r => .refuse r

/-- Memory after the bytes have been stored from `addr` on, ascending. A byte stored to a device goes to
the device and to no memory (20_memory R66; log 4). -/
def Platform.storeBytes (p : Platform) (m : Memory) (addr : Word) : List Byte → Memory
  | [] => m
  | b :: bs =>
    Platform.storeBytes p (if p.isDevice addr.toNat then m else m.write addr.toNat b) (addr + 1) bs

/-- The low `n` bytes of `v` stored at `addr` (20_memory R61), and the addresses marked as stored to
(R73), those of a device too (log 15). -/
def State.store (s : State) (addr : Word) (n : Nat) (v : Word) : State :=
  { s with
    mem := s.platform.storeBytes s.mem addr (toBytes s.platform.bigEndian n v)
    stored := (byteAddrs addr n).foldl insertAddr s.stored }

/-- `MemWrite(addr, n, v)` (20_memory R61). An aborted write changes nothing. -/
def State.memWrite (s : State) (addr : Word) (n : Nat) (v : Word) : Access State :=
  match s.checkAccess .write addr n with
  | .ok _ => .ok (s.store addr n v)
  | .abort => .abort
  | .fault f => .fault f
  | .refuse r => .refuse r

/-- How many bytes the next fetch reads (30_encoding R81). -/
def State.fetchLen (s : State) : Nat := if s.cpsr.t then 2 else 4

/-- `Fetch(pc, n)` (20_memory R62): refused after a wrap (10_state R27), checked as an access, refused
where the program has stored (20_memory R73). The step goes on from `s.seen s.pc s.fetchLen`. -/
def State.fetch (s : State) : Access (List Byte) :=
  if s.pcWrapped then .refuse .fetchAfterWrap
  else
    match s.checkAccess .fetch s.pc s.fetchLen with
    | .ok _ =>
      if (byteAddrs s.pc s.fetchLen).any (s.stored.contains ·) then .refuse .fetchAfterStore
      else
        match s.readBytes s.pc s.fetchLen with
        | .ok bs => .ok bs
        | .error f => .fault f
    | .abort => .abort
    | .fault f => .fault f
    | .refuse r => .refuse r

/-- How an instruction goes on after an access: the value, or what it does when the access aborts. -/
def Access.andThen {α : Type} (x : Access α) (onAbort : Result) (go : α → Result) : Result :=
  match x with
  | .ok a => go a
  | .abort => onAbort
  | .fault f => .fault f
  | .refuse r => .refused r

/-! ### Taking an exception (60_exceptions R230 to R233) -/

/-- The exception vectors (60_exceptions R202). -/
def ExceptionKind.vector : ExceptionKind → Word
  | .reset => 0x00000000#32
  | .undefined => 0x00000004#32
  | .softwareInterrupt => 0x00000008#32
  | .prefetchAbort => 0x0000000C#32
  | .dataAbort => 0x00000010#32
  | .irq => 0x00000018#32
  | .fiq => 0x0000001C#32

/-- The mode on entry (60_exceptions R202). -/
def ExceptionKind.entryMode : ExceptionKind → ExcMode
  | .reset => .svc
  | .undefined => .und
  | .softwareInterrupt => .svc
  | .prefetchAbort => .abt
  | .dataAbort => .abt
  | .irq => .irq
  | .fiq => .fiq

/-- Only FIQ and Reset set the F bit (60_exceptions R232). -/
def ExceptionKind.setsF : ExceptionKind → Bool
  | .reset => true
  | .fiq => true
  | .undefined => false
  | .softwareInterrupt => false
  | .prefetchAbort => false
  | .dataAbort => false
  | .irq => false

/-- The CPSR after entry (60_exceptions R230): the entry mode, ARM state, I set, F set by FIQ and Reset
only, the flags unchanged. -/
def ExceptionKind.cpsrAfter (e : ExceptionKind) (old : Psr) : Psr :=
  { old with m := e.entryMode.mode.bits, t := false, i := true, f := old.f || e.setsF }

/-- `Enter(E, ret)` (60_exceptions R230). -/
def State.enter (s : State) (e : ExceptionKind) (ret : Word) : State :=
  { s with
    regs := s.regs.set (.lr (some e.entryMode)) ret
    spsr := s.spsr.set e.entryMode s.cpsr
    cpsr := e.cpsrAfter s.cpsr
    pc := e.vector
    pcWrapped := false }

/-- The value saved in R14 (60_exceptions R231), from the address of the instruction. Reset's is not
defined and is drawn in `State.resetException`. -/
def State.returnValue (s : State) : ExceptionKind → Word
  | .reset => s.pc
  | .undefined => s.pc + s.instrLen
  | .softwareInterrupt => s.pc + s.instrLen
  | .prefetchAbort => s.pc + 4#32
  | .dataAbort => s.pc + 8#32
  | .irq => s.pc + 4#32
  | .fiq => s.pc + 4#32

/-- `raise E(A)` (60_exceptions R230, R231), with `A` the pc. -/
def State.raise (s : State) (e : ExceptionKind) : State := s.enter e (s.returnValue e)

/-- Free values for the general registers (10_state R41, D6); log 11. -/
def drawRegs (k : Nat) : Regs :=
  { low := Vector.ofFn fun i => Config.freeWord (k + i)
    high := Vector.ofFn fun i => Config.freeWord (k + 8 + i)
    highFiq := Vector.ofFn fun i => Config.freeWord (k + 13 + i)
    sp := ⟨Config.freeWord (k + 18), Config.freeWord (k + 19), Config.freeWord (k + 20),
      Config.freeWord (k + 21), Config.freeWord (k + 22), Config.freeWord (k + 23)⟩
    lr := ⟨Config.freeWord (k + 24), Config.freeWord (k + 25), Config.freeWord (k + 26),
      Config.freeWord (k + 27), Config.freeWord (k + 28), Config.freeWord (k + 29)⟩ }

/-- Free values for the SPSRs (10_state R41, D6); log 11. -/
def drawSpsrs (k : Nat) : SavedPsrs :=
  ⟨Psr.ofWord (Config.freeWord (k + 30)), Psr.ofWord (Config.freeWord (k + 31)),
    Psr.ofWord (Config.freeWord (k + 32)), Psr.ofWord (Config.freeWord (k + 33)),
    Psr.ofWord (Config.freeWord (k + 34))⟩

/-- The Reset exception (70_reset_and_hazards R261): mode, I, F, T and pc as the rule says, every other
register unspecified (10_state R41), memory not touched. -/
def State.resetException (s : State) : State :=
  { s with
    regs := drawRegs s.draws
    spsr := drawSpsrs s.draws
    cpsr := ExceptionKind.reset.cpsrAfter (Psr.ofWord (Config.freeWord (s.draws + 35)))
    pc := ExceptionKind.reset.vector
    pcWrapped := false
    draws := s.draws + 36 }

/-! ### Writes of the pc and the return from an exception (41_data_processing R131, R132) -/

/-- A write of R15 in ARM state that is a plain branch (41_data_processing R131). -/
def State.branchArm (s : State) (r : Word) : Result :=
  if misaligned r 4 then .refused .armTargetNotAligned else .next (s.setPc r)

/-- The exception return (41_data_processing R132): the CPSR from the SPSR of the current mode, the pc
from the result. An SPSR with an illegal mode leaves the machine stuck (10_state R36; log 14). -/
def State.exceptionReturn (s : State) (r : Word) : Result :=
  match s.bank with
  | none => .refused .noSpsr
  | some e =>
    let p := s.spsr.get e
    if (modeOf p.m).isNone then .next (s.setCpsr p)
    else if p.t then
      if misaligned r 2 then .refused .thumbTargetNotAligned else .next ((s.setCpsr p).setPc r)
    else
      if misaligned r 4 then .refused .armTargetNotAligned else .next ((s.setCpsr p).setPc r)

end Sys2Proof.Machine
end

