-- ==== Sys2Proof/Machine/Operands.lean ====
section
/-! DEFINITION. The operand forms: the second operand of data processing (41_data_processing R125), branch offsets (30_encoding R87, R88), single and block transfer addresses (43_data_transfer R160, R166), and the condition that guards an ARM instruction (30_encoding R85). -/

namespace Sys2Proof.Machine

/-- An ARM instruction whose condition fails does nothing but advance the pc (30_encoding R85). -/
def State.whenCond (s : State) (c : Cond) (body : Result) : Result :=
  if condPassed s.cpsr c then body else .next s.advance

/-! ### Data processing (41_data_processing R125) -/

/-- `ROR(zext_8(imm8), 2 * rotate)` (30_encoding R87). -/
def rotatedImm (rotate : BitVec 4) (imm8 : BitVec 8) : Word :=
  (imm8.setWidth 32).rotateRight (2 * rotate.toNat)

/-- The shifter carry-out of an immediate operand (41_data_processing R125). -/
def immCarry (p : Psr) (rotate : BitVec 4) (imm8 : BitVec 8) : Bool :=
  if rotate = 0#4 then p.c else (rotatedImm rotate imm8).msb

/-- How MOV, SUB and ADD end (41_data_processing R127 to R129): destination R15 is a branch without S
(R131) and an exception return with S (R132); else the register is written, and with S the flags. -/
def State.writeResult (s : State) (S : Bool) (rd : RegNum) (r : Word) (flags : Psr) : Result :=
  if rd = 15#4 then
    if S then s.exceptionReturn r else s.branchArm r
  else if S then .next (((s.writeReg rd r).setCpsr flags).advance)
  else .next ((s.writeReg rd r).advance)

/-! ### Branch offsets (30_encoding R87, R88) -/

/-- The target of B and BL (30_encoding R87). -/
def branchTarget (a : Word) (offset24 : BitVec 24) : Word :=
  a + 8#32 + (offset24.signExtend 32 <<< 2)

/-- The target of the THUMB conditional branch (30_encoding R88). -/
def thumbBranchTarget (a : Word) (soffset8 : BitVec 8) : Word :=
  a + 4#32 + (soffset8.signExtend 32 <<< 1)

/-- What the first halfword of the THUMB BL puts in R14 (30_encoding R88). -/
def thumbLinkHigh (a : Word) (offset11 : BitVec 11) : Word :=
  a + 4#32 + (offset11.signExtend 32 <<< 12)

/-- The target of the second halfword of the THUMB BL (30_encoding R88). -/
def thumbLinkTarget (link : Word) (offset11 : BitVec 11) : Word :=
  link + (offset11.setWidth 32 <<< 1)

/-! ### Single transfer (43_data_transfer R160) -/

/-- The three forms of a single transfer (30_encoding R90 rows 14 to 17). -/
inductive Index where
  | pre | preWb | post
deriving DecidableEq, Repr

/-- Post-indexed forms always write back (43_data_transfer R160). -/
def Index.writesBack : Index → Bool
  | .pre => false
  | .preWb => true
  | .post => true

/-- `off_addr` (43_data_transfer R160). -/
def State.offAddr (s : State) (up : Bool) (rn : RegNum) (imm12 : BitVec 12) : Word :=
  if up then s.readReg rn + imm12.setWidth 32 else s.readReg rn - imm12.setWidth 32

/-- `addr` (43_data_transfer R160). -/
def State.transferAddr (s : State) (ix : Index) (up : Bool) (rn : RegNum) (imm12 : BitVec 12) : Word :=
  match ix with
  | .pre => s.offAddr up rn imm12
  | .preWb => s.offAddr up rn imm12
  | .post => s.readReg rn

/-- The refusals of 43_data_transfer R160. -/
def Index.refusal (ix : Index) (rn rd : RegNum) : Option Refusal :=
  if ix.writesBack && rn == 15#4 then some .writebackToR15
  else if ix.writesBack && rn == rd then some .writebackBaseIsTransfer
  else none

/-! ### Block transfer (43_data_transfer R166) -/

/-- The registers of a list in ascending order (30_encoding R87). -/
def regList (list : BitVec 16) : List RegNum :=
  ((List.range 16).filter fun i => list.getLsbD i).map (BitVec.ofNat 4)

/-- `4 * n` as a word (43_data_transfer R166). -/
def blockBytes (list : BitVec 16) : Word := BitVec.ofNat 32 (4 * (regList list).length)

/-- `start` (43_data_transfer R166). -/
def blockStart (mode : BlockMode) (base : Word) (list : BitVec 16) : Word :=
  match mode with
  | .ia => base
  | .ib => base + 4#32
  | .da => base - blockBytes list + 4#32
  | .db => base - blockBytes list

/-- `wb` (43_data_transfer R166). -/
def blockEnd (mode : BlockMode) (base : Word) (list : BitVec 16) : Word :=
  if mode.u then base + blockBytes list else base - blockBytes list

/-- `n` word addresses from `start` on (43_data_transfer R166). -/
def wordAddrs (start : Word) : Nat → List Word
  | 0 => []
  | n + 1 => start :: wordAddrs (start + 4#32) n

/-- The addresses of a block transfer, one for each register of the list. -/
def blockAddrs (mode : BlockMode) (base : Word) (list : BitVec 16) : List Word :=
  wordAddrs (blockStart mode base list) (regList list).length

/-- The refusals of 43_data_transfer R166, in its order. -/
def State.blockRefusal (s : State) (rn : RegNum) (list : BitVec 16) : Option Refusal :=
  if list = 0#16 then some .emptyRegisterList
  else if rn = 15#4 then some .r15AsBase
  else if misaligned (s.readReg rn) 4 then some .misaligned
  else none

end Sys2Proof.Machine
end

