-- ==== Sys2Proof/Machine/BlockTransfer.lean ====
section
/-! DEFINITION. Block data transfer: LDM and STM (43_data_transfer R166 to R168), with what a data abort leaves behind (R174). -/

namespace Sys2Proof.Machine

/-- `if W = 1 then x[Rn] <- wb` (43_data_transfer R167, R168, R174). -/
def State.blockWriteBack (s : State) (wb : Bool) (rn : RegNum) (v : Word) : State :=
  if wb then s.writeReg rn v else s

/-- The state after reads of words at these addresses (20_memory R66). -/
def State.seenAll (s : State) (as : List Word) : State := as.foldl (fun u a => u.seen a 4) s

/-- The reads of an LDM after the aborting one (43_data_transfer R174): they are still issued, so an
address where nothing is placed still refuses; their values and their aborts have no effect (log 13). -/
def State.issueReads (s : State) : List Word → Option Refusal
  | [] => none
  | a :: as =>
    match s.checkAccess .read a 4 with
    | .refuse r => some r
    | .ok _ => State.issueReads s as
    | .abort => State.issueReads s as
    | .fault _ => State.issueReads s as

/-- One value more in front of what the later reads gave. -/
def Block.consRead (v : Word) : Block (List Word) → Block (List Word)
  | .done vs => .done (v :: vs)
  | .aborted vs => .aborted (v :: vs)
  | .fault f => .fault f
  | .refuse r => .refuse r

/-- The reads of an LDM in ascending order (43_data_transfer R167): all values, or those before the
first abort (R174). -/
def State.loadWords (s : State) : List Word → Block (List Word)
  | [] => .done []
  | a :: as =>
    match s.memRead a 4 with
    | .ok v => (State.loadWords (s.seen a 4) as).consRead v
    | .abort =>
      match s.issueReads as with
      | none => .aborted []
      | some r => .refuse r
    | .fault f => .fault f
    | .refuse r => .refuse r

/-- The loaded values into their registers, R15 left out (43_data_transfer R167). -/
def State.writeRegs (s : State) : List (RegNum × Word) → State
  | [] => s
  | (r, v) :: rest => State.writeRegs (if r = 15#4 then s else s.writeReg r v) rest

/-- The stores of an STM after the aborting one (43_data_transfer R174): each is issued, and a free value
says whether it reaches memory (D26; log 12). One that is kept from memory marks no address as stored
to: whether it counts as a store for 20_memory R73 the spec does not say, and this is the model's choice
(DESIGN CHOICE, log 26). -/
def State.issueStores (s : State) : List (Word × Word) → Block State
  | [] => .aborted s
  | (a, v) :: rest =>
    match s.memWrite a 4 v with
    | .ok t => State.issueStores (if Config.freeAccept s.draws then t.drawn else s.drawn) rest
    | .abort => State.issueStores s.drawn rest
    | .fault f => .fault f
    | .refuse r => .refuse r

/-- The stores of an STM in ascending order (43_data_transfer R168, 20_memory R70). -/
def State.storeWords (s : State) : List (Word × Word) → Block State
  | [] => .done s
  | (a, v) :: rest =>
    match s.memWrite a 4 v with
    | .ok t => State.storeWords t rest
    | .abort => s.issueStores rest
    | .fault f => .fault f
    | .refuse r => .refuse r

/-- LDM with its condition passed (43_data_transfer R167, R174). -/
def State.loadMultiple (s : State) (mode : BlockMode) (wb : Bool) (rn : RegNum) (list : BitVec 16) :
    Result :=
  match s.blockRefusal rn list with
  | some r => .refused r
  | none =>
    if wb && list.getLsbD rn.toNat then .refused .ldmWritebackBaseInList
    else
      let base := s.readReg rn
      let read := s.seenAll (blockAddrs mode base list)
      let t := read.blockWriteBack wb rn (blockEnd mode base list)
      match s.loadWords (blockAddrs mode base list) with
      | .done vs =>
        let u := t.writeRegs ((regList list).zip vs)
        if list.getLsbD 15 then u.branchArm (vs.getLastD 0) else .next u.advance
      | .aborted vs =>
        let loaded := ((regList list).zip vs).filter fun x => x.1 != rn
        .next (((read.writeRegs loaded).blockWriteBack wb rn (blockEnd mode base list)).raise .dataAbort)
      | .fault f => .fault f
      | .refuse r => .refused r

/-- STM with its condition passed (43_data_transfer R168, R174). The values are those the registers hold
before the instruction, the base included. -/
def State.storeMultiple (s : State) (mode : BlockMode) (wb : Bool) (rn : RegNum) (list : BitVec 16) :
    Result :=
  match s.blockRefusal rn list with
  | some r => .refused r
  | none =>
    if list.getLsbD 15 then .refused .stmOfR15
    else if wb && list.getLsbD rn.toNat && (regList list).head? != some rn then
      .refused .stmWritebackBaseNotFirst
    else
      let base := s.readReg rn
      match s.storeWords ((blockAddrs mode base list).zip ((regList list).map s.readReg)) with
      | .done t => .next (t.blockWriteBack wb rn (blockEnd mode base list)).advance
      | .aborted t => .next ((t.blockWriteBack wb rn (blockEnd mode base list)).raise .dataAbort)
      | .fault f => .fault f
      | .refuse r => .refused r

/-- LDM (43_data_transfer R167). -/
def execLdm (c : Cond) (mode : BlockMode) (wb : Bool) (rn : RegNum) (list : BitVec 16) (s : State) :
    Result :=
  s.whenCond c (s.loadMultiple mode wb rn list)

/-- STM (43_data_transfer R168). -/
def execStm (c : Cond) (mode : BlockMode) (wb : Bool) (rn : RegNum) (list : BitVec 16) (s : State) :
    Result :=
  s.whenCond c (s.storeMultiple mode wb rn list)

end Sys2Proof.Machine
end

