-- ==== Sys2Proof/Machine/Branch.lean ====
section
/-! DEFINITION. Branch, branch with link, branch and exchange (40_branch_and_exchange R110 to R116). -/

namespace Sys2Proof.Machine

/-- The exchange of BX (40_branch_and_exchange R112, R113): bit 0 of the operand selects the state. -/
def State.exchange (s : State) (v : Word) : Result :=
  if v.getLsbD 0 then .next ((s.setCpsr { s.cpsr with t := true }).setPc (v &&& 0xFFFFFFFE#32))
  else if v.getLsbD 1 then .refused .armTargetNotAligned
  else .next ((s.setCpsr { s.cpsr with t := false }).setPc v)

/-- B (40_branch_and_exchange R110). -/
def execB (c : Cond) (off : BitVec 24) (s : State) : Result :=
  s.whenCond c (.next (s.setPc (branchTarget s.pc off)))

/-- BL, ARM state (40_branch_and_exchange R111). -/
def execBl (c : Cond) (off : BitVec 24) (s : State) : Result :=
  s.whenCond c (.next ((s.writeReg 14#4 (s.pc + 4#32)).setPc (branchTarget s.pc off)))

/-- BX, ARM state (40_branch_and_exchange R112). -/
def execBx (c : Cond) (rn : RegNum) (s : State) : Result :=
  s.whenCond c (if rn = 15#4 then .refused .bxR15 else s.exchange (s.readReg rn))

/-- BX, THUMB state (40_branch_and_exchange R113). -/
def execTBx (rs : RegNum) (s : State) : Result := s.exchange (s.readReg rs)

/-- B<cond>, THUMB state (40_branch_and_exchange R114). -/
def execTBcond (c : Cond) (off : BitVec 8) (s : State) : Result :=
  if condPassed s.cpsr c then .next (s.setPc (thumbBranchTarget s.pc off)) else .next s.advance

/-- BL, THUMB state, first instruction (40_branch_and_exchange R115). -/
def execTBlFirst (off : BitVec 11) (s : State) : Result :=
  .next (s.writeReg 14#4 (thumbLinkHigh s.pc off)).advance

/-- BL, THUMB state, second instruction (40_branch_and_exchange R116). -/
def execTBlSecond (off : BitVec 11) (s : State) : Result :=
  let t := thumbLinkTarget (s.readReg 14#4) off
  if t.getLsbD 0 then .refused .thumbTargetNotAligned
  else .next ((s.writeReg 14#4 ((s.pc + 2#32) ||| 1#32)).setPc t)

end Sys2Proof.Machine
end

