-- ==== Sys2Proof/Machine/DataProcessing.lean ====
section
/-! DEFINITION. Data processing: ARM MOV, SUB, ADD, CMP (41_data_processing R125 to R132) and the THUMB high-register ADD, CMP, MOV (R140 to R142). -/

namespace Sys2Proof.Machine

/-- MOV and SUB, ADD below: the operands are read before any result is written (41_data_processing R127). -/
def execMovReg (c : Cond) (S : Bool) (rd rm : RegNum) (s : State) : Result :=
  let r := s.readReg rm
  s.whenCond c (s.writeResult S rd r (s.cpsr.withMov r s.cpsr.c))

/-- MOV with an immediate operand (41_data_processing R127). -/
def execMovImm (c : Cond) (S : Bool) (rd : RegNum) (rotate : BitVec 4) (imm8 : BitVec 8)
    (s : State) : Result :=
  let r := rotatedImm rotate imm8
  s.whenCond c (s.writeResult S rd r (s.cpsr.withMov r (immCarry s.cpsr rotate imm8)))

/-- `a - b` into a register (41_data_processing R128). -/
def State.subtract (s : State) (c : Cond) (S : Bool) (rd : RegNum) (a b : Word) : Result :=
  s.whenCond c (s.writeResult S rd (a - b) (s.cpsr.withSub a b))

/-- SUB with a register operand (41_data_processing R128). -/
def execSubReg (c : Cond) (S : Bool) (rn rd rm : RegNum) (s : State) : Result :=
  s.subtract c S rd (s.readReg rn) (s.readReg rm)

/-- SUB with an immediate operand (41_data_processing R128). -/
def execSubImm (c : Cond) (S : Bool) (rn rd : RegNum) (rotate : BitVec 4) (imm8 : BitVec 8)
    (s : State) : Result :=
  s.subtract c S rd (s.readReg rn) (rotatedImm rotate imm8)

/-- `a + b` into a register (41_data_processing R129). -/
def State.addTo (s : State) (c : Cond) (S : Bool) (rd : RegNum) (a b : Word) : Result :=
  s.whenCond c (s.writeResult S rd (a + b) (s.cpsr.withAdd a b))

/-- ADD with a register operand (41_data_processing R129). -/
def execAddReg (c : Cond) (S : Bool) (rn rd rm : RegNum) (s : State) : Result :=
  s.addTo c S rd (s.readReg rn) (s.readReg rm)

/-- ADD with an immediate operand (41_data_processing R129). -/
def execAddImm (c : Cond) (S : Bool) (rn rd : RegNum) (rotate : BitVec 4) (imm8 : BitVec 8)
    (s : State) : Result :=
  s.addTo c S rd (s.readReg rn) (rotatedImm rotate imm8)

/-- The flags of `a - b` and the advance, with no register written (41_data_processing R130, R141). -/
def State.compare (s : State) (a b : Word) : Result :=
  .next (s.setCpsr (s.cpsr.withSub a b)).advance

/-- CMP with a register operand (41_data_processing R130). -/
def execCmpReg (c : Cond) (rn rm : RegNum) (s : State) : Result :=
  s.whenCond c (s.compare (s.readReg rn) (s.readReg rm))

/-- CMP with an immediate operand (41_data_processing R130). -/
def execCmpImm (c : Cond) (rn : RegNum) (rotate : BitVec 4) (imm8 : BitVec 8) (s : State) : Result :=
  s.whenCond c (s.compare (s.readReg rn) (rotatedImm rotate imm8))

/-- How the THUMB high-register ADD and MOV end: to R15 it is a branch that clears bit 0
(41_data_processing R140, R142). -/
def State.writeHigh (s : State) (rd : RegNum) (r : Word) : Result :=
  if rd = 15#4 then .next (s.setPc (r &&& 0xFFFFFFFE#32)) else .next (s.writeReg rd r).advance

/-- ADD, THUMB state, high register (41_data_processing R140). -/
def execTAddHi (rd rs : RegNum) (s : State) : Result :=
  s.writeHigh rd (s.readReg rd + s.readReg rs)

/-- CMP, THUMB state, high register (41_data_processing R141). -/
def execTCmpHi (rd rs : RegNum) (s : State) : Result :=
  if rd = 15#4 then .refused .thumbCmpR15 else s.compare (s.readReg rd) (s.readReg rs)

/-- MOV, THUMB state, high register (41_data_processing R142). -/
def execTMovHi (rd rs : RegNum) (s : State) : Result := s.writeHigh rd (s.readReg rs)

end Sys2Proof.Machine
end

