-- ==== Sys2Proof/Machine/PsrTransfer.lean ====
section
/-! DEFINITION. PSR transfer: MRS and MSR (42_psr_transfer R150 to R155). -/

namespace Sys2Proof.Machine

/-- The PSR an instruction names; `none` is the SPSR of User or System mode (10_state R30). -/
def State.selectedPsr (s : State) : PsrSel → Option Psr
  | .cpsr => some s.cpsr
  | .spsr => s.bank.map s.spsr.get

/-- The flags field of a word into a PSR (42_psr_transfer R153); bits 27:24 are ignored. -/
def Psr.withFlagsOf (p : Psr) (w : Word) : Psr :=
  { p with n := w.getLsbD 31, z := w.getLsbD 30, c := w.getLsbD 29, v := w.getLsbD 28 }

/-- The flags field into a PSR when the mask selects it (42_psr_transfer R153). -/
def Psr.maskedFlags (p : Psr) (mask : BitVec 4) (w : Word) : Psr :=
  if mask.getLsbD 3 then p.withFlagsOf w else p

/-- The write of the CPSR (42_psr_transfer R153 to R155). In User mode the control field is not written.
An illegal mode value is written to M and leaves the machine stuck, with nothing after it done (log 14). -/
def State.writeCpsr (s : State) (mask : BitVec 4) (w : Word) : Result :=
  let p := s.cpsr.maskedFlags mask w
  if mask.getLsbD 0 && s.privileged then
    if w.getLsbD 5 != s.cpsr.t then .refused .softwareChangeOfT
    else if (modeOf (w.extractLsb' 0 5)).isNone then .next (s.setCpsr { p with m := w.extractLsb' 0 5 })
    else .next (s.setCpsr { p with i := w.getLsbD 7, f := w.getLsbD 6, m := w.extractLsb' 0 5 }).advance
  else .next (s.setCpsr p).advance

/-- The SPSR after a write (42_psr_transfer R153): its control field takes I, F, T and M. -/
def Psr.maskedSaved (p : Psr) (mask : BitVec 4) (w : Word) : Psr :=
  if mask.getLsbD 0 then
    { p.maskedFlags mask w with
      i := w.getLsbD 7, f := w.getLsbD 6, t := w.getLsbD 5, m := w.extractLsb' 0 5 }
  else p.maskedFlags mask w

/-- The PSR write (42_psr_transfer R153). -/
def State.writePsr (s : State) (sel : PsrSel) (mask : BitVec 4) (w : Word) : Result :=
  match sel with
  | .cpsr => s.writeCpsr mask w
  | .spsr =>
    match s.bank with
    | none => .refused .noSpsr
    | some e => .next (s.setSpsr e ((s.spsr.get e).maskedSaved mask w)).advance

/-- MRS (42_psr_transfer R150). Bits 27:8 are a free value (10_state R37; log 10). -/
def execMrs (c : Cond) (sel : PsrSel) (rd : RegNum) (s : State) : Result :=
  s.whenCond c
    (if rd = 15#4 then .refused .mrsToR15
    else
      match s.selectedPsr sel with
      | none => .refused .noSpsr
      | some p => .next ((s.writeReg rd (p.toWord (Config.freeReserved s.draws))).drawn).advance)

/-- MSR, register operand (42_psr_transfer R151). -/
def execMsrReg (c : Cond) (sel : PsrSel) (mask : BitVec 4) (rm : RegNum) (s : State) : Result :=
  s.whenCond c (if rm = 15#4 then .refused .msrFromR15 else s.writePsr sel mask (s.readReg rm))

/-- MSR, immediate operand (42_psr_transfer R152). -/
def execMsrImm (c : Cond) (sel : PsrSel) (mask rotate : BitVec 4) (imm8 : BitVec 8) (s : State) :
    Result :=
  s.whenCond c (s.writePsr sel mask (rotatedImm rotate imm8))

end Sys2Proof.Machine
end

