-- ==== Sys2Proof/Machine/SingleTransfer.lean ====
section
/-! DEFINITION. Single data transfer: LDR, STR, LDRB, STRB in their three forms (43_data_transfer R160 to R164), with what a data abort leaves behind (R172). -/

namespace Sys2Proof.Machine

/-- `if writeback then x[Rn] <- off_addr` (43_data_transfer R161 to R164). -/
def State.writeBack (s : State) (ix : Index) (rn : RegNum) (off : Word) : State :=
  if ix.writesBack then s.writeReg rn off else s

/-- A data abort of a single transfer (43_data_transfer R172): the base register is updated under
`baseUpdated`, then the exception is taken. -/
def State.abortTransfer (s : State) (ix : Index) (rn : RegNum) (off : Word) : Result :=
  match s.platform.abortModel with
  | .baseUpdated => .next ((s.writeBack ix rn off).raise .dataAbort)
  | .baseRestored => .next (s.raise .dataAbort)

/-- LDR in one of its forms (43_data_transfer R161). -/
def State.loadWord (s : State) (ix : Index) (up : Bool) (rn rd : RegNum) (imm : BitVec 12) : Result :=
  match ix.refusal rn rd with
  | some r => .refused r
  | none =>
    let off := s.offAddr up rn imm
    let addr := s.transferAddr ix up rn imm
    (s.memRead addr 4).andThen (s.abortTransfer ix rn off) fun v =>
      if rd = 15#4 then ((s.seen addr 4).writeBack ix rn off).branchArm v
      else .next (((s.seen addr 4).writeBack ix rn off).writeReg rd v).advance

/-- LDRB in one of its forms (43_data_transfer R163). -/
def State.loadByte (s : State) (ix : Index) (up : Bool) (rn rd : RegNum) (imm : BitVec 12) : Result :=
  match ix.refusal rn rd with
  | some r => .refused r
  | none =>
    if rd = 15#4 then .refused .ldrbToR15
    else
      let off := s.offAddr up rn imm
      let addr := s.transferAddr ix up rn imm
      (s.memRead addr 1).andThen (s.abortTransfer ix rn off) fun v =>
        .next (((s.seen addr 1).writeBack ix rn off).writeReg rd v).advance

/-- The store of the low `n` bytes of a register (43_data_transfer R162, R164); `ofR15` is the refusal
that the rule names for R15. -/
def State.storeReg (s : State) (n : Nat) (ofR15 : Refusal) (ix : Index) (up : Bool) (rn rd : RegNum)
    (imm : BitVec 12) : Result :=
  match ix.refusal rn rd with
  | some r => .refused r
  | none =>
    if rd = 15#4 then .refused ofR15
    else
      let off := s.offAddr up rn imm
      (s.memWrite (s.transferAddr ix up rn imm) n (s.readReg rd)).andThen (s.abortTransfer ix rn off)
        fun t => .next (t.writeBack ix rn off).advance

/-- LDR, pre-indexed (43_data_transfer R161). -/
def execLdrPre (c : Cond) (up : Bool) (rn rd : RegNum) (imm : BitVec 12) (s : State) : Result :=
  s.whenCond c (s.loadWord .pre up rn rd imm)

/-- LDR, pre-indexed with write-back (43_data_transfer R161). -/
def execLdrPreWb (c : Cond) (up : Bool) (rn rd : RegNum) (imm : BitVec 12) (s : State) : Result :=
  s.whenCond c (s.loadWord .preWb up rn rd imm)

/-- LDR, post-indexed (43_data_transfer R161). -/
def execLdrPost (c : Cond) (up : Bool) (rn rd : RegNum) (imm : BitVec 12) (s : State) : Result :=
  s.whenCond c (s.loadWord .post up rn rd imm)

/-- STR, pre-indexed (43_data_transfer R162). -/
def execStrPre (c : Cond) (up : Bool) (rn rd : RegNum) (imm : BitVec 12) (s : State) : Result :=
  s.whenCond c (s.storeReg 4 .strOfR15 .pre up rn rd imm)

/-- STR, pre-indexed with write-back (43_data_transfer R162). -/
def execStrPreWb (c : Cond) (up : Bool) (rn rd : RegNum) (imm : BitVec 12) (s : State) : Result :=
  s.whenCond c (s.storeReg 4 .strOfR15 .preWb up rn rd imm)

/-- STR, post-indexed (43_data_transfer R162). -/
def execStrPost (c : Cond) (up : Bool) (rn rd : RegNum) (imm : BitVec 12) (s : State) : Result :=
  s.whenCond c (s.storeReg 4 .strOfR15 .post up rn rd imm)

/-- LDRB, pre-indexed (43_data_transfer R163). -/
def execLdrbPre (c : Cond) (up : Bool) (rn rd : RegNum) (imm : BitVec 12) (s : State) : Result :=
  s.whenCond c (s.loadByte .pre up rn rd imm)

/-- LDRB, pre-indexed with write-back (43_data_transfer R163). -/
def execLdrbPreWb (c : Cond) (up : Bool) (rn rd : RegNum) (imm : BitVec 12) (s : State) : Result :=
  s.whenCond c (s.loadByte .preWb up rn rd imm)

/-- LDRB, post-indexed (43_data_transfer R163). -/
def execLdrbPost (c : Cond) (up : Bool) (rn rd : RegNum) (imm : BitVec 12) (s : State) : Result :=
  s.whenCond c (s.loadByte .post up rn rd imm)

/-- STRB, pre-indexed (43_data_transfer R164). -/
def execStrbPre (c : Cond) (up : Bool) (rn rd : RegNum) (imm : BitVec 12) (s : State) : Result :=
  s.whenCond c (s.storeReg 1 .strbOfR15 .pre up rn rd imm)

/-- STRB, pre-indexed with write-back (43_data_transfer R164). -/
def execStrbPreWb (c : Cond) (up : Bool) (rn rd : RegNum) (imm : BitVec 12) (s : State) : Result :=
  s.whenCond c (s.storeReg 1 .strbOfR15 .preWb up rn rd imm)

/-- STRB, post-indexed (43_data_transfer R164). -/
def execStrbPost (c : Cond) (up : Bool) (rn rd : RegNum) (imm : BitVec 12) (s : State) : Result :=
  s.whenCond c (s.storeReg 1 .strbOfR15 .post up rn rd imm)

end Sys2Proof.Machine
end

