-- ==== Sys2Proof/Machine/SoftwareInterrupt.lean ====
section
/-! DEFINITION. SWI and the undefined patterns (44_swi_and_undefined R185 to R188). The comment field of a SWI and the free bits of an undefined pattern are not used by the processor. -/

namespace Sys2Proof.Machine

/-- SWI, ARM state (44_swi_and_undefined R185). -/
def execSwi (c : Cond) (s : State) : Result := s.whenCond c (.next (s.raise .softwareInterrupt))

/-- SWI, THUMB state (44_swi_and_undefined R186). -/
def execTSwi (s : State) : Result := .next (s.raise .softwareInterrupt)

/-- The ARM undefined pattern (44_swi_and_undefined R187). -/
def execUndef (c : Cond) (s : State) : Result := s.whenCond c (.next (s.raise .undefined))

/-- The THUMB undefined pattern (44_swi_and_undefined R188). -/
def execTUndef (s : State) : Result := .next (s.raise .undefined)

end Sys2Proof.Machine
end

