-- ==== Sys2Proof/Machine/Swap.lean ====
section
/-! DEFINITION. SWP and SWPB (43_data_transfer R170, R171), with what a data abort leaves behind (R173). -/

namespace Sys2Proof.Machine

/-- The refusals of 43_data_transfer R170. -/
def swapRefusal (rn rd rm : RegNum) : Option Refusal :=
  if rn = 15#4 ∨ rd = 15#4 ∨ rm = 15#4 then some .swpWithR15
  else if rn = rd ∨ rn = rm then some .swpBaseIsOperand
  else none

/-- The swap of `n` bytes (43_data_transfer R170, R171): a read, then a write, and nothing changed when
either aborts (R173). -/
def State.swap (s : State) (n : Nat) (rn rd rm : RegNum) : Result :=
  match swapRefusal rn rd rm with
  | some r => .refused r
  | none =>
    let u := s.seen (s.readReg rn) n
    (s.memRead (s.readReg rn) n).andThen (.next (s.raise .dataAbort)) fun old =>
      (u.memWrite (s.readReg rn) n (s.readReg rm)).andThen (.next (u.raise .dataAbort)) fun t =>
        .next (t.writeReg rd old).advance

/-- SWP (43_data_transfer R170). -/
def execSwp (c : Cond) (rn rd rm : RegNum) (s : State) : Result := s.whenCond c (s.swap 4 rn rd rm)

/-- SWPB (43_data_transfer R171). -/
def execSwpb (c : Cond) (rn rd rm : RegNum) (s : State) : Result := s.whenCond c (s.swap 1 rn rd rm)

end Sys2Proof.Machine
end

