-- ==== Sys2Proof/Machine/Dispatch.lean ====
section
/-! DEFINITION. The meaning of each instruction, one arm per constructor. -/

namespace Sys2Proof.Machine

def exec (i : Instr) (s : State) : Host.Outcome State Fault Refusal :=
  match i with
  | .bx c rn => Sys2Proof.Machine.execBx c rn s
  | .mrs c sel rd => Sys2Proof.Machine.execMrs c sel rd s
  | .msrReg c sel mask rm => Sys2Proof.Machine.execMsrReg c sel mask rm s
  | .msrImm c sel mask rotate imm => Sys2Proof.Machine.execMsrImm c sel mask rotate imm s
  | .swp c rn rd rm => Sys2Proof.Machine.execSwp c rn rd rm s
  | .swpb c rn rd rm => Sys2Proof.Machine.execSwpb c rn rd rm s
  | .movReg c S rd rm => Sys2Proof.Machine.execMovReg c S rd rm s
  | .movImm c S rd rotate imm => Sys2Proof.Machine.execMovImm c S rd rotate imm s
  | .subReg c S rn rd rm => Sys2Proof.Machine.execSubReg c S rn rd rm s
  | .subImm c S rn rd rotate imm => Sys2Proof.Machine.execSubImm c S rn rd rotate imm s
  | .addReg c S rn rd rm => Sys2Proof.Machine.execAddReg c S rn rd rm s
  | .addImm c S rn rd rotate imm => Sys2Proof.Machine.execAddImm c S rn rd rotate imm s
  | .cmpReg c rn rm => Sys2Proof.Machine.execCmpReg c rn rm s
  | .cmpImm c rn rotate imm => Sys2Proof.Machine.execCmpImm c rn rotate imm s
  | .ldrPre c up rn rd imm => Sys2Proof.Machine.execLdrPre c up rn rd imm s
  | .ldrPreWb c up rn rd imm => Sys2Proof.Machine.execLdrPreWb c up rn rd imm s
  | .ldrPost c up rn rd imm => Sys2Proof.Machine.execLdrPost c up rn rd imm s
  | .strPre c up rn rd imm => Sys2Proof.Machine.execStrPre c up rn rd imm s
  | .strPreWb c up rn rd imm => Sys2Proof.Machine.execStrPreWb c up rn rd imm s
  | .strPost c up rn rd imm => Sys2Proof.Machine.execStrPost c up rn rd imm s
  | .ldrbPre c up rn rd imm => Sys2Proof.Machine.execLdrbPre c up rn rd imm s
  | .ldrbPreWb c up rn rd imm => Sys2Proof.Machine.execLdrbPreWb c up rn rd imm s
  | .ldrbPost c up rn rd imm => Sys2Proof.Machine.execLdrbPost c up rn rd imm s
  | .strbPre c up rn rd imm => Sys2Proof.Machine.execStrbPre c up rn rd imm s
  | .strbPreWb c up rn rd imm => Sys2Proof.Machine.execStrbPreWb c up rn rd imm s
  | .strbPost c up rn rd imm => Sys2Proof.Machine.execStrbPost c up rn rd imm s
  | .ldm c mode wb rn list => Sys2Proof.Machine.execLdm c mode wb rn list s
  | .stm c mode wb rn list => Sys2Proof.Machine.execStm c mode wb rn list s
  | .b c off => Sys2Proof.Machine.execB c off s
  | .bl c off => Sys2Proof.Machine.execBl c off s
  | .swi c _ => Sys2Proof.Machine.execSwi c s
  | .undef c _ _ => Sys2Proof.Machine.execUndef c s
  | .tBx rs => Sys2Proof.Machine.execTBx rs s
  | .tAddHi rd rs => Sys2Proof.Machine.execTAddHi rd rs s
  | .tCmpHi rd rs => Sys2Proof.Machine.execTCmpHi rd rs s
  | .tMovHi rd rs => Sys2Proof.Machine.execTMovHi rd rs s
  | .tSwi _ => Sys2Proof.Machine.execTSwi s
  | .tUndef _ => Sys2Proof.Machine.execTUndef s
  | .tBcond c off => Sys2Proof.Machine.execTBcond c off s
  | .tBlFirst off => Sys2Proof.Machine.execTBlFirst off s
  | .tBlSecond off => Sys2Proof.Machine.execTBlSecond off s

end Sys2Proof.Machine
end

