-- ==== Sys2Proof/Machine/Step.lean ====
section
/-! DEFINITION. One step of the processor (60_exceptions R235), and the state in which the next step fetches a given instruction. -/

namespace Sys2Proof.Machine

/-- The refusal that stands for a word the decoder rejects (30_encoding R93, R96). -/
def rejectRefusal : Reject → Refusal
  | .conditionNV => .conditionNV
  | .unmodelled => .unmodelledInstruction
  | .wrongLength => .unmodelledInstruction

/-- Step 4 of 60_exceptions R235: fetch, then the Prefetch abort or the decoded instruction. -/
def State.fetchAndExec (s : State) : Result :=
  s.fetch.andThen (.next (s.raise .prefetchAbort)) fun bs =>
    match decodeBytes s.platform.bigEndian s.cpsr.t bs with
    | .ok i => exec i (s.seen s.pc s.fetchLen)
    | .error e => .refused (rejectRefusal e)

/-- What this boundary shows (60_exceptions R235); with no more inputs listed nothing is requested (log 8). -/
def State.boundary (s : State) : Boundary := s.inputs.headD Boundary.quiet

/-- The state with this boundary's inputs consumed. -/
def State.nextInputs (s : State) : State := { s with inputs := s.inputs.tail }

/-- A boundary after its inputs have been read (60_exceptions R235): Reset; then nothing if the machine
is stuck (10_state R36; it idles, log 14); then FIQ; then IRQ; then the instruction at the pc. -/
def State.stepAt (s : State) (e : Boundary) : Result :=
  if e.reset then .next s.resetException
  else if s.stuck then .next s
  else if !e.nFIQ && !s.cpsr.f then .next (s.raise .fiq)
  else if !e.nIRQ && !s.cpsr.i then .next (s.raise .irq)
  else s.fetchAndExec

/-- One step (60_exceptions R235). -/
def step (s : State) : Host.Outcome State Fault Refusal := s.nextInputs.stepAt s.boundary

/-- The state in which the next step fetches the instruction of `nbits` bits `w`: its bytes at the pc, in
the byte order of the platform, as launch contents and not as a store (20_memory R73); THUMB state for a
halfword, ARM state for a word; nothing requested at the next boundary. -/
def State.withFetchWord (s : State) (nbits w : Nat) : State :=
  let n := if nbits ≤ 16 then 2 else 4
  { s with
    cpsr := { s.cpsr with t := decide (nbits ≤ 16) }
    mem := s.mem.writeBytes s.pc (toBytes s.platform.bigEndian n (BitVec.ofNat 32 w))
    stored := s.stored.filter fun a => !(byteAddrs s.pc n).contains a
    pcWrapped := false
    inputs := if s.inputs.isEmpty then [] else Boundary.quiet :: s.inputs.tail }

end Sys2Proof.Machine
end

