-- ==== Sys2Proof/Safety.lean ====
section
/-! DEFINITION. What counts as a well-kept state and as a safe run, and the words in which the statements say what an instruction leaves unchanged, what it stores and which exception it takes. -/

namespace Sys2Proof.Machine

/-! ### Well-kept states and runs -/

/-- The pc is aligned for the operating state: bits [1:0] are zero in ARM state, bit [0] in THUMB state
(10_state R26). -/
def State.pcAligned (s : State) : Bool := if s.cpsr.t then !misaligned s.pc 2 else !misaligned s.pc 4

/-- The addresses marked as stored to are addresses of the 32-bit space, strictly rising. -/
abbrev storedWf (l : List Nat) : Prop := l.Pairwise (· < ·) ∧ ∀ a ∈ l, a < 2 ^ 32

/-- What every step keeps: memory in its canonical form, the stored-to marks in theirs, the pc aligned
for the operating state (10_state R26). -/
structure State.Inv (s : State) : Prop where
  mem : s.mem.wf
  stored : storedWf s.stored
  pc : s.pcAligned = true

/-- A run of `n` steps that meets no fault and no refusal. -/
def safeRun (n : Nat) (s : State) : Prop := ∃ t, Sys2Proof.core.run n s = .next t

/-- A run up to the first state that P_END_OF_RUN holds of (70_reset_and_hazards R265), in at most `n`
steps. -/
def runUntil (endOfRun : State → Bool) : Nat → State → Result
  | 0, s => .next s
  | n + 1, s =>
    if endOfRun s then .next s
    else
      match step s with
      | .next t => runUntil endOfRun n t
      | .fault f => .fault f
      | .refused r => .refused r

/-- The end that the spec's own programs use (D23, 95_test_vectors Part 3): the pc rests on the word
0xEAFFFFFE. P_END_OF_RUN is OPEN, and that the end is recognised by what a fetch at the pc gives in ARM
state, whatever the inputs of the boundary, is the model's choice (DESIGN CHOICE, log 27). -/
def atBranchToSelf (s : State) : Bool :=
  match s.fetch with
  | .ok bs => !s.cpsr.t && ofBytes s.platform.bigEndian bs == 0xEAFFFFFE#32
  | .abort => false
  | .fault _ => false
  | .refuse _ => false

/-! ### Frames -/

/-- From `s` to `t` nothing changed but the listed general registers, and the pc with its mark, the CPSR
and the count of free values, of which this says nothing. Memory is compared byte by byte as it reads. -/
structure State.Keeps (s t : State) (written : List PhysReg) : Prop where
  regs : ∀ p, p ∉ written → t.regs.get p = s.regs.get p
  spsr : t.spsr = s.spsr
  mem : ∀ a, t.mem.read a = s.mem.read a
  stored : t.stored = s.stored
  platform : t.platform = s.platform
  inputs : t.inputs = s.inputs

/-- From `s` the pc of `t` moved on by `len` bytes, modulo 2^32, with the mark of a passage of the top of
the space (10_state R27, log 16). -/
structure State.Advances (s t : State) (len : Word) : Prop where
  pc : t.pc = s.pc + len
  wrapped : t.pcWrapped = decide (2 ^ 32 ≤ s.pc.toNat + len.toNat)

/-- The pc of `t` was set to `target`, which is no sequential advance (10_state R27, log 16). -/
structure State.Lands (t : State) (target : Word) : Prop where
  pc : t.pc = target
  wrapped : t.pcWrapped = false

/-- From `s` to `t` only the pc moved, to the next instruction (10_state R27). -/
structure State.OnlyAdvances (s t : State) : Prop where
  keeps : s.Keeps t []
  cpsr : t.cpsr = s.cpsr
  pc : s.Advances t s.instrLen
  draws : t.draws = s.draws

/-- From `s` to `t` only the pc changed, to `target`. -/
structure State.OnlyBranches (s t : State) (target : Word) : Prop where
  keeps : s.Keeps t []
  cpsr : t.cpsr = s.cpsr
  pc : t.Lands target
  draws : t.draws = s.draws

/-- `t` is `s` after an exception was taken (60_exceptions R230): into the mode `e`, whose M value is
`bits`, at the vector `vec`, with `ret` saved in R14; `setsF` says whether F becomes 1. -/
structure State.Takes (s t : State) (e : ExcMode) (bits : BitVec 5) (vec : Word) (setsF : Bool)
    (ret : Word) : Prop where
  link : t.regs.get (.lr (some e)) = ret
  saved : t.spsr.get e = s.cpsr
  mode : t.cpsr.m = bits
  armState : t.cpsr.t = false
  irqMasked : t.cpsr.i = true
  fiqMask : t.cpsr.f = (s.cpsr.f || setsF)
  flags : t.cpsr.n = s.cpsr.n ∧ t.cpsr.z = s.cpsr.z ∧ t.cpsr.c = s.cpsr.c ∧ t.cpsr.v = s.cpsr.v
  pc : t.Lands vec
  regs : ∀ p, p ≠ .lr (some e) → t.regs.get p = s.regs.get p
  spsrs : ∀ x, x ≠ e → t.spsr.get x = s.spsr.get x
  mem : ∀ a, t.mem.read a = s.mem.read a
  stored : t.stored = s.stored
  platform : t.platform = s.platform
  inputs : t.inputs = s.inputs
  draws : t.draws = s.draws

/-! ### Memory as the statements speak of it -/

/-- The byte address `k` bytes after `addr` (20_memory R60, modulo 2^32). -/
def byteAddr (addr : Word) (k : Nat) : Nat := (addr + BitVec.ofNat 32 k).toNat

/-- Byte `k` of the low `n` bytes of `v` as they lie in memory (20_memory R61). -/
def byteOf (big : Bool) (n : Nat) (v : Word) (k : Nat) : Byte :=
  v.extractLsb' (if big then 8 * (n - 1 - k) else 8 * k) 8

/-- The `n` bytes at `addr` are the low `n` bytes of `v` in the byte order of the platform. -/
abbrev State.Holds (s : State) (addr : Word) (n : Nat) (v : Word) : Prop :=
  ∀ k < n, s.mem.read (byteAddr addr k) = some (byteOf s.platform.bigEndian n v k)

/-- `a` is none of the `n` byte addresses from `addr` on. -/
abbrev Outside (addr : Word) (n : Nat) (a : Nat) : Prop := ∀ k < n, a ≠ byteAddr addr k

/-- An access of this kind is made: aligned, no abort, every byte placed, in memory or in a device
(20_memory R60). -/
structure State.Reaches (s : State) (kind : AccessKind) (addr : Word) (n : Nat) : Prop where
  aligned : addr.toNat % n = 0
  noAbort : s.platform.abortsAccess kind addr n s.privileged = false
  placed : ∀ k < n, s.platform.kindAt (byteAddr addr k) ≠ none

/-- An access of this kind is made where P_MEMMAP does not place every byte (20_memory R60). -/
structure State.Misses (s : State) (kind : AccessKind) (addr : Word) (n : Nat) : Prop where
  aligned : addr.toNat % n = 0
  noAbort : s.platform.abortsAccess kind addr n s.privileged = false
  unplaced : ∃ k < n, s.platform.kindAt (byteAddr addr k) = none

/-- An access of this kind is made and every byte it reads has a value: a byte of memory has been written
(log 2), a device always shows one (20_memory R66, log 4). -/
structure State.Readable (s : State) (kind : AccessKind) (addr : Word) (n : Nat) : Prop where
  reaches : s.Reaches kind addr n
  written : ∀ k < n, s.platform.kindAt (byteAddr addr k) = some .memory →
    s.mem.read (byteAddr addr k) ≠ none

/-- An access of this kind goes through to memory: aligned, no abort, memory mapped (20_memory R60). -/
structure State.Accessible (s : State) (kind : AccessKind) (addr : Word) (n : Nat) : Prop where
  aligned : addr.toNat % n = 0
  noAbort : s.platform.abortsAccess kind addr n s.privileged = false
  mapped : ∀ k < n, s.platform.kindAt (byteAddr addr k) = some .memory

/-- The access signals abort (20_memory R60, R63). -/
structure State.Aborts (s : State) (kind : AccessKind) (addr : Word) (n : Nat) : Prop where
  aligned : addr.toNat % n = 0
  abort : s.platform.abortsAccess kind addr n s.privileged = true

/-- This boundary lets the instruction at the pc run: no Reset, not stuck, no interrupt taken
(60_exceptions R235). -/
structure State.Undisturbed (s : State) : Prop where
  noReset : s.boundary.reset = false
  notStuck : s.stuck = false
  noFiq : s.boundary.nFIQ = true ∨ s.cpsr.f = true
  noIrq : s.boundary.nIRQ = true ∨ s.cpsr.i = true

/-- The next fetch reads these bytes (20_memory R62, R73, 10_state R27). -/
structure State.Fetches (s : State) (bs : List Byte) : Prop where
  noWrap : s.pcWrapped = false
  access : s.Accessible .fetch s.pc s.fetchLen
  fresh : ∀ k < s.fetchLen, byteAddr s.pc k ∉ s.stored
  length : bs.length = s.fetchLen
  bytes : ∀ k < s.fetchLen, s.mem.read (byteAddr s.pc k) = bs[k]?

/-- How many registers of a list are below `r`: the slot of `r` in a block transfer (43_data_transfer
R166). -/
def slotOf (list : BitVec 16) (r : Nat) : Nat := ((List.range r).filter fun j => list.getLsbD j).length

/-- The address a register of the list is transferred at, from `start` on (43_data_transfer R166). -/
def slotAddr (start : Word) (list : BitVec 16) (r : RegNum) : Word :=
  start + BitVec.ofNat 32 (4 * slotOf list r.toNat)

/-! ### Kinds of instructions and registers -/

/-- The instructions that 10_state R40 says may write the flags. -/
def writesFlags : Instr → Prop
  | .movReg _ S _ _ => S = true
  | .movImm _ S _ _ _ => S = true
  | .subReg _ S _ _ _ => S = true
  | .subImm _ S _ _ _ _ => S = true
  | .addReg _ S _ _ _ => S = true
  | .addImm _ S _ _ _ _ => S = true
  | .cmpReg _ _ _ => True
  | .cmpImm _ _ _ _ => True
  | .tCmpHi _ _ => True
  | .msrReg _ sel mask _ => sel = .cpsr ∧ mask.getLsbD 3 = true
  | .msrImm _ sel mask _ _ => sel = .cpsr ∧ mask.getLsbD 3 = true
  | _ => False

/-- The instructions that store to memory. -/
def writesMemory : Instr → Prop
  | .strPre _ _ _ _ _ => True
  | .strPreWb _ _ _ _ _ => True
  | .strPost _ _ _ _ _ => True
  | .strbPre _ _ _ _ _ => True
  | .strbPreWb _ _ _ _ _ => True
  | .strbPost _ _ _ _ _ => True
  | .stm _ _ _ _ _ => True
  | .swp _ _ _ _ => True
  | .swpb _ _ _ _ => True
  | _ => False

/-- The forms that copy an SPSR into the CPSR: S with destination R15 (41_data_processing R132). -/
def isReturn : Instr → Prop
  | .movReg _ S rd _ => S = true ∧ rd = 15#4
  | .movImm _ S rd _ _ => S = true ∧ rd = 15#4
  | .subReg _ S _ rd _ => S = true ∧ rd = 15#4
  | .subImm _ S _ rd _ _ => S = true ∧ rd = 15#4
  | .addReg _ S _ rd _ => S = true ∧ rd = 15#4
  | .addImm _ S _ rd _ _ => S = true ∧ rd = 15#4
  | _ => False

/-- The branch-and-exchange instructions (40_branch_and_exchange R112, R113). -/
def isExchange : Instr → Prop
  | .bx _ _ => True
  | .tBx _ => True
  | _ => False

/-- A register that User and System mode cannot name (10_state R22). -/
def isBankedAway : PhysReg → Prop
  | .low _ => False
  | .high _ => False
  | .highFiq _ => True
  | .sp k => k ≠ none
  | .lr k => k ≠ none

end Sys2Proof.Machine
end

