-- ==== Sys2Proof/Certificates/Slice0/Obligations.lean ====
section
/-! DEFINITION. The statements for the provers. Each docstring names the rules of spec/ the statement formalises; what a statement needs beyond the model's own words is in Sys2Proof/Safety.lean. -/

namespace Sys2Proof.Machine

/-! ### Words shared by the statements -/

/-- The instruction completes, in a state that `P` holds of. -/
def RunsTo (i : Instr) (s : State) (P : State → Prop) : Prop := ∃ t, exec i s = .next t ∧ P t

/-- One general register and the CPSR written, the pc advanced. -/
structure State.Writes (s t : State) (rd : RegNum) (v : Word) (p : Psr) : Prop where
  value : t.regs.get (physOf s.bank rd) = v
  keeps : s.Keeps t [physOf s.bank rd]
  cpsr : t.cpsr = p
  pc : s.Advances t s.instrLen
  draws : t.draws = s.draws

/-- Only the CPSR written, the pc advanced. -/
structure State.SetsCpsr (s t : State) (p : Psr) : Prop where
  keeps : s.Keeps t []
  cpsr : t.cpsr = p
  pc : s.Advances t s.instrLen
  draws : t.draws = s.draws

/-- 41_data_processing R132 with the result `r`. -/
def ReturnRule (i : Instr) (s : State) (r : Word) : Prop :=
  (s.bank = none → exec i s = .refused .noSpsr) ∧
  ∀ e, s.bank = some e →
    (modeOf (s.spsr.get e).m = none → RunsTo i s fun t => t.stuck = true) ∧
    (modeOf (s.spsr.get e).m ≠ none → (s.spsr.get e).t = false →
      if r.toNat % 4 = 0 then
        RunsTo i s fun t => s.Keeps t [] ∧ t.cpsr = s.spsr.get e ∧ t.Lands r ∧ t.draws = s.draws
      else exec i s = .refused .armTargetNotAligned) ∧
    (modeOf (s.spsr.get e).m ≠ none → (s.spsr.get e).t = true →
      if r.toNat % 2 = 0 then
        RunsTo i s fun t => s.Keeps t [] ∧ t.cpsr = s.spsr.get e ∧ t.Lands r ∧ t.draws = s.draws
      else exec i s = .refused .thumbTargetNotAligned)

/-- How MOV, SUB and ADD follow their rules: the result `r`, and the CPSR `p` that the S bit gives
(41_data_processing R127 to R129, with R131 and R132 for R15). -/
def AluRule (i : Instr) (s : State) (c : Cond) (S : Bool) (rd : RegNum) (r : Word) (p : Psr) : Prop :=
  (condPassed s.cpsr c = false → RunsTo i s s.OnlyAdvances) ∧
  (condPassed s.cpsr c = true → rd ≠ 15#4 →
    RunsTo i s fun t => s.Writes t rd r (if S then p else s.cpsr)) ∧
  (condPassed s.cpsr c = true → rd = 15#4 → S = false →
    if r.toNat % 4 = 0 then RunsTo i s fun t => s.OnlyBranches t r
    else exec i s = .refused .armTargetNotAligned) ∧
  (condPassed s.cpsr c = true → rd = 15#4 → S = true → ReturnRule i s r)

/-- The value of a rotated immediate (30_encoding R87). -/
def immValue (rotate : BitVec 4) (imm8 : BitVec 8) : Word :=
  (imm8.setWidth 32).rotateRight (2 * rotate.toNat)

/-- The CPSR after a subtraction, in the terms of 41_data_processing R126. -/
def subFlags (p : Psr) (a b : Word) : Psr :=
  { p with n := (a - b).getLsbD 31, z := decide (a - b = 0#32), c := decide (b.toNat ≤ a.toNat),
           v := decide (a.getLsbD 31 ≠ b.getLsbD 31) && decide ((a - b).getLsbD 31 ≠ a.getLsbD 31) }

/-- The CPSR after an addition, in the terms of 41_data_processing R126. -/
def addFlags (p : Psr) (a b : Word) : Psr :=
  { p with n := (a + b).getLsbD 31, z := decide (a + b = 0#32),
           c := decide (a.toNat + b.toNat ≥ 2 ^ 32),
           v := decide (a.getLsbD 31 = b.getLsbD 31) && decide ((a + b).getLsbD 31 ≠ a.getLsbD 31) }

/-- The CPSR after MOVS, in the terms of 41_data_processing R126 and R127. -/
def movFlags (p : Psr) (r : Word) (carry : Bool) : Psr :=
  { p with n := r.getLsbD 31, z := decide (r = 0#32), c := carry }

/-- The flags of a word, as MSR takes them when the mask selects the flags field (42_psr_transfer R153). -/
def flagsFrom (p : Psr) (mask : BitVec 4) (w : Word) : Psr :=
  if mask.getLsbD 3 then
    { p with n := w.getLsbD 31, z := w.getLsbD 30, c := w.getLsbD 29, v := w.getLsbD 28 }
  else p

/-- The LDR, LDRB, STR and STRB of each form. -/
def ldrOf (ix : Index) (c : Cond) (up : Bool) (rn rd : RegNum) (imm : BitVec 12) : Instr :=
  match ix with
  | .pre => .ldrPre c up rn rd imm
  | .preWb => .ldrPreWb c up rn rd imm
  | .post => .ldrPost c up rn rd imm

def ldrbOf (ix : Index) (c : Cond) (up : Bool) (rn rd : RegNum) (imm : BitVec 12) : Instr :=
  match ix with
  | .pre => .ldrbPre c up rn rd imm
  | .preWb => .ldrbPreWb c up rn rd imm
  | .post => .ldrbPost c up rn rd imm

def strOf (ix : Index) (c : Cond) (up : Bool) (rn rd : RegNum) (imm : BitVec 12) : Instr :=
  match ix with
  | .pre => .strPre c up rn rd imm
  | .preWb => .strPreWb c up rn rd imm
  | .post => .strPost c up rn rd imm

def strbOf (ix : Index) (c : Cond) (up : Bool) (rn rd : RegNum) (imm : BitVec 12) : Instr :=
  match ix with
  | .pre => .strbPre c up rn rd imm
  | .preWb => .strbPreWb c up rn rd imm
  | .post => .strbPost c up rn rd imm

/-- The combination of registers is none that 43_data_transfer R160 refuses. -/
def Index.Allowed (ix : Index) (rn rd : RegNum) : Prop := ix.writesBack = true → rn ≠ 15#4 ∧ rn ≠ rd

/-- The registers that the write-back of a transfer changes. -/
def wbRegs (s : State) (wb : Bool) (rn : RegNum) : List PhysReg :=
  if wb then [physOf s.bank rn] else []

/-- A load into `rd` has been done (43_data_transfer R161, R163): the base is written back, with the
value `off`, where `wb` says so. -/
structure State.Loads (s t : State) (wb : Bool) (rn rd : RegNum) (off v : Word) : Prop where
  value : t.regs.get (physOf s.bank rd) = v
  base : wb = true → t.regs.get (physOf s.bank rn) = off
  keeps : s.Keeps t (physOf s.bank rd :: wbRegs s wb rn)
  cpsr : t.cpsr = s.cpsr
  pc : s.Advances t 4#32
  draws : t.draws = s.draws

/-- The low `n` bytes of `v` have been stored at `addr` and nowhere else (20_memory R61), no general
register but the listed ones changed, and the addresses are marked as stored to (20_memory R73). -/
structure State.Stores (s t : State) (addr : Word) (n : Nat) (v : Word) (written : List PhysReg) :
    Prop where
  holds : t.Holds addr n v
  outside : ∀ a, Outside addr n a → t.mem.read a = s.mem.read a
  marks : ∀ a, a ∈ t.stored ↔ a ∈ s.stored ∨ ¬ Outside addr n a
  regs : ∀ p, p ∉ written → t.regs.get p = s.regs.get p
  cpsr : t.cpsr = s.cpsr
  spsr : t.spsr = s.spsr
  platform : t.platform = s.platform
  inputs : t.inputs = s.inputs
  draws : t.draws = s.draws

/-- The word `v` has been stored at `addr`: memory holds it and its addresses are marked (20_memory R61,
R73). -/
structure State.HasStored (u : State) (addr v : Word) : Prop where
  holds : u.Holds addr 4 v
  marked : ∀ k < 4, byteAddr addr k ∈ u.stored

/-- The byte at `a` reads as before, and is marked as stored to exactly if it was. -/
structure State.KeepsByte (s u : State) (a : Nat) : Prop where
  mem : u.mem.read a = s.mem.read a
  mark : a ∈ u.stored ↔ a ∈ s.stored

/-- The low `n` bytes of `v` have been stored at `addr`, in memory or in a device: each byte where memory
is holds its own, every other byte of memory reads as before, and the addresses are marked (log 4, log 15). -/
structure State.StoresPlaced (s t : State) (addr : Word) (n : Nat) (v : Word) : Prop where
  memory : ∀ k < n, s.platform.kindAt (byteAddr addr k) = some .memory →
    t.mem.read (byteAddr addr k) = some (byteOf s.platform.bigEndian n v k)
  device : ∀ a, s.platform.kindAt a = some .device → t.mem.read a = s.mem.read a
  outside : ∀ a, Outside addr n a → t.mem.read a = s.mem.read a
  marks : ∀ a, a ∈ t.stored ↔ a ∈ s.stored ∨ ¬ Outside addr n a

/-- From `s` to `t` nothing changed but the listed general registers, memory with its marks and the count
of free values, of which this says nothing, and the pc, which advanced by 4. -/
structure State.MovesOn (s t : State) (written : List PhysReg) : Prop where
  regs : ∀ p, p ∉ written → t.regs.get p = s.regs.get p
  cpsr : t.cpsr = s.cpsr
  spsr : t.spsr = s.spsr
  pc : s.Advances t 4#32
  platform : t.platform = s.platform
  inputs : t.inputs = s.inputs

/-- From `s` to `t` nothing changed but the registers of a list, the base, which holds `off` where it is
written back, the pc and the count of free values. -/
structure State.LoadsListed (s t : State) (wb : Bool) (rn : RegNum) (list : BitVec 16) (off : Word) :
    Prop where
  base : wb = true → t.regs.get (physOf s.bank rn) = off
  regs : ∀ p, (∀ r : RegNum, list.getLsbD r.toNat = true → r ≠ 15#4 → p ≠ physOf s.bank r) →
    p ∉ wbRegs s wb rn → t.regs.get p = s.regs.get p
  cpsr : t.cpsr = s.cpsr
  spsr : t.spsr = s.spsr
  platform : t.platform = s.platform
  inputs : t.inputs = s.inputs
  bytes : ∀ a, s.KeepsByte t a

/-- What the single transfers that store do (43_data_transfer R162, R164): `n` bytes. -/
def StoreRule (i : Instr) (s : State) (ix : Index) (up : Bool) (rn rd : RegNum) (imm : BitVec 12)
    (n : Nat) (ofR15 : Refusal) : Prop :=
  (rd = 15#4 → exec i s = .refused ofR15) ∧
  (rd ≠ 15#4 → (s.transferAddr ix up rn imm).toNat % n ≠ 0 → exec i s = .refused .misaligned) ∧
  (rd ≠ 15#4 → s.Accessible .write (s.transferAddr ix up rn imm) n →
    RunsTo i s fun t =>
      s.Stores t (s.transferAddr ix up rn imm) n (s.readReg rd) (wbRegs s ix.writesBack rn) ∧
      (ix.writesBack = true → t.regs.get (physOf s.bank rn) = s.offAddr up rn imm) ∧
      s.Advances t 4#32)

/-- The general registers at the end of an aborted transfer, before the exception is taken: the base
holds `off` if it was updated, every other register its old value. -/
structure State.BaseOnly (s u : State) (updated : Bool) (rn : RegNum) (off : Word) : Prop where
  base : updated = true → u.regs.get (physOf s.bank rn) = off
  keeps : s.Keeps u (wbRegs s updated rn)
  cpsr : u.cpsr = s.cpsr
  pc : u.pc = s.pc
  draws : u.draws = s.draws

/-- Data abort entry from `u` (60_exceptions R222): R14_abt is the address of the instruction plus 8. -/
def State.TakesDataAbort (u t : State) : Prop :=
  u.Takes t .abt 0b10111#5 0x00000010#32 false (u.pc + 8#32)

/-- The conditions under which LDM and STM address their registers (43_data_transfer R166). -/
structure BlockAllowed (s : State) (rn : RegNum) (list : BitVec 16) : Prop where
  nonempty : list ≠ 0#16
  base : rn ≠ 15#4
  aligned : (s.readReg rn).toNat % 4 = 0

/-- The instruction that returns from an exception (60_exceptions R246). -/
def returnInstr : ExceptionKind → Instr
  | .softwareInterrupt => .movReg .al true 15#4 14#4
  | .undefined => .movReg .al true 15#4 14#4
  | .reset => .movReg .al true 15#4 14#4
  | .fiq => .subImm .al true 14#4 15#4 0#4 4#8
  | .irq => .subImm .al true 14#4 15#4 0#4 4#8
  | .prefetchAbort => .subImm .al true 14#4 15#4 0#4 4#8
  | .dataAbort => .subImm .al true 14#4 15#4 0#4 8#8

/-- The address the return resumes at (60_exceptions R246). -/
def resumeAt (s : State) : ExceptionKind → Word
  | .softwareInterrupt => s.pc + (if s.cpsr.t then 2#32 else 4#32)
  | .undefined => s.pc + (if s.cpsr.t then 2#32 else 4#32)
  | .reset => s.pc
  | .fiq => s.pc
  | .irq => s.pc
  | .prefetchAbort => s.pc
  | .dataAbort => s.pc

end Sys2Proof.Machine

open Sys2Proof Sys2Proof.Machine

/-! ### Encoding -/

/-- 30_encoding R82, R83, R90, R91: no bit of an encoding is dropped. 20_memory R55, R58: the bytes of an
instruction, in either byte order, decode to it. -/
def Obligations.DecodeOfEncodeIsIdentity : Prop :=
  ∀ i : Instr, i.wellFormed = true →
    decode (encode i) = .ok i ∧ ∀ big, decodeBytes big i.isThumb (i.bytes big) = .ok i

/-- 30_encoding R89, R92: a word that the decoder accepts is the encoding of the one instruction it
gives, so every fixed field of the formats is checked and no two words mean the same instruction. -/
def Obligations.AcceptedWordIsItsEncoding : Prop :=
  ∀ (x : Code) (i : Instr), decode x = .ok i → encode i = x ∧ i.wellFormed = true

/-- 30_encoding R90: "The rows are pairwise disjoint apart from row 0". -/
def Obligations.ArmRowsAreDisjoint : Prop :=
  ∀ (w : Word) (j k : Fin armTable.length),
    armTable[j].hits w = true → armTable[k].hits w = true → j = k

/-- Words written out from the formats of 30_encoding R82 and R83 decode to their instructions. -/
def Obligations.SampleWordsDecode : Prop :=
  decode (.arm 0xE12FFF10#32) = .ok (.bx .al 0#4) ∧
  decode (.arm 0xE25EF004#32) = .ok (.subImm .al true 14#4 15#4 0#4 4#8) ∧
  decode (.arm 0x1AFFFFFC#32) = .ok (.b .ne 0xFFFFFC#24) ∧
  decode (.arm 0xE169F000#32) = .ok (.msrReg .al .spsr 9#4 0#4) ∧
  decode (.arm 0xE4102004#32) = .ok (.ldrPost .al false 0#4 2#4 4#12) ∧
  decode (.arm 0xE92D4003#32) = .ok (.stm .al .db true 13#4 0x4003#16) ∧
  decode (.arm 0xE1402091#32) = .ok (.swpb .al 0#4 2#4 1#4) ∧
  decode (.thumb 0x4441#16) = .ok (.tAddHi 1#4 8#4) ∧
  decode (.thumb 0xF810#16) = .ok (.tBlSecond 0x010#11)

/-! ### The step -/

/-- 60_exceptions R235 step 4, 30_encoding R81: when nothing else happens at the boundary and the bytes
at the pc decode to an instruction, the step runs it on the state with this boundary's inputs consumed
(the model's way to present P_ENV, log 8). -/
def Obligations.StepRunsTheDecodedInstruction : Prop :=
  ∀ (s : State) (bs : List Byte) (i : Instr), s.Undisturbed → s.Fetches bs →
    decodeBytes s.platform.bigEndian s.cpsr.t bs = .ok i → step s = exec i s.nextInputs

/-- 30_encoding R93, R96: a word whose condition field is 1111 is refused, whatever its other bits, and so
is every other word or halfword that no instruction of the subset encodes; none takes the Undefined trap. -/
def Obligations.WordOutsideTheSubsetIsRefused : Prop :=
  ∀ s : State, s.Undisturbed →
    (∀ w : Word, s.cpsr.t = false → s.Fetches (toBytes s.platform.bigEndian 4 w) →
      (w.extractLsb' 28 4 = 15#4 → step s = .refused .conditionNV) ∧
      (w.extractLsb' 28 4 ≠ 15#4 → (∀ i : Instr, i.wellFormed = true → encode i ≠ .arm w) →
        step s = .refused .unmodelledInstruction)) ∧
    (∀ h : Half, s.cpsr.t = true → s.Fetches (toBytes s.platform.bigEndian 2 (h.setWidth 32)) →
      (∀ i : Instr, i.wellFormed = true → encode i ≠ .thumb h) →
        step s = .refused .unmodelledInstruction)

/-- 60_exceptions R210, R212, R214, R215, R230 to R233, R235: an enabled FIQ is taken before the
instruction at the pc and before an IRQ; an enabled IRQ is taken, in any mode, when no FIQ is. -/
def Obligations.EnabledInterruptIsTaken : Prop :=
  ∀ s : State, s.boundary.reset = false → s.stuck = false →
    (s.boundary.nFIQ = false → s.cpsr.f = false →
      ∃ t, step s = .next t ∧
        s.nextInputs.Takes t .fiq 0b10001#5 0x0000001C#32 true (s.pc + 4#32)) ∧
    ((s.boundary.nFIQ = true ∨ s.cpsr.f = true) → s.boundary.nIRQ = false → s.cpsr.i = false →
      ∃ t, step s = .next t ∧
        s.nextInputs.Takes t .irq 0b10010#5 0x00000018#32 false (s.pc + 4#32))

/-- 70_reset_and_hazards R261, R262: Reset is taken from every state, a stuck one too; it leaves
Supervisor mode, ARM state, both interrupts masked, the pc at 0, and memory as it was. -/
def Obligations.ResetIsTakenFromEveryState : Prop :=
  ∀ s : State, s.boundary.reset = true →
    ∃ t, step s = .next t ∧ t.cpsr.m = 0b10011#5 ∧ t.cpsr.i = true ∧ t.cpsr.f = true ∧
      t.cpsr.t = false ∧ t.Lands 0x00000000#32 ∧ t.stuck = false ∧
      (∀ a, t.mem.read a = s.mem.read a) ∧ t.platform = s.platform

/-- 10_state R36, 60_exceptions R235: a stuck machine stays as it is until a Reset, however many
boundaries pass and whatever the interrupt inputs do. That its step idles is the model's choice (log 14). -/
def Obligations.StuckMachineIdlesUntilReset : Prop :=
  ∀ (n : Nat) (s : State), s.stuck = true → (∀ e ∈ s.inputs.take n, e.reset = false) →
    Sys2Proof.core.run n s = .next { s with inputs := s.inputs.drop n }

/-- 60_exceptions R221, 20_memory R62: an abort of the fetch takes the Prefetch abort exception, and the
instruction has no effect. -/
def Obligations.FetchAbortTakesPrefetchAbort : Prop :=
  ∀ s : State, s.Undisturbed → s.pcWrapped = false → s.Aborts .fetch s.pc s.fetchLen →
    ∃ t, step s = .next t ∧
      s.nextInputs.Takes t .abt 0b10111#5 0x0000000C#32 false (s.pc + 4#32)

/-- 60_exceptions R242: a data abort, of whatever instruction, while an FIQ is pending and enabled enters
the abort handler, then the FIQ vector at the next boundary, and the FIQ's return resumes the abort handler
with its R14 and SPSR intact and memory as the aborted instruction left it. -/
def Obligations.FiqAtDataAbortResumesAbortHandler : Prop :=
  ∀ (u t : State) (e : Boundary) (rest : List Boundary), u.TakesDataAbort t → u.cpsr.f = false →
    t.inputs = e :: rest → e.reset = false → e.nFIQ = false →
    ∃ v w, step t = .next v ∧ t.nextInputs.Takes v .fiq 0b10001#5 0x0000001C#32 true 0x00000014#32 ∧
      exec (.subImm .al true 14#4 15#4 0#4 4#8) v = .next w ∧ w.Lands 0x00000010#32 ∧
      w.cpsr = t.cpsr ∧ w.regs.get (.lr (some .abt)) = u.pc + 8#32 ∧ w.spsr.get .abt = u.cpsr ∧
      (∀ p, p ≠ .lr (some .fiq) → w.regs.get p = t.regs.get p) ∧
      ∀ a, w.mem.read a = u.mem.read a

/-- 60_exceptions R231, R245, R246, 41_data_processing R132, R133, 10_state R27: the return instruction of an
exception undoes its entry: CPSR and pc are those of the interrupted program, and no register but R14
and the SPSR of the handler's mode differs. That the resumed pc carries no mark of a wrap, also where an
IRQ or FIQ was taken at a boundary past the top of the space, is the model's choice (log 16): 10_state R27
and D20 do not settle it. -/
def Obligations.ReturnUndoesExceptionEntry : Prop :=
  ∀ (s : State) (e : ExceptionKind), e ≠ .reset → s.stuck = false → s.pcAligned = true →
    RunsTo (returnInstr e) (s.raise e) fun t =>
      t.cpsr = s.cpsr ∧ t.Lands (resumeAt s e) ∧
      (∀ p, p ≠ .lr (some e.entryMode) → t.regs.get p = s.regs.get p) ∧
      (∀ x, x ≠ e.entryMode → t.spsr.get x = s.spsr.get x) ∧
      (∀ a, t.mem.read a = s.mem.read a) ∧ t.stored = s.stored ∧ t.platform = s.platform ∧
      t.inputs = s.inputs ∧ t.draws = s.draws

/-! ### Invariants -/

/-- The invariant of Safety.lean holds right after reset. -/
def Obligations.WellKeptAfterReset : Prop := State.reset.Inv

/-- 10_state R26, 20_memory R50: every step keeps memory in its canonical form and the pc aligned for
the operating state. -/
def Obligations.EveryStepKeepsWellKept : Prop :=
  ∀ s t : State, s.Inv → step s = .next t → t.Inv

/-! ### Flags and conditions -/

/-- 41_data_processing R126, R143: V says that the signed difference or sum does not fit 32 bits, N is
the sign of the 32-bit result, C after a subtraction that no borrow occurred and after an addition that
the unsigned sum does not fit, Z that the result is zero. -/
def Obligations.FlagsSayWhatArithmeticDid : Prop :=
  ∀ (p : Psr) (a b : Word),
    ((p.withSub a b).v = decide (a.toInt - b.toInt < -(2 ^ 31) ∨ a.toInt - b.toInt ≥ 2 ^ 31) ∧
      (p.withSub a b).n = decide ((a - b).toInt < 0) ∧
      (p.withSub a b).c = decide ((a - b).toNat = a.toNat - b.toNat ∧ b.toNat ≤ a.toNat) ∧
      (p.withSub a b).z = decide (a = b)) ∧
    ((p.withAdd a b).v = decide (a.toInt + b.toInt < -(2 ^ 31) ∨ a.toInt + b.toInt ≥ 2 ^ 31) ∧
      (p.withAdd a b).n = decide ((a + b).toInt < 0) ∧
      (p.withAdd a b).c = decide ((a + b).toNat < a.toNat) ∧
      (p.withAdd a b).z = decide (a = -b))

/-- 30_encoding R84, 41_data_processing R130, R143: after a CMP the conditions are the unsigned and
signed comparisons of its operands. -/
def Obligations.ConditionsAfterCmpAreComparisons : Prop :=
  ∀ (s : State) (rn rm : RegNum), s.cpsr.t = false →
    RunsTo (.cmpReg .al rn rm) s fun t =>
      condPassed t.cpsr .eq = decide (s.readReg rn = s.readReg rm) ∧
      condPassed t.cpsr .ne = decide (s.readReg rn ≠ s.readReg rm) ∧
      condPassed t.cpsr .cs = decide ((s.readReg rm).toNat ≤ (s.readReg rn).toNat) ∧
      condPassed t.cpsr .cc = decide ((s.readReg rn).toNat < (s.readReg rm).toNat) ∧
      condPassed t.cpsr .hi = decide ((s.readReg rm).toNat < (s.readReg rn).toNat) ∧
      condPassed t.cpsr .ls = decide ((s.readReg rn).toNat ≤ (s.readReg rm).toNat) ∧
      condPassed t.cpsr .ge = decide ((s.readReg rm).toInt ≤ (s.readReg rn).toInt) ∧
      condPassed t.cpsr .lt = decide ((s.readReg rn).toInt < (s.readReg rm).toInt) ∧
      condPassed t.cpsr .gt = decide ((s.readReg rm).toInt < (s.readReg rn).toInt) ∧
      condPassed t.cpsr .le = decide ((s.readReg rn).toInt ≤ (s.readReg rm).toInt)

/-- 30_encoding R85: an ARM instruction whose condition fails does nothing but advance the pc. -/
def Obligations.FailedConditionOnlyAdvances : Prop :=
  ∀ (s : State) (i : Instr) (c : Cond), s.cpsr.t = false → i.cond? = some c →
    condPassed s.cpsr c = false → RunsTo i s fun t => s.OnlyAdvances t ∧ t.pc = s.pc + 4#32

/-! ### Data processing -/

/-- 41_data_processing R127: MOV and MOVS, in both operand forms, with every destination. -/
def Obligations.MovFollowsItsRule : Prop :=
  ∀ (s : State) (c : Cond) (S : Bool) (rd rm : RegNum) (rotate : BitVec 4) (imm8 : BitVec 8),
    s.cpsr.t = false →
    AluRule (.movReg c S rd rm) s c S rd (s.readReg rm)
      (movFlags s.cpsr (s.readReg rm) s.cpsr.c) ∧
    AluRule (.movImm c S rd rotate imm8) s c S rd (immValue rotate imm8)
      (movFlags s.cpsr (immValue rotate imm8)
        (if rotate = 0#4 then s.cpsr.c else (immValue rotate imm8).getLsbD 31))

/-- 41_data_processing R128: SUB and SUBS, in both operand forms, with every destination. -/
def Obligations.SubFollowsItsRule : Prop :=
  ∀ (s : State) (c : Cond) (S : Bool) (rn rd rm : RegNum) (rotate : BitVec 4) (imm8 : BitVec 8),
    s.cpsr.t = false →
    AluRule (.subReg c S rn rd rm) s c S rd (s.readReg rn - s.readReg rm)
      (subFlags s.cpsr (s.readReg rn) (s.readReg rm)) ∧
    AluRule (.subImm c S rn rd rotate imm8) s c S rd (s.readReg rn - immValue rotate imm8)
      (subFlags s.cpsr (s.readReg rn) (immValue rotate imm8))

/-- 41_data_processing R129: ADD and ADDS, in both operand forms, with every destination. -/
def Obligations.AddFollowsItsRule : Prop :=
  ∀ (s : State) (c : Cond) (S : Bool) (rn rd rm : RegNum) (rotate : BitVec 4) (imm8 : BitVec 8),
    s.cpsr.t = false →
    AluRule (.addReg c S rn rd rm) s c S rd (s.readReg rn + s.readReg rm)
      (addFlags s.cpsr (s.readReg rn) (s.readReg rm)) ∧
    AluRule (.addImm c S rn rd rotate imm8) s c S rd (s.readReg rn + immValue rotate imm8)
      (addFlags s.cpsr (s.readReg rn) (immValue rotate imm8))

/-- 41_data_processing R130: CMP, in both operand forms, writes the flags and no register. -/
def Obligations.CmpFollowsItsRule : Prop :=
  ∀ (s : State) (c : Cond) (rn rm : RegNum) (rotate : BitVec 4) (imm8 : BitVec 8),
    s.cpsr.t = false →
    if condPassed s.cpsr c then
      RunsTo (.cmpReg c rn rm) s (fun t =>
        s.SetsCpsr t (subFlags s.cpsr (s.readReg rn) (s.readReg rm))) ∧
      RunsTo (.cmpImm c rn rotate imm8) s (fun t =>
        s.SetsCpsr t (subFlags s.cpsr (s.readReg rn) (immValue rotate imm8)))
    else
      RunsTo (.cmpReg c rn rm) s s.OnlyAdvances ∧ RunsTo (.cmpImm c rn rotate imm8) s s.OnlyAdvances

/-- 10_state R28: an operand R15 reads the address of the instruction plus 8 in ARM state and plus 4 in
THUMB state, and every other operand the register of the current mode's bank. -/
def Obligations.OperandR15ReadsAhead : Prop :=
  ∀ s : State,
    (s.cpsr.t = false → RunsTo (.movReg .al false 0#4 15#4) s fun t =>
      t.regs.get (.low 0) = s.pc + 8#32) ∧
    (s.cpsr.t = true → RunsTo (.tMovHi 0#4 15#4) s fun t => t.regs.get (.low 0) = s.pc + 4#32) ∧
    ∀ r : RegNum, r ≠ 15#4 → s.readReg r = s.regs.get (physOf s.bank r)

/-- 30_encoding R87: bit `k` of a rotated immediate is bit `k + 2 * rotate` of the 8-bit value, modulo 32. -/
def Obligations.RotatedImmediateBits : Prop :=
  ∀ (rotate : BitVec 4) (imm8 : BitVec 8) (k : Nat), k < 32 →
    (rotatedImm rotate imm8).getLsbD k = imm8.getLsbD ((k + 2 * rotate.toNat) % 32)

/-- 41_data_processing R140, R142: the THUMB high-register ADD and MOV write one register and no flag;
to R15 they branch with bit 0 of the result cleared. -/
def Obligations.ThumbHighAddAndMovFollowTheirRules : Prop :=
  ∀ (s : State) (rd rs : RegNum), s.cpsr.t = true →
    if rd = 15#4 then
      RunsTo (.tAddHi rd rs) s (fun t =>
        s.OnlyBranches t (2#32 * ((s.readReg rd + s.readReg rs) >>> 1))) ∧
      RunsTo (.tMovHi rd rs) s (fun t => s.OnlyBranches t (2#32 * (s.readReg rs >>> 1)))
    else
      RunsTo (.tAddHi rd rs) s (fun t => s.Writes t rd (s.readReg rd + s.readReg rs) s.cpsr ∧
        t.pc = s.pc + 2#32) ∧
      RunsTo (.tMovHi rd rs) s (fun t => s.Writes t rd (s.readReg rs) s.cpsr ∧ t.pc = s.pc + 2#32)

/-- 41_data_processing R141: the THUMB high-register CMP. -/
def Obligations.ThumbHighCmpFollowsItsRule : Prop :=
  ∀ (s : State) (rd rs : RegNum), s.cpsr.t = true →
    if rd = 15#4 then exec (.tCmpHi rd rs) s = .refused .thumbCmpR15
    else RunsTo (.tCmpHi rd rs) s fun t =>
      s.SetsCpsr t (subFlags s.cpsr (s.readReg rd) (s.readReg rs)) ∧ t.pc = s.pc + 2#32

/-! ### Branches -/

/-- 40_branch_and_exchange R110, R111: B and BL, with the target as a multiple of 4 bytes from the
address plus 8, and the link value of BL in R14 of the current mode. -/
def Obligations.BranchesReachTheirTargets : Prop :=
  ∀ (s : State) (c : Cond) (off : BitVec 24), s.cpsr.t = false → condPassed s.cpsr c = true →
    RunsTo (.b c off) s (fun t =>
      s.OnlyBranches t (BitVec.ofInt 32 (s.pc.toInt + 8 + 4 * off.toInt))) ∧
    RunsTo (.bl c off) s (fun t =>
      t.Lands (BitVec.ofInt 32 (s.pc.toInt + 8 + 4 * off.toInt)) ∧
      t.regs.get (physOf s.bank 14#4) = s.pc + 4#32 ∧ s.Keeps t [physOf s.bank 14#4] ∧
      t.cpsr = s.cpsr ∧ t.draws = s.draws)

/-- 40_branch_and_exchange R112, R113, 10_state R11: BX in both states, by the low bits of its operand;
of the CPSR only T changes. In ARM state the operand R15 is refused. -/
def Obligations.ExchangeFollowsOperandBits : Prop :=
  ∀ (s : State) (i : Instr) (r : RegNum),
    ((∃ c, i = .bx c r ∧ s.cpsr.t = false ∧ condPassed s.cpsr c = true) ∨
      (i = .tBx r ∧ s.cpsr.t = true)) →
    if s.cpsr.t = false ∧ r = 15#4 then exec i s = .refused .bxR15
    else if (s.readReg r).getLsbD 0 then
      RunsTo i s fun t => s.Keeps t [] ∧ t.cpsr = { s.cpsr with t := true } ∧
        t.pc.toNat = (s.readReg r).toNat - 1 ∧ t.pcWrapped = false ∧ t.draws = s.draws
    else if (s.readReg r).getLsbD 1 then exec i s = .refused .armTargetNotAligned
    else
      RunsTo i s fun t => s.Keeps t [] ∧ t.cpsr = { s.cpsr with t := false } ∧
        t.Lands (s.readReg r) ∧ t.draws = s.draws

/-- 40_branch_and_exchange R114: the THUMB conditional branch. -/
def Obligations.ThumbConditionalBranch : Prop :=
  ∀ (s : State) (c : Cond) (off : BitVec 8), s.cpsr.t = true →
    RunsTo (.tBcond c off) s fun t =>
      if condPassed s.cpsr c then s.OnlyBranches t (BitVec.ofInt 32 (s.pc.toInt + 4 + 2 * off.toInt))
      else s.OnlyAdvances t ∧ t.pc = s.pc + 2#32

/-- Inferred from 40_branch_and_exchange R115, R116, 30_encoding R88 and 41_data_processing R142: the THUMB BL pair at a halfword-aligned
address branches by the 22-bit offset that its halves make, leaves the address after the pair in R14
with bit 0 set, and `MOV PC, LR` returns to that address. -/
def Obligations.ThumbLongBranchCallsAndReturns : Prop :=
  ∀ (s : State) (hi lo : BitVec 11), s.cpsr.t = true → s.pc.toNat % 2 = 0 →
    ∃ t u v, exec (.tBlFirst hi) s = .next t ∧ s.Advances t 2#32 ∧
      t.regs.get (physOf s.bank 14#4) =
        BitVec.ofInt 32 (s.pc.toInt + 4 + 4096 * hi.toInt) ∧
      s.Keeps t [physOf s.bank 14#4] ∧ t.cpsr = s.cpsr ∧
      exec (.tBlSecond lo) t = .next u ∧
      u.Lands (BitVec.ofInt 32 (s.pc.toInt + 4 + 2 * (hi ++ lo).toInt)) ∧
      u.regs.get (physOf s.bank 14#4) = s.pc + 5#32 ∧ s.Keeps u [physOf s.bank 14#4] ∧
      u.cpsr = s.cpsr ∧ exec (.tMovHi 15#4 14#4) u = .next v ∧ v.Lands (s.pc + 4#32) ∧
      v.cpsr = s.cpsr

/-- 40_branch_and_exchange R116: the second halfword alone, with its refusal. -/
def Obligations.ThumbLongBranchSecondHalf : Prop :=
  ∀ (s : State) (lo : BitVec 11), s.cpsr.t = true →
    if (s.regs.get (physOf s.bank 14#4)).getLsbD 0 then
      exec (.tBlSecond lo) s = .refused .thumbTargetNotAligned
    else
      RunsTo (.tBlSecond lo) s fun t =>
        t.Lands (s.regs.get (physOf s.bank 14#4) + BitVec.ofNat 32 (2 * lo.toNat)) ∧
        t.regs.get (physOf s.bank 14#4) = (s.pc + 2#32) ||| 1#32 ∧
        s.Keeps t [physOf s.bank 14#4] ∧ t.cpsr = s.cpsr ∧ t.draws = s.draws

/-! ### PSR transfer -/

/-- 42_psr_transfer R150: MRS. Bits 27:8 of the value are not constrained. -/
def Obligations.MrsFollowsItsRule : Prop :=
  ∀ (s : State) (c : Cond) (sel : PsrSel) (rd : RegNum), s.cpsr.t = false →
    condPassed s.cpsr c = true →
    if rd = 15#4 then exec (.mrs c sel rd) s = .refused .mrsToR15
    else
      match sel, s.bank with
      | .spsr, none => exec (.mrs c sel rd) s = .refused .noSpsr
      | .cpsr, _ => RunsTo (.mrs c sel rd) s fun t =>
          s.Keeps t [physOf s.bank rd] ∧ t.cpsr = s.cpsr ∧ s.Advances t 4#32 ∧
          Psr.ofWord (t.regs.get (physOf s.bank rd)) = s.cpsr
      | .spsr, some e => RunsTo (.mrs c sel rd) s fun t =>
          s.Keeps t [physOf s.bank rd] ∧ t.cpsr = s.cpsr ∧ s.Advances t 4#32 ∧
          Psr.ofWord (t.regs.get (physOf s.bank rd)) = s.spsr.get e

/-- 42_psr_transfer R151 to R155: MSR to the CPSR, in both operand forms, in every mode. -/
def Obligations.MsrToCpsrFollowsItsRule : Prop :=
  ∀ (s : State) (i : Instr) (c : Cond) (mask : BitVec 4) (w : Word), s.cpsr.t = false →
    condPassed s.cpsr c = true →
    ((∃ rm, i = .msrReg c .cpsr mask rm ∧ w = s.readReg rm) ∨
      (∃ rotate imm8, i = .msrImm c .cpsr mask rotate imm8 ∧ w = immValue rotate imm8)) →
    if i = .msrReg c .cpsr mask 15#4 then exec i s = .refused .msrFromR15
    else if mask.getLsbD 0 = true ∧ s.cpsr.m ≠ 0b10000#5 then
      if w.getLsbD 5 = true then exec i s = .refused .softwareChangeOfT
      else if w.extractLsb' 0 5 ∈ [0b10000#5, 0b10001#5, 0b10010#5, 0b10011#5, 0b10111#5, 0b11011#5,
          0b11111#5] then
        RunsTo i s fun t => s.SetsCpsr t { flagsFrom s.cpsr mask w with
          i := w.getLsbD 7, f := w.getLsbD 6, m := w.extractLsb' 0 5 }
      else RunsTo i s fun t => t.stuck = true ∧ t.cpsr.m = w.extractLsb' 0 5
    else RunsTo i s fun t => s.SetsCpsr t (flagsFrom s.cpsr mask w)

/-- 42_psr_transfer R153: MSR to the SPSR, in both operand forms; any value may be written to it. -/
def Obligations.MsrToSpsrFollowsItsRule : Prop :=
  ∀ (s : State) (i : Instr) (c : Cond) (mask : BitVec 4) (w : Word), s.cpsr.t = false →
    condPassed s.cpsr c = true →
    ((∃ rm, i = .msrReg c .spsr mask rm ∧ w = s.readReg rm) ∨
      (∃ rotate imm8, i = .msrImm c .spsr mask rotate imm8 ∧ w = immValue rotate imm8)) →
    if i = .msrReg c .spsr mask 15#4 then exec i s = .refused .msrFromR15
    else match s.bank with
    | none => exec i s = .refused .noSpsr
    | some e => RunsTo i s fun t =>
        t.spsr.get e = (if mask.getLsbD 0 then
          { flagsFrom (s.spsr.get e) mask w with
            i := w.getLsbD 7, f := w.getLsbD 6, t := w.getLsbD 5, m := w.extractLsb' 0 5 }
          else flagsFrom (s.spsr.get e) mask w) ∧
        (∀ x, x ≠ e → t.spsr.get x = s.spsr.get x) ∧ (∀ p, t.regs.get p = s.regs.get p) ∧
        (∀ a, t.mem.read a = s.mem.read a) ∧ t.cpsr = s.cpsr ∧ s.Advances t 4#32 ∧
        t.stored = s.stored ∧ t.platform = s.platform ∧ t.inputs = s.inputs ∧ t.draws = s.draws

/-- 10_state R22, 70_reset_and_hazards R271: after a privileged write of the mode bits the names R0 to
R14 reach the registers of the new mode's column, and no register has changed. -/
def Obligations.ModeChangeSelectsTheBank : Prop :=
  ∀ (s : State) (m : Mode) (imm8 : BitVec 8), s.cpsr.t = false → s.cpsr.m ≠ 0b10000#5 →
    imm8.extractLsb' 0 5 = m.bits → imm8.getLsbD 5 = false →
    RunsTo (.msrImm .al .cpsr 1#4 0#4 imm8) s fun t =>
      (∀ p, t.regs.get p = s.regs.get p) ∧
      (∀ k : Fin 8, t.readReg (BitVec.ofNat 4 k) = s.regs.low[k]) ∧
      (∀ k : Fin 5, t.readReg (BitVec.ofNat 4 (8 + k)) =
        if m = .fiq then s.regs.highFiq[k] else s.regs.high[k]) ∧
      t.readReg 13#4 = (match m with
        | .user => s.regs.sp.usr
        | .system => s.regs.sp.usr
        | .fiq => s.regs.sp.fiq
        | .irq => s.regs.sp.irq
        | .supervisor => s.regs.sp.svc
        | .abort => s.regs.sp.abt
        | .undefined => s.regs.sp.und) ∧
      t.readReg 14#4 = (match m with
        | .user => s.regs.lr.usr
        | .system => s.regs.lr.usr
        | .fiq => s.regs.lr.fiq
        | .irq => s.regs.lr.irq
        | .supervisor => s.regs.lr.svc
        | .abort => s.regs.lr.abt
        | .undefined => s.regs.lr.und)

/-! ### Single transfer -/

/-- 43_data_transfer R161: LDR in its three forms, R15 as destination included. -/
def Obligations.LdrFollowsItsRule : Prop :=
  ∀ (s : State) (ix : Index) (c : Cond) (up : Bool) (rn rd : RegNum) (imm : BitVec 12) (v : Word),
    s.cpsr.t = false → condPassed s.cpsr c = true → ix.Allowed rn rd →
    s.Accessible .read (s.transferAddr ix up rn imm) 4 →
    s.Holds (s.transferAddr ix up rn imm) 4 v →
    if rd ≠ 15#4 then
      RunsTo (ldrOf ix c up rn rd imm) s fun t =>
        s.Loads t ix.writesBack rn rd (s.offAddr up rn imm) v
    else if v.toNat % 4 = 0 then
      RunsTo (ldrOf ix c up rn rd imm) s fun t => t.Lands v ∧ t.cpsr = s.cpsr ∧
        s.Keeps t (wbRegs s ix.writesBack rn) ∧
        (ix.writesBack = true → t.regs.get (physOf s.bank rn) = s.offAddr up rn imm)
    else exec (ldrOf ix c up rn rd imm) s = .refused .armTargetNotAligned

/-- 43_data_transfer R163: LDRB in its three forms: the byte at the address, zero-extended. -/
def Obligations.LdrbFollowsItsRule : Prop :=
  ∀ (s : State) (ix : Index) (c : Cond) (up : Bool) (rn rd : RegNum) (imm : BitVec 12) (b : Byte),
    s.cpsr.t = false → condPassed s.cpsr c = true → ix.Allowed rn rd →
    if rd = 15#4 then exec (ldrbOf ix c up rn rd imm) s = .refused .ldrbToR15
    else s.Accessible .read (s.transferAddr ix up rn imm) 1 →
      s.mem.read (s.transferAddr ix up rn imm).toNat = some b →
      RunsTo (ldrbOf ix c up rn rd imm) s fun t =>
        s.Loads t ix.writesBack rn rd (s.offAddr up rn imm) (b.setWidth 32)

/-- 43_data_transfer R162, R164: STR and STRB in their three forms. -/
def Obligations.StoresFollowTheirRules : Prop :=
  ∀ (s : State) (ix : Index) (c : Cond) (up : Bool) (rn rd : RegNum) (imm : BitVec 12),
    s.cpsr.t = false → condPassed s.cpsr c = true → ix.Allowed rn rd →
    StoreRule (strOf ix c up rn rd imm) s ix up rn rd imm 4 .strOfR15 ∧
    StoreRule (strbOf ix c up rn rd imm) s ix up rn rd imm 1 .strbOfR15

/-- 43_data_transfer R160: the addresses, and the two refusals of a write-back, for every single
transfer. -/
def Obligations.SingleTransferAddressing : Prop :=
  ∀ (s : State) (ix : Index) (c : Cond) (up : Bool) (rn rd : RegNum) (imm : BitVec 12),
    condPassed s.cpsr c = true →
    (s.cpsr.t = false → rn = 15#4 → s.readReg rn = s.pc + 8#32) ∧
    s.offAddr up rn imm = (if up then s.readReg rn + BitVec.ofNat 32 imm.toNat
      else s.readReg rn - BitVec.ofNat 32 imm.toNat) ∧
    s.transferAddr ix up rn imm = (if ix = .post then s.readReg rn else s.offAddr up rn imm) ∧
    (ix.writesBack = true → rn = 15#4 ∨ rn = rd →
      ∀ i ∈ [ldrOf ix c up rn rd imm, ldrbOf ix c up rn rd imm, strOf ix c up rn rd imm,
        strbOf ix c up rn rd imm],
        exec i s = .refused (if rn = 15#4 then .writebackToR15 else .writebackBaseIsTransfer))

/-- 20_memory R57, R60, R62, D7: a word load at a misaligned address is refused; an aligned access that
does not abort and of which one byte lies where P_MEMMAP places neither memory nor a device is refused: a
single transfer's, a swap's, the first such one of a block transfer, and a fetch. -/
def Obligations.AccessWhereNothingIsPlacedIsRefused : Prop :=
  (∀ (s : State) (ix : Index) (c : Cond) (up : Bool) (rn rd : RegNum) (imm : BitVec 12),
    condPassed s.cpsr c = true → ix.Allowed rn rd →
    ((s.transferAddr ix up rn imm).toNat % 4 ≠ 0 →
      exec (ldrOf ix c up rn rd imm) s = .refused .misaligned) ∧
    ∀ (i : Instr) (kind : AccessKind) (n : Nat),
      (i, kind, n) ∈ [(ldrOf ix c up rn rd imm, .read, 4), (ldrbOf ix c up rn rd imm, .read, 1),
        (strOf ix c up rn rd imm, .write, 4), (strbOf ix c up rn rd imm, .write, 1)] →
      (rd ≠ 15#4 ∨ i = ldrOf ix c up rn rd imm) → s.Misses kind (s.transferAddr ix up rn imm) n →
      exec i s = .refused .unmapped) ∧
  (∀ (s : State) (c : Cond) (rn rd rm : RegNum) (i : Instr) (n : Nat), condPassed s.cpsr c = true →
    (i, n) ∈ [(.swp c rn rd rm, 4), (.swpb c rn rd rm, 1)] →
    rn ≠ 15#4 → rd ≠ 15#4 → rm ≠ 15#4 → rn ≠ rd → rn ≠ rm → s.Misses .read (s.readReg rn) n →
    exec i s = .refused .unmapped) ∧
  (∀ (s : State) (c : Cond) (mode : BlockMode) (wb : Bool) (rn r0 : RegNum) (list : BitVec 16),
    condPassed s.cpsr c = true → BlockAllowed s rn list → list.getLsbD r0.toNat = true →
    ((wb = true → list.getLsbD rn.toNat = false) →
      (∀ r : RegNum, list.getLsbD r.toNat = true → r.toNat < r0.toNat →
        s.Readable .read (slotAddr (blockStart mode (s.readReg rn) list) list r) 4) →
      s.Misses .read (slotAddr (blockStart mode (s.readReg rn) list) list r0) 4 →
      exec (.ldm c mode wb rn list) s = .refused .unmapped) ∧
    (list.getLsbD 15 = false →
      (wb = true → list.getLsbD rn.toNat = true → slotOf list rn.toNat = 0) →
      (∀ r : RegNum, list.getLsbD r.toNat = true → r.toNat < r0.toNat →
        s.Reaches .write (slotAddr (blockStart mode (s.readReg rn) list) list r) 4) →
      s.Misses .write (slotAddr (blockStart mode (s.readReg rn) list) list r0) 4 →
      exec (.stm c mode wb rn list) s = .refused .unmapped)) ∧
  ∀ s : State, s.Undisturbed → s.pcWrapped = false → s.Misses .fetch s.pc s.fetchLen →
    step s = .refused .unmapped

/-- 20_memory R60 to R62, R66, D7: single transfers to and from a device complete, whatever value the
device shows. That its value is a free one and that a byte written to it reaches no memory is the model's
choice (log 4). Where an access meets memory too, that memory is written as ever. -/
def Obligations.SingleDeviceAccessesComplete : Prop :=
  (∀ (s : State) (ix : Index) (c : Cond) (up : Bool) (rn rd : RegNum) (imm : BitVec 12),
    s.cpsr.t = false → condPassed s.cpsr c = true → ix.Allowed rn rd →
    (∀ (i : Instr) (n : Nat), (i, n) ∈ [(ldrOf ix c up rn rd imm, 4), (ldrbOf ix c up rn rd imm, 1)] →
      rd ≠ 15#4 → s.Readable .read (s.transferAddr ix up rn imm) n →
      RunsTo i s fun t => s.MovesOn t (physOf s.bank rd :: wbRegs s ix.writesBack rn) ∧
        (ix.writesBack = true → t.regs.get (physOf s.bank rn) = s.offAddr up rn imm) ∧
        (∀ a, s.KeepsByte t a)) ∧
    (s.Readable .read (s.transferAddr ix up rn imm) 4 →
      exec (ldrOf ix c up rn 15#4 imm) s = .refused .armTargetNotAligned ∨
      RunsTo (ldrOf ix c up rn 15#4 imm) s fun t => (∃ v : Word, v.toNat % 4 = 0 ∧ t.Lands v) ∧
        t.cpsr = s.cpsr ∧ s.Keeps t (wbRegs s ix.writesBack rn) ∧
        (ix.writesBack = true → t.regs.get (physOf s.bank rn) = s.offAddr up rn imm)) ∧
    (∀ (i : Instr) (n : Nat), (i, n) ∈ [(strOf ix c up rn rd imm, 4), (strbOf ix c up rn rd imm, 1)] →
      rd ≠ 15#4 → s.Reaches .write (s.transferAddr ix up rn imm) n →
      RunsTo i s fun t => s.MovesOn t (wbRegs s ix.writesBack rn) ∧
        (ix.writesBack = true → t.regs.get (physOf s.bank rn) = s.offAddr up rn imm) ∧
        s.StoresPlaced t (s.transferAddr ix up rn imm) n (s.readReg rd))) ∧
  ∀ (s : State) (c : Cond) (rn rd rm : RegNum) (i : Instr) (n : Nat), s.cpsr.t = false →
    condPassed s.cpsr c = true → (i, n) ∈ [(.swp c rn rd rm, 4), (.swpb c rn rd rm, 1)] →
    rn ≠ 15#4 → rd ≠ 15#4 → rm ≠ 15#4 → rn ≠ rd → rn ≠ rm → s.Readable .read (s.readReg rn) n →
    s.Reaches .write (s.readReg rn) n →
    RunsTo i s fun t => s.MovesOn t [physOf s.bank rd] ∧
      s.StoresPlaced t (s.readReg rn) n (s.readReg rm)

/-- 20_memory R60 to R62, R66, D7: block transfers to and from devices complete, and a step whose
instruction lies in one runs what the device shows or refuses it, whatever that is (the model's choice of
log 4). -/
def Obligations.BlockDeviceAccessesComplete : Prop :=
  (∀ (s : State) (c : Cond) (mode : BlockMode) (wb : Bool) (rn : RegNum) (list : BitVec 16),
    s.cpsr.t = false → condPassed s.cpsr c = true → BlockAllowed s rn list →
    ((wb = true → list.getLsbD rn.toNat = false) →
      (∀ r : RegNum, list.getLsbD r.toNat = true →
        s.Readable .read (slotAddr (blockStart mode (s.readReg rn) list) list r) 4) →
      if list.getLsbD 15 then
        exec (.ldm c mode wb rn list) s = .refused .armTargetNotAligned ∨
        RunsTo (.ldm c mode wb rn list) s fun t =>
          s.LoadsListed t wb rn list (blockEnd mode (s.readReg rn) list) ∧
          ∃ v : Word, v.toNat % 4 = 0 ∧ t.Lands v
      else RunsTo (.ldm c mode wb rn list) s fun t =>
        s.LoadsListed t wb rn list (blockEnd mode (s.readReg rn) list) ∧ s.Advances t 4#32) ∧
    (list.getLsbD 15 = false →
      (wb = true → list.getLsbD rn.toNat = true → slotOf list rn.toNat = 0) →
      (∀ r : RegNum, list.getLsbD r.toNat = true →
        s.Reaches .write (slotAddr (blockStart mode (s.readReg rn) list) list r) 4) →
      RunsTo (.stm c mode wb rn list) s fun t => s.MovesOn t (wbRegs s wb rn) ∧
        (wb = true → t.regs.get (physOf s.bank rn) = blockEnd mode (s.readReg rn) list) ∧
        (∀ r : RegNum, list.getLsbD r.toNat = true → ∀ k < 4,
          byteAddr (slotAddr (blockStart mode (s.readReg rn) list) list r) k ∈ t.stored ∧
          (s.platform.kindAt (byteAddr (slotAddr (blockStart mode (s.readReg rn) list) list r) k) =
              some .memory →
            t.mem.read (byteAddr (slotAddr (blockStart mode (s.readReg rn) list) list r) k) =
              some (byteOf s.platform.bigEndian 4 (s.readReg r) k))) ∧
        (∀ a, s.platform.kindAt a = some .device → t.mem.read a = s.mem.read a) ∧
        ∀ a, (∀ r : RegNum, list.getLsbD r.toNat = true →
          Outside (slotAddr (blockStart mode (s.readReg rn) list) list r) 4 a) → s.KeepsByte t a)) ∧
  ∀ s : State, s.Undisturbed → s.pcWrapped = false → s.Readable .fetch s.pc s.fetchLen →
    (∀ k < s.fetchLen, byteAddr s.pc k ∉ s.stored) →
    ∃ bs : List Byte, bs.length = s.fetchLen ∧
      (∀ k < s.fetchLen, s.platform.kindAt (byteAddr s.pc k) = some .memory →
        s.mem.read (byteAddr s.pc k) = bs[k]?) ∧
      match decodeBytes s.platform.bigEndian s.cpsr.t bs with
      | .ok i => ∃ n, step s = exec i { s.nextInputs with draws := n }
      | .error e => step s = .refused (rejectRefusal e)

/-- The model's choice of log 2: a load of bytes of which nothing has written one stops with the fault
that names such a byte. -/
def Obligations.UnwrittenByteFaults : Prop :=
  ∀ (s : State) (ix : Index) (c : Cond) (up : Bool) (rn rd : RegNum) (imm : BitVec 12) (k : Nat),
    condPassed s.cpsr c = true → ix.Allowed rn rd → k < 4 →
    s.Accessible .read (s.transferAddr ix up rn imm) 4 →
    s.mem.read (byteAddr (s.transferAddr ix up rn imm) k) = none →
    (∀ j < k, s.mem.read (byteAddr (s.transferAddr ix up rn imm) j) ≠ none) →
    exec (ldrOf ix c up rn rd imm) s =
      .fault (.unwritten (byteAddr (s.transferAddr ix up rn imm) k))

/-- 43_data_transfer R172: a data abort in LDR (of R15 too), STR, LDRB, STRB: the base register is updated under
`baseUpdated` only, the destination and memory are not written, the exception is taken. -/
def Obligations.SingleTransferAbort : Prop :=
  ∀ (s : State) (ix : Index) (c : Cond) (up : Bool) (rn rd : RegNum) (imm : BitVec 12) (i : Instr)
    (kind : AccessKind) (n : Nat),
    s.cpsr.t = false → condPassed s.cpsr c = true → ix.Allowed rn rd →
    (rd ≠ 15#4 ∨ i = ldrOf ix c up rn rd imm) →
    (i, kind, n) ∈ [(ldrOf ix c up rn rd imm, .read, 4), (ldrbOf ix c up rn rd imm, .read, 1),
      (strOf ix c up rn rd imm, .write, 4), (strbOf ix c up rn rd imm, .write, 1)] →
    s.Aborts kind (s.transferAddr ix up rn imm) n →
    RunsTo i s fun t => ∃ u : State,
      s.BaseOnly u (ix.writesBack && s.platform.abortModel == .baseUpdated) rn (s.offAddr up rn imm) ∧
      u.TakesDataAbort t

/-- 20_memory R53 to R55: a byte load inside a word that has just been stored gives byte `k` counted
from the least significant end in little-endian format and from the most significant end in big-endian
format. -/
def Obligations.ByteOfAStoredWord : Prop :=
  ∀ (s : State) (rn rv rd : RegNum) (imm k : BitVec 12), s.cpsr.t = false →
    rn ≠ 15#4 → rv ≠ 15#4 → rd ≠ 15#4 → k.toNat < 4 → imm.toNat + k.toNat < 4096 →
    s.Accessible .write (s.offAddr true rn imm) 4 →
    s.Accessible .read (s.offAddr true rn (imm + k)) 1 →
    ∃ t u, exec (.strPre .al true rn rv imm) s = .next t ∧
      exec (.ldrbPre .al true rn rd (imm + k)) t = .next u ∧
      u.regs.get (physOf s.bank rd) = if s.platform.bigEndian
        then (s.readReg rv >>> (24 - 8 * k.toNat)) &&& 0xFF#32
        else (s.readReg rv >>> (8 * k.toNat)) &&& 0xFF#32

/-! ### Swap -/

/-- 43_data_transfer R170, R171: SWP and SWPB exchange `n` bytes of memory with a register; the old value
is read before the new one is stored, so source and destination may be one register. -/
def Obligations.SwapFollowsItsRule : Prop :=
  ∀ (s : State) (c : Cond) (rn rd rm : RegNum) (i : Instr) (n : Nat) (old : Word),
    s.cpsr.t = false → condPassed s.cpsr c = true →
    (i, n) ∈ [(.swp c rn rd rm, 4), (.swpb c rn rd rm, 1)] →
    if rn = 15#4 ∨ rd = 15#4 ∨ rm = 15#4 then exec i s = .refused .swpWithR15
    else if rn = rd ∨ rn = rm then exec i s = .refused .swpBaseIsOperand
    else if (s.readReg rn).toNat % n ≠ 0 then exec i s = .refused .misaligned
    else s.Accessible .read (s.readReg rn) n → s.Accessible .write (s.readReg rn) n →
      s.Holds (s.readReg rn) n old → old.toNat < 2 ^ (8 * n) →
      RunsTo i s fun t =>
        t.regs.get (physOf s.bank rd) = old ∧
        s.Stores t (s.readReg rn) n (s.readReg rm) [physOf s.bank rd] ∧ s.Advances t 4#32

/-- 43_data_transfer R173: an aborted SWP or SWPB changes no register and no memory but those of the
exception entry, whether its read or its write aborts. -/
def Obligations.AbortedSwapChangesNothing : Prop :=
  ∀ (s : State) (c : Cond) (rn rd rm : RegNum) (i : Instr) (n : Nat) (old : Word),
    s.cpsr.t = false → condPassed s.cpsr c = true →
    (i, n) ∈ [(.swp c rn rd rm, 4), (.swpb c rn rd rm, 1)] →
    rn ≠ 15#4 → rd ≠ 15#4 → rm ≠ 15#4 → rn ≠ rd → rn ≠ rm →
    s.Aborts .read (s.readReg rn) n ∨
      (s.Accessible .read (s.readReg rn) n ∧ s.Holds (s.readReg rn) n old ∧
        s.Aborts .write (s.readReg rn) n) →
    RunsTo i s s.TakesDataAbort

/-! ### Block transfer -/

/-- 43_data_transfer R166 to R168: the refusals of LDM and STM that depend on the list and the base; then
the start and write-back addresses of the four addressing modes, with `n` the number of registers in the
list, and the slot of each register: as many words above the start as there are listed registers below it. -/
def Obligations.BlockTransferAddressing : Prop :=
  ∀ (s : State) (c : Cond) (mode : BlockMode) (wb : Bool) (rn : RegNum) (list : BitVec 16),
    condPassed s.cpsr c = true →
    (list = 0#16 → exec (.ldm c mode wb rn list) s = .refused .emptyRegisterList ∧
      exec (.stm c mode wb rn list) s = .refused .emptyRegisterList) ∧
    (list ≠ 0#16 → rn = 15#4 → exec (.ldm c mode wb rn list) s = .refused .r15AsBase ∧
      exec (.stm c mode wb rn list) s = .refused .r15AsBase) ∧
    (list ≠ 0#16 → rn ≠ 15#4 → (s.readReg rn).toNat % 4 ≠ 0 →
      exec (.ldm c mode wb rn list) s = .refused .misaligned ∧
      exec (.stm c mode wb rn list) s = .refused .misaligned) ∧
    (BlockAllowed s rn list → wb = true → list.getLsbD rn.toNat = true →
      exec (.ldm c mode wb rn list) s = .refused .ldmWritebackBaseInList) ∧
    (BlockAllowed s rn list → list.getLsbD 15 = true →
      exec (.stm c mode wb rn list) s = .refused .stmOfR15) ∧
    (BlockAllowed s rn list → list.getLsbD 15 = false → wb = true → list.getLsbD rn.toNat = true →
      slotOf list rn.toNat ≠ 0 → exec (.stm c mode wb rn list) s = .refused .stmWritebackBaseNotFirst) ∧
    (∀ base : Word,
      blockStart .ia base list = base ∧ blockStart .ib base list = base + 4#32 ∧
      blockStart .da base list = base - BitVec.ofNat 32 (4 * slotOf list 16) + 4#32 ∧
      blockStart .db base list = base - BitVec.ofNat 32 (4 * slotOf list 16) ∧
      blockEnd .ia base list = base + BitVec.ofNat 32 (4 * slotOf list 16) ∧
      blockEnd .ib base list = base + BitVec.ofNat 32 (4 * slotOf list 16) ∧
      blockEnd .da base list = base - BitVec.ofNat 32 (4 * slotOf list 16) ∧
      blockEnd .db base list = base - BitVec.ofNat 32 (4 * slotOf list 16) ∧
      blockAddrs mode base list = (regList list).map (slotAddr (blockStart mode base list) list))

/-- 43_data_transfer R167: LDM loads each listed register from its slot, writes the base back if W is
set, and with R15 in the list branches. -/
def Obligations.LdmFollowsItsRule : Prop :=
  ∀ (s : State) (c : Cond) (mode : BlockMode) (wb : Bool) (rn : RegNum) (list : BitVec 16)
    (val : RegNum → Word),
    s.cpsr.t = false → condPassed s.cpsr c = true → BlockAllowed s rn list →
    (wb = true → list.getLsbD rn.toNat = false) →
    (∀ r : RegNum, list.getLsbD r.toNat = true →
      s.Accessible .read (slotAddr (blockStart mode (s.readReg rn) list) list r) 4 ∧
      s.Holds (slotAddr (blockStart mode (s.readReg rn) list) list r) 4 (val r)) →
    if list.getLsbD 15 = true ∧ (val 15#4).toNat % 4 ≠ 0 then
      exec (.ldm c mode wb rn list) s = .refused .armTargetNotAligned
    else RunsTo (.ldm c mode wb rn list) s fun t =>
      (∀ r : RegNum, list.getLsbD r.toNat = true → r ≠ 15#4 →
        t.regs.get (physOf s.bank r) = val r) ∧
      (wb = true → t.regs.get (physOf s.bank rn) = blockEnd mode (s.readReg rn) list) ∧
      (∀ p, (∀ r : RegNum, list.getLsbD r.toNat = true → r ≠ 15#4 → p ≠ physOf s.bank r) →
        p ∉ wbRegs s wb rn → t.regs.get p = s.regs.get p) ∧
      (if list.getLsbD 15 then t.Lands (val 15#4) else s.Advances t 4#32) ∧ t.cpsr = s.cpsr ∧
      t.spsr = s.spsr ∧ (∀ a, t.mem.read a = s.mem.read a) ∧ t.stored = s.stored ∧
      t.platform = s.platform ∧ t.inputs = s.inputs ∧ t.draws = s.draws

/-- 43_data_transfer R168: STM stores each listed register, the original base included, to its slot and
nothing elsewhere, marks the bytes stored to and no others (20_memory R73), and writes the base back if W
is set. -/
def Obligations.StmFollowsItsRule : Prop :=
  ∀ (s : State) (c : Cond) (mode : BlockMode) (wb : Bool) (rn : RegNum) (list : BitVec 16),
    s.cpsr.t = false → condPassed s.cpsr c = true → BlockAllowed s rn list →
    list.getLsbD 15 = false →
    (wb = true → list.getLsbD rn.toNat = true → slotOf list rn.toNat = 0) →
    (∀ r : RegNum, list.getLsbD r.toNat = true →
      s.Accessible .write (slotAddr (blockStart mode (s.readReg rn) list) list r) 4) →
    RunsTo (.stm c mode wb rn list) s fun t =>
      (∀ r : RegNum, list.getLsbD r.toNat = true →
        t.HasStored (slotAddr (blockStart mode (s.readReg rn) list) list r) (s.readReg r)) ∧
      (∀ a, (∀ r : RegNum, list.getLsbD r.toNat = true →
          Outside (slotAddr (blockStart mode (s.readReg rn) list) list r) 4 a) → s.KeepsByte t a) ∧
      (wb = true → t.regs.get (physOf s.bank rn) = blockEnd mode (s.readReg rn) list) ∧
      s.MovesOn t (wbRegs s wb rn) ∧ t.draws = s.draws

/-- 43_data_transfer R174: an LDM that first aborts at the register `r0` keeps what it loaded before,
never overwrites its base with loaded data, writes the base back if W is set, and takes the exception.
The later addresses are mapped, so that the reads still issued stop nothing (log 13). -/
def Obligations.AbortedLdmKeepsLaterRegisters : Prop :=
  ∀ (s : State) (c : Cond) (mode : BlockMode) (wb : Bool) (rn r0 : RegNum) (list : BitVec 16)
    (val : RegNum → Word),
    s.cpsr.t = false → condPassed s.cpsr c = true → BlockAllowed s rn list →
    (wb = true → list.getLsbD rn.toNat = false) → list.getLsbD r0.toNat = true →
    s.Aborts .read (slotAddr (blockStart mode (s.readReg rn) list) list r0) 4 →
    (∀ r : RegNum, list.getLsbD r.toNat = true → r.toNat < r0.toNat →
      s.Accessible .read (slotAddr (blockStart mode (s.readReg rn) list) list r) 4 ∧
      s.Holds (slotAddr (blockStart mode (s.readReg rn) list) list r) 4 (val r)) →
    (∀ r : RegNum, list.getLsbD r.toNat = true → r0.toNat < r.toNat →
      s.Accessible .read (slotAddr (blockStart mode (s.readReg rn) list) list r) 4 ∨
      s.Aborts .read (slotAddr (blockStart mode (s.readReg rn) list) list r) 4) →
    RunsTo (.ldm c mode wb rn list) s fun t => ∃ u : State,
      (∀ r : RegNum, list.getLsbD r.toNat = true → r.toNat < r0.toNat → r ≠ rn →
        u.regs.get (physOf s.bank r) = val r) ∧
      (wb = true → u.regs.get (physOf s.bank rn) = blockEnd mode (s.readReg rn) list) ∧
      (∀ p, (∀ r : RegNum, list.getLsbD r.toNat = true → r.toNat < r0.toNat → r ≠ rn →
          p ≠ physOf s.bank r) →
        p ∉ wbRegs s wb rn → u.regs.get p = s.regs.get p) ∧
      u.pc = s.pc ∧ u.cpsr = s.cpsr ∧ u.spsr = s.spsr ∧ (∀ a, u.mem.read a = s.mem.read a) ∧
      u.stored = s.stored ∧ u.platform = s.platform ∧ u.inputs = s.inputs ∧ u.TakesDataAbort t

/-- 43_data_transfer R174, D26: an STM that first aborts at the register `r0` has stored the earlier
registers, not the one at `r0`, and each later one or nothing in its place; it writes the base back if W
is set and takes the exception. What is stored is marked as stored to (20_memory R73); that a later store
kept from memory marks nothing is the model's choice (log 26). -/
def Obligations.AbortedStmStoresEarlierRegisters : Prop :=
  ∀ (s : State) (c : Cond) (mode : BlockMode) (wb : Bool) (rn r0 : RegNum) (list : BitVec 16),
    s.cpsr.t = false → condPassed s.cpsr c = true → BlockAllowed s rn list →
    list.getLsbD 15 = false →
    (wb = true → list.getLsbD rn.toNat = true → slotOf list rn.toNat = 0) →
    list.getLsbD r0.toNat = true →
    s.Aborts .write (slotAddr (blockStart mode (s.readReg rn) list) list r0) 4 →
    (∀ r : RegNum, list.getLsbD r.toNat = true → r.toNat < r0.toNat →
      s.Accessible .write (slotAddr (blockStart mode (s.readReg rn) list) list r) 4) →
    (∀ r : RegNum, list.getLsbD r.toNat = true → r0.toNat < r.toNat →
      s.Accessible .write (slotAddr (blockStart mode (s.readReg rn) list) list r) 4 ∨
      s.Aborts .write (slotAddr (blockStart mode (s.readReg rn) list) list r) 4) →
    RunsTo (.stm c mode wb rn list) s fun t => ∃ u : State,
      (∀ r : RegNum, list.getLsbD r.toNat = true → r.toNat < r0.toNat →
        u.HasStored (slotAddr (blockStart mode (s.readReg rn) list) list r) (s.readReg r)) ∧
      (∀ r : RegNum, list.getLsbD r.toNat = true → r0.toNat < r.toNat →
        u.HasStored (slotAddr (blockStart mode (s.readReg rn) list) list r) (s.readReg r) ∨
        ∀ k < 4,
          s.KeepsByte u (byteAddr (slotAddr (blockStart mode (s.readReg rn) list) list r) k)) ∧
      (∀ a, (∀ r : RegNum, list.getLsbD r.toNat = true → r ≠ r0 →
          Outside (slotAddr (blockStart mode (s.readReg rn) list) list r) 4 a) → s.KeepsByte u a) ∧
      (wb = true → u.regs.get (physOf s.bank rn) = blockEnd mode (s.readReg rn) list) ∧
      (∀ p, p ∉ wbRegs s wb rn → u.regs.get p = s.regs.get p) ∧
      u.pc = s.pc ∧ u.cpsr = s.cpsr ∧ u.spsr = s.spsr ∧ u.platform = s.platform ∧
      u.inputs = s.inputs ∧ u.TakesDataAbort t

/-- 43_data_transfer R166 to R168: registers that STMDB with write-back has pushed come back by LDMIA
with write-back from the same base, in either byte order. -/
def Obligations.PushThenPopRestores : Prop :=
  ∀ (s : State) (rn : RegNum) (list : BitVec 16), s.cpsr.t = false → BlockAllowed s rn list →
    list.getLsbD 15 = false → list.getLsbD rn.toNat = false →
    (∀ r : RegNum, list.getLsbD r.toNat = true →
      s.Accessible .write (slotAddr (blockStart .db (s.readReg rn) list) list r) 4 ∧
      s.Accessible .read (slotAddr (blockStart .db (s.readReg rn) list) list r) 4) →
    ∃ t u, exec (.stm .al .db true rn list) s = .next t ∧
      exec (.ldm .al .ia true rn list) t = .next u ∧ (∀ p, u.regs.get p = s.regs.get p) ∧
      u.cpsr = s.cpsr ∧ s.Advances t 4#32 ∧ t.Advances u 4#32 ∧ u.pc = s.pc + 8#32

/-! ### Software interrupt and undefined instructions -/

/-- 44_swi_and_undefined R185, R186, 60_exceptions R227: SWI in both states, whatever its comment field. -/
def Obligations.SwiEntersSupervisorMode : Prop :=
  ∀ (s : State) (c : Cond) (imm : BitVec 24) (v : BitVec 8),
    (s.cpsr.t = false → condPassed s.cpsr c = true → RunsTo (.swi c imm) s fun t =>
      s.Takes t .svc 0b10011#5 0x00000008#32 false (s.pc + 4#32)) ∧
    (s.cpsr.t = true → RunsTo (.tSwi v) s fun t =>
      s.Takes t .svc 0b10011#5 0x00000008#32 false (s.pc + 2#32))

/-- 44_swi_and_undefined R187, R188, 60_exceptions R228: the undefined patterns in both states. -/
def Obligations.UndefinedPatternTrap : Prop :=
  ∀ (s : State) (c : Cond) (hi : BitVec 20) (lo : BitVec 4) (v : BitVec 8),
    (s.cpsr.t = false → condPassed s.cpsr c = true → RunsTo (.undef c hi lo) s fun t =>
      s.Takes t .und 0b11011#5 0x00000004#32 false (s.pc + 4#32)) ∧
    (s.cpsr.t = true → RunsTo (.tUndef v) s fun t =>
      s.Takes t .und 0b11011#5 0x00000004#32 false (s.pc + 2#32))

/-! ### Rules of the whole machine -/

/-- 60_exceptions R251, 10_state R38: a step in User mode either leaves the mode, I and F, every SPSR
and every register of another mode's bank alone, or takes an exception, whose SPSR says User mode. -/
def Obligations.UserModeLeavesOnlyByException : Prop :=
  ∀ s t : State, s.cpsr.m = 0b10000#5 → s.boundary.reset = false → step s = .next t →
    (t.cpsr.m = s.cpsr.m ∧ t.cpsr.i = s.cpsr.i ∧ t.cpsr.f = s.cpsr.f ∧ t.spsr = s.spsr ∧
      ∀ p, isBankedAway p → t.regs.get p = s.regs.get p) ∨
    ∃ e : ExceptionKind, e ≠ .reset ∧ t.pc = e.vector ∧ t.cpsr.m = e.entryMode.mode.bits ∧
      t.cpsr.t = false ∧ t.cpsr.i = true ∧ (t.spsr.get e.entryMode).m = 0b10000#5 ∧
      (∀ x, x ≠ e.entryMode → t.spsr.get x = s.spsr.get x) ∧
      ∀ p, isBankedAway p → p ≠ .lr (some e.entryMode) → t.regs.get p = s.regs.get p

/-- 10_state R14: an instruction changes the operating state only as BX, as an exception entry, or as an
exception return. -/
def Obligations.OperatingStateChangesOnlyByNamedWays : Prop :=
  ∀ (i : Instr) (s t : State), exec i s = .next t → t.cpsr.t ≠ s.cpsr.t →
    isExchange i ∨ isReturn i ∨
      ∃ e : ExceptionKind, t.pc = e.vector ∧ t.cpsr.m = e.entryMode.mode.bits ∧ t.cpsr.t = false

/-- 10_state R40: N, Z, C and V change only by the instructions that the rule lists, and no exception
entry changes them. -/
def Obligations.FlagsChangeOnlyByListedInstructions : Prop :=
  (∀ (i : Instr) (s t : State), exec i s = .next t → ¬ writesFlags i →
    t.cpsr.n = s.cpsr.n ∧ t.cpsr.z = s.cpsr.z ∧ t.cpsr.c = s.cpsr.c ∧ t.cpsr.v = s.cpsr.v) ∧
  ∀ (e : ExceptionKind) (s : State),
    (s.raise e).cpsr.n = s.cpsr.n ∧ (s.raise e).cpsr.z = s.cpsr.z ∧
    (s.raise e).cpsr.c = s.cpsr.c ∧ (s.raise e).cpsr.v = s.cpsr.v

/-- 20_memory R64, R70, 60_exceptions R230: memory reads the same after every instruction but the stores
and swaps; the platform and the inputs to come change by none. -/
def Obligations.MemoryChangesOnlyByStores : Prop :=
  ∀ (i : Instr) (s t : State), exec i s = .next t →
    (¬ writesMemory i → (∀ a, t.mem.read a = s.mem.read a) ∧ t.stored = s.stored) ∧
    t.platform = s.platform ∧ t.inputs = s.inputs

/-- 20_memory R73, D11: the step refuses to execute an instruction of which one byte has been stored to,
in either state and by whatever store; so a STR over the next instruction ends the run there. -/
def Obligations.FetchAfterStoreIsRefused : Prop :=
  (∀ (s : State) (k : Nat), s.Undisturbed → s.pcWrapped = false → s.Reaches .fetch s.pc s.fetchLen →
    k < s.fetchLen → byteAddr s.pc k ∈ s.stored → step s = .refused .fetchAfterStore) ∧
  ∀ (s t : State) (ix : Index) (c : Cond) (up : Bool) (rn rd : RegNum) (imm : BitVec 12),
    s.cpsr.t = false → condPassed s.cpsr c = true →
    s.Accessible .write (s.transferAddr ix up rn imm) 4 → s.transferAddr ix up rn imm = s.pc + 4#32 →
    exec (strOf ix c up rn rd imm) s = .next t → t.Undisturbed → t.pcWrapped = false →
    t.Accessible .fetch t.pc 4 → step t = .refused .fetchAfterStore

/-- 10_state R27, D20: a fetch that follows a sequential passage of the top of the space is refused. The
mark that says so comes from no branch, exception entry or Reset, and from an instruction only if it
advanced past the top; CMP at 0xFFFFFFFC and THUMB MOV at 0xFFFFFFFE do, and go on at 0. -/
def Obligations.FetchAfterWrapIsRefused : Prop :=
  (∀ s : State, s.Undisturbed → s.pcWrapped = true → step s = .refused .fetchAfterWrap) ∧
  (∀ (i : Instr) (s t : State), exec i s = .next t → t.stuck = false → t.pcWrapped = true →
    t.pc = s.pc + s.instrLen ∧ 2 ^ 32 ≤ s.pc.toNat + s.instrLen.toNat) ∧
  (∀ (s : State) (e : ExceptionKind), (s.raise e).pcWrapped = false) ∧
  (∀ s : State, s.resetException.pcWrapped = false) ∧
  (∀ (s : State) (rn rm : RegNum), s.cpsr.t = false → s.pc = 0xFFFFFFFC#32 →
    RunsTo (.cmpReg .al rn rm) s fun t => t.pc = 0#32 ∧ t.pcWrapped = true) ∧
  ∀ (s : State) (rd rs : RegNum), s.cpsr.t = true → rd ≠ 15#4 → s.pc = 0xFFFFFFFE#32 →
    RunsTo (.tMovHi rd rs) s fun t => t.pc = 0#32 ∧ t.pcWrapped = true
end

