-- ==== Sys2Proof/Laws/State.lean ====
section
/-! SUPPORT. Each field of the state after each update, so that no proof unfolds a record update. -/

namespace Sys2Proof.Machine

/-! ### setPc -/

@[simp] theorem State.setPc_regs (s : State) (a : Word) : (s.setPc a).regs = s.regs := rfl
@[simp] theorem State.setPc_pc (s : State) (a : Word) : (s.setPc a).pc = a := rfl
@[simp] theorem State.setPc_cpsr (s : State) (a : Word) : (s.setPc a).cpsr = s.cpsr := rfl
@[simp] theorem State.setPc_spsr (s : State) (a : Word) : (s.setPc a).spsr = s.spsr := rfl
@[simp] theorem State.setPc_mem (s : State) (a : Word) : (s.setPc a).mem = s.mem := rfl
@[simp] theorem State.setPc_platform (s : State) (a : Word) : (s.setPc a).platform = s.platform := rfl
@[simp] theorem State.setPc_inputs (s : State) (a : Word) : (s.setPc a).inputs = s.inputs := rfl
@[simp] theorem State.setPc_stored (s : State) (a : Word) : (s.setPc a).stored = s.stored := rfl
@[simp] theorem State.setPc_pcWrapped (s : State) (a : Word) : (s.setPc a).pcWrapped = false := rfl
@[simp] theorem State.setPc_draws (s : State) (a : Word) : (s.setPc a).draws = s.draws := rfl
@[simp] theorem State.setPc_bank (s : State) (a : Word) : (s.setPc a).bank = s.bank := rfl
@[simp] theorem State.setPc_stuck (s : State) (a : Word) : (s.setPc a).stuck = s.stuck := rfl
@[simp] theorem State.setPc_privileged (s : State) (a : Word) : (s.setPc a).privileged = s.privileged := rfl
@[simp] theorem State.setPc_instrLen (s : State) (a : Word) : (s.setPc a).instrLen = s.instrLen := rfl
@[simp] theorem State.setPc_fetchLen (s : State) (a : Word) : (s.setPc a).fetchLen = s.fetchLen := rfl

/-! ### advance -/

@[simp] theorem State.advance_regs (s : State) : (s.advance).regs = s.regs := rfl
@[simp] theorem State.advance_pc (s : State) : (s.advance).pc = s.pc + s.instrLen := rfl
@[simp] theorem State.advance_cpsr (s : State) : (s.advance).cpsr = s.cpsr := rfl
@[simp] theorem State.advance_spsr (s : State) : (s.advance).spsr = s.spsr := rfl
@[simp] theorem State.advance_mem (s : State) : (s.advance).mem = s.mem := rfl
@[simp] theorem State.advance_platform (s : State) : (s.advance).platform = s.platform := rfl
@[simp] theorem State.advance_inputs (s : State) : (s.advance).inputs = s.inputs := rfl
@[simp] theorem State.advance_stored (s : State) : (s.advance).stored = s.stored := rfl
@[simp] theorem State.advance_pcWrapped (s : State) :
    (s.advance).pcWrapped = decide ((s.pc + s.instrLen).toNat < s.pc.toNat) := rfl
@[simp] theorem State.advance_draws (s : State) : (s.advance).draws = s.draws := rfl
@[simp] theorem State.advance_bank (s : State) : (s.advance).bank = s.bank := rfl
@[simp] theorem State.advance_stuck (s : State) : (s.advance).stuck = s.stuck := rfl
@[simp] theorem State.advance_privileged (s : State) : (s.advance).privileged = s.privileged := rfl
@[simp] theorem State.advance_instrLen (s : State) : (s.advance).instrLen = s.instrLen := rfl
@[simp] theorem State.advance_fetchLen (s : State) : (s.advance).fetchLen = s.fetchLen := rfl

/-! ### setCpsr -/

@[simp] theorem State.setCpsr_regs (s : State) (p : Psr) : (s.setCpsr p).regs = s.regs := rfl
@[simp] theorem State.setCpsr_pc (s : State) (p : Psr) : (s.setCpsr p).pc = s.pc := rfl
@[simp] theorem State.setCpsr_cpsr (s : State) (p : Psr) : (s.setCpsr p).cpsr = p := rfl
@[simp] theorem State.setCpsr_spsr (s : State) (p : Psr) : (s.setCpsr p).spsr = s.spsr := rfl
@[simp] theorem State.setCpsr_mem (s : State) (p : Psr) : (s.setCpsr p).mem = s.mem := rfl
@[simp] theorem State.setCpsr_platform (s : State) (p : Psr) : (s.setCpsr p).platform = s.platform := rfl
@[simp] theorem State.setCpsr_inputs (s : State) (p : Psr) : (s.setCpsr p).inputs = s.inputs := rfl
@[simp] theorem State.setCpsr_stored (s : State) (p : Psr) : (s.setCpsr p).stored = s.stored := rfl
@[simp] theorem State.setCpsr_pcWrapped (s : State) (p : Psr) :
    (s.setCpsr p).pcWrapped = s.pcWrapped := rfl
@[simp] theorem State.setCpsr_draws (s : State) (p : Psr) : (s.setCpsr p).draws = s.draws := rfl

/-! ### setSpsr -/

@[simp] theorem State.setSpsr_regs (s : State) (e : ExcMode) (p : Psr) :
    (s.setSpsr e p).regs = s.regs := rfl
@[simp] theorem State.setSpsr_pc (s : State) (e : ExcMode) (p : Psr) : (s.setSpsr e p).pc = s.pc := rfl
@[simp] theorem State.setSpsr_cpsr (s : State) (e : ExcMode) (p : Psr) :
    (s.setSpsr e p).cpsr = s.cpsr := rfl
@[simp] theorem State.setSpsr_spsr (s : State) (e : ExcMode) (p : Psr) :
    (s.setSpsr e p).spsr = s.spsr.set e p := rfl
@[simp] theorem State.setSpsr_mem (s : State) (e : ExcMode) (p : Psr) :
    (s.setSpsr e p).mem = s.mem := rfl
@[simp] theorem State.setSpsr_platform (s : State) (e : ExcMode) (p : Psr) :
    (s.setSpsr e p).platform = s.platform := rfl
@[simp] theorem State.setSpsr_inputs (s : State) (e : ExcMode) (p : Psr) :
    (s.setSpsr e p).inputs = s.inputs := rfl
@[simp] theorem State.setSpsr_stored (s : State) (e : ExcMode) (p : Psr) :
    (s.setSpsr e p).stored = s.stored := rfl
@[simp] theorem State.setSpsr_pcWrapped (s : State) (e : ExcMode) (p : Psr) :
    (s.setSpsr e p).pcWrapped = s.pcWrapped := rfl
@[simp] theorem State.setSpsr_draws (s : State) (e : ExcMode) (p : Psr) :
    (s.setSpsr e p).draws = s.draws := rfl
@[simp] theorem State.setSpsr_bank (s : State) (e : ExcMode) (p : Psr) : (s.setSpsr e p).bank = s.bank := rfl
@[simp] theorem State.setSpsr_stuck (s : State) (e : ExcMode) (p : Psr) : (s.setSpsr e p).stuck = s.stuck := rfl
@[simp] theorem State.setSpsr_privileged (s : State) (e : ExcMode) (p : Psr) : (s.setSpsr e p).privileged = s.privileged := rfl
@[simp] theorem State.setSpsr_instrLen (s : State) (e : ExcMode) (p : Psr) : (s.setSpsr e p).instrLen = s.instrLen := rfl
@[simp] theorem State.setSpsr_fetchLen (s : State) (e : ExcMode) (p : Psr) : (s.setSpsr e p).fetchLen = s.fetchLen := rfl

/-! ### drawn -/

@[simp] theorem State.drawn_regs (s : State) : (s.drawn).regs = s.regs := rfl
@[simp] theorem State.drawn_pc (s : State) : (s.drawn).pc = s.pc := rfl
@[simp] theorem State.drawn_cpsr (s : State) : (s.drawn).cpsr = s.cpsr := rfl
@[simp] theorem State.drawn_spsr (s : State) : (s.drawn).spsr = s.spsr := rfl
@[simp] theorem State.drawn_mem (s : State) : (s.drawn).mem = s.mem := rfl
@[simp] theorem State.drawn_platform (s : State) : (s.drawn).platform = s.platform := rfl
@[simp] theorem State.drawn_inputs (s : State) : (s.drawn).inputs = s.inputs := rfl
@[simp] theorem State.drawn_stored (s : State) : (s.drawn).stored = s.stored := rfl
@[simp] theorem State.drawn_pcWrapped (s : State) : (s.drawn).pcWrapped = s.pcWrapped := rfl
@[simp] theorem State.drawn_draws (s : State) : (s.drawn).draws = s.draws + 1 := rfl
@[simp] theorem State.drawn_bank (s : State) : (s.drawn).bank = s.bank := rfl
@[simp] theorem State.drawn_stuck (s : State) : (s.drawn).stuck = s.stuck := rfl
@[simp] theorem State.drawn_privileged (s : State) : (s.drawn).privileged = s.privileged := rfl
@[simp] theorem State.drawn_instrLen (s : State) : (s.drawn).instrLen = s.instrLen := rfl
@[simp] theorem State.drawn_fetchLen (s : State) : (s.drawn).fetchLen = s.fetchLen := rfl

/-! ### seen -/

@[simp] theorem State.seen_regs (s : State) (a : Word) (n : Nat) : (s.seen a n).regs = s.regs := by
  unfold State.seen; split <;> rfl
@[simp] theorem State.seen_pc (s : State) (a : Word) (n : Nat) : (s.seen a n).pc = s.pc := by
  unfold State.seen; split <;> rfl
@[simp] theorem State.seen_cpsr (s : State) (a : Word) (n : Nat) : (s.seen a n).cpsr = s.cpsr := by
  unfold State.seen; split <;> rfl
@[simp] theorem State.seen_spsr (s : State) (a : Word) (n : Nat) : (s.seen a n).spsr = s.spsr := by
  unfold State.seen; split <;> rfl
@[simp] theorem State.seen_mem (s : State) (a : Word) (n : Nat) : (s.seen a n).mem = s.mem := by
  unfold State.seen; split <;> rfl
@[simp] theorem State.seen_platform (s : State) (a : Word) (n : Nat) : (s.seen a n).platform = s.platform := by
  unfold State.seen; split <;> rfl
@[simp] theorem State.seen_inputs (s : State) (a : Word) (n : Nat) : (s.seen a n).inputs = s.inputs := by
  unfold State.seen; split <;> rfl
@[simp] theorem State.seen_stored (s : State) (a : Word) (n : Nat) : (s.seen a n).stored = s.stored := by
  unfold State.seen; split <;> rfl
@[simp] theorem State.seen_pcWrapped (s : State) (a : Word) (n : Nat) : (s.seen a n).pcWrapped = s.pcWrapped := by
  unfold State.seen; split <;> rfl
@[simp] theorem State.seen_bank (s : State) (a : Word) (n : Nat) : (s.seen a n).bank = s.bank := by
  unfold State.seen; split <;> rfl
@[simp] theorem State.seen_stuck (s : State) (a : Word) (n : Nat) : (s.seen a n).stuck = s.stuck := by
  unfold State.seen; split <;> rfl
@[simp] theorem State.seen_privileged (s : State) (a : Word) (n : Nat) : (s.seen a n).privileged = s.privileged := by
  unfold State.seen; split <;> rfl
@[simp] theorem State.seen_instrLen (s : State) (a : Word) (n : Nat) : (s.seen a n).instrLen = s.instrLen := by
  unfold State.seen; split <;> rfl
@[simp] theorem State.seen_fetchLen (s : State) (a : Word) (n : Nat) : (s.seen a n).fetchLen = s.fetchLen := by
  unfold State.seen; split <;> rfl

/-- A read changes nothing but the count of free values. -/
theorem State.seen_eq (s : State) (a : Word) (n : Nat) :
    ∃ k, s.seen a n = { s with draws := k } := by
  unfold State.seen
  split_ifs
  · exact ⟨s.draws + 1, rfl⟩
  · exact ⟨s.draws, rfl⟩

/-- After a read that meets no device nothing has changed (20_memory R66). -/
theorem State.seen_of_no_device {s : State} {a : Word} {n : Nat}
    (h : (byteAddrs a n).any s.platform.isDevice = false) : s.seen a n = s := by
  unfold State.seen; rw [h]; rfl

/-! ### nextInputs -/

@[simp] theorem State.nextInputs_regs (s : State) : (s.nextInputs).regs = s.regs := rfl
@[simp] theorem State.nextInputs_pc (s : State) : (s.nextInputs).pc = s.pc := rfl
@[simp] theorem State.nextInputs_cpsr (s : State) : (s.nextInputs).cpsr = s.cpsr := rfl
@[simp] theorem State.nextInputs_spsr (s : State) : (s.nextInputs).spsr = s.spsr := rfl
@[simp] theorem State.nextInputs_mem (s : State) : (s.nextInputs).mem = s.mem := rfl
@[simp] theorem State.nextInputs_platform (s : State) : (s.nextInputs).platform = s.platform := rfl
@[simp] theorem State.nextInputs_inputs (s : State) : (s.nextInputs).inputs = s.inputs.tail := rfl
@[simp] theorem State.nextInputs_stored (s : State) : (s.nextInputs).stored = s.stored := rfl
@[simp] theorem State.nextInputs_pcWrapped (s : State) : (s.nextInputs).pcWrapped = s.pcWrapped := rfl
@[simp] theorem State.nextInputs_draws (s : State) : (s.nextInputs).draws = s.draws := rfl
@[simp] theorem State.nextInputs_bank (s : State) : (s.nextInputs).bank = s.bank := rfl
@[simp] theorem State.nextInputs_stuck (s : State) : (s.nextInputs).stuck = s.stuck := rfl
@[simp] theorem State.nextInputs_privileged (s : State) : (s.nextInputs).privileged = s.privileged := rfl
@[simp] theorem State.nextInputs_instrLen (s : State) : (s.nextInputs).instrLen = s.instrLen := rfl
@[simp] theorem State.nextInputs_fetchLen (s : State) : (s.nextInputs).fetchLen = s.fetchLen := rfl

/-! ### store -/

@[simp] theorem State.store_regs (s : State) (a : Word) (n : Nat) (v : Word) :
    (s.store a n v).regs = s.regs := rfl
@[simp] theorem State.store_pc (s : State) (a : Word) (n : Nat) (v : Word) :
    (s.store a n v).pc = s.pc := rfl
@[simp] theorem State.store_cpsr (s : State) (a : Word) (n : Nat) (v : Word) :
    (s.store a n v).cpsr = s.cpsr := rfl
@[simp] theorem State.store_spsr (s : State) (a : Word) (n : Nat) (v : Word) :
    (s.store a n v).spsr = s.spsr := rfl
@[simp] theorem State.store_mem (s : State) (a : Word) (n : Nat) (v : Word) :
    (s.store a n v).mem = s.platform.storeBytes s.mem a (toBytes s.platform.bigEndian n v) := rfl
@[simp] theorem State.store_platform (s : State) (a : Word) (n : Nat) (v : Word) :
    (s.store a n v).platform = s.platform := rfl
@[simp] theorem State.store_inputs (s : State) (a : Word) (n : Nat) (v : Word) :
    (s.store a n v).inputs = s.inputs := rfl
@[simp] theorem State.store_stored (s : State) (a : Word) (n : Nat) (v : Word) :
    (s.store a n v).stored = (byteAddrs a n).foldl insertAddr s.stored := rfl
@[simp] theorem State.store_pcWrapped (s : State) (a : Word) (n : Nat) (v : Word) :
    (s.store a n v).pcWrapped = s.pcWrapped := rfl
@[simp] theorem State.store_draws (s : State) (a : Word) (n : Nat) (v : Word) :
    (s.store a n v).draws = s.draws := rfl
@[simp] theorem State.store_bank (s : State) (a : Word) (n : Nat) (v : Word) : (s.store a n v).bank = s.bank := rfl
@[simp] theorem State.store_stuck (s : State) (a : Word) (n : Nat) (v : Word) : (s.store a n v).stuck = s.stuck := rfl
@[simp] theorem State.store_privileged (s : State) (a : Word) (n : Nat) (v : Word) : (s.store a n v).privileged = s.privileged := rfl
@[simp] theorem State.store_instrLen (s : State) (a : Word) (n : Nat) (v : Word) : (s.store a n v).instrLen = s.instrLen := rfl
@[simp] theorem State.store_fetchLen (s : State) (a : Word) (n : Nat) (v : Word) : (s.store a n v).fetchLen = s.fetchLen := rfl

/-! ### enter -/

@[simp] theorem State.enter_regs (s : State) (e : ExceptionKind) (r : Word) :
    (s.enter e r).regs = s.regs.set (.lr (some e.entryMode)) r := rfl
@[simp] theorem State.enter_pc (s : State) (e : ExceptionKind) (r : Word) :
    (s.enter e r).pc = e.vector := rfl
@[simp] theorem State.enter_cpsr (s : State) (e : ExceptionKind) (r : Word) :
    (s.enter e r).cpsr = e.cpsrAfter s.cpsr := rfl
@[simp] theorem State.enter_spsr (s : State) (e : ExceptionKind) (r : Word) :
    (s.enter e r).spsr = s.spsr.set e.entryMode s.cpsr := rfl
@[simp] theorem State.enter_mem (s : State) (e : ExceptionKind) (r : Word) :
    (s.enter e r).mem = s.mem := rfl
@[simp] theorem State.enter_platform (s : State) (e : ExceptionKind) (r : Word) :
    (s.enter e r).platform = s.platform := rfl
@[simp] theorem State.enter_inputs (s : State) (e : ExceptionKind) (r : Word) :
    (s.enter e r).inputs = s.inputs := rfl
@[simp] theorem State.enter_stored (s : State) (e : ExceptionKind) (r : Word) :
    (s.enter e r).stored = s.stored := rfl
@[simp] theorem State.enter_pcWrapped (s : State) (e : ExceptionKind) (r : Word) :
    (s.enter e r).pcWrapped = false := rfl
@[simp] theorem State.enter_draws (s : State) (e : ExceptionKind) (r : Word) :
    (s.enter e r).draws = s.draws := rfl

/-! ### raise -/

@[simp] theorem State.raise_regs (s : State) (e : ExceptionKind) :
    (s.raise e).regs = s.regs.set (.lr (some e.entryMode)) (s.returnValue e) := rfl
@[simp] theorem State.raise_pc (s : State) (e : ExceptionKind) : (s.raise e).pc = e.vector := rfl
@[simp] theorem State.raise_cpsr (s : State) (e : ExceptionKind) :
    (s.raise e).cpsr = e.cpsrAfter s.cpsr := rfl
@[simp] theorem State.raise_spsr (s : State) (e : ExceptionKind) :
    (s.raise e).spsr = s.spsr.set e.entryMode s.cpsr := rfl
@[simp] theorem State.raise_mem (s : State) (e : ExceptionKind) : (s.raise e).mem = s.mem := rfl
@[simp] theorem State.raise_platform (s : State) (e : ExceptionKind) :
    (s.raise e).platform = s.platform := rfl
@[simp] theorem State.raise_inputs (s : State) (e : ExceptionKind) : (s.raise e).inputs = s.inputs := rfl
@[simp] theorem State.raise_stored (s : State) (e : ExceptionKind) : (s.raise e).stored = s.stored := rfl
@[simp] theorem State.raise_pcWrapped (s : State) (e : ExceptionKind) :
    (s.raise e).pcWrapped = false := rfl
@[simp] theorem State.raise_draws (s : State) (e : ExceptionKind) : (s.raise e).draws = s.draws := rfl

/-! ### resetException -/

@[simp] theorem State.resetException_regs (s : State) : (s.resetException).regs = drawRegs s.draws := rfl
@[simp] theorem State.resetException_pc (s : State) : (s.resetException).pc = 0 := rfl
@[simp] theorem State.resetException_cpsr (s : State) :
    (s.resetException).cpsr = ExceptionKind.reset.cpsrAfter (Psr.ofWord (Config.freeWord (s.draws + 35))) := rfl
@[simp] theorem State.resetException_spsr (s : State) :
    (s.resetException).spsr = drawSpsrs s.draws := rfl
@[simp] theorem State.resetException_mem (s : State) : (s.resetException).mem = s.mem := rfl
@[simp] theorem State.resetException_platform (s : State) :
    (s.resetException).platform = s.platform := rfl
@[simp] theorem State.resetException_inputs (s : State) : (s.resetException).inputs = s.inputs := rfl
@[simp] theorem State.resetException_stored (s : State) : (s.resetException).stored = s.stored := rfl
@[simp] theorem State.resetException_pcWrapped (s : State) : (s.resetException).pcWrapped = false := rfl
@[simp] theorem State.resetException_draws (s : State) : (s.resetException).draws = s.draws + 36 := rfl

/-! ### writeReg -/

@[simp] theorem State.writeReg_cpsr (s : State) (r : RegNum) (v : Word) :
    (s.writeReg r v).cpsr = s.cpsr := by unfold State.writeReg; split <;> rfl
@[simp] theorem State.writeReg_spsr (s : State) (r : RegNum) (v : Word) :
    (s.writeReg r v).spsr = s.spsr := by unfold State.writeReg; split <;> rfl
@[simp] theorem State.writeReg_mem (s : State) (r : RegNum) (v : Word) :
    (s.writeReg r v).mem = s.mem := by unfold State.writeReg; split <;> rfl
@[simp] theorem State.writeReg_platform (s : State) (r : RegNum) (v : Word) :
    (s.writeReg r v).platform = s.platform := by unfold State.writeReg; split <;> rfl
@[simp] theorem State.writeReg_inputs (s : State) (r : RegNum) (v : Word) :
    (s.writeReg r v).inputs = s.inputs := by unfold State.writeReg; split <;> rfl
@[simp] theorem State.writeReg_stored (s : State) (r : RegNum) (v : Word) :
    (s.writeReg r v).stored = s.stored := by unfold State.writeReg; split <;> rfl
@[simp] theorem State.writeReg_draws (s : State) (r : RegNum) (v : Word) :
    (s.writeReg r v).draws = s.draws := by unfold State.writeReg; split <;> rfl
@[simp] theorem State.writeReg_bank (s : State) (r : RegNum) (v : Word) :
    (s.writeReg r v).bank = s.bank := by unfold State.writeReg; split <;> rfl
@[simp] theorem State.writeReg_stuck (s : State) (r : RegNum) (v : Word) :
    (s.writeReg r v).stuck = s.stuck := by unfold State.writeReg; split <;> rfl
@[simp] theorem State.writeReg_privileged (s : State) (r : RegNum) (v : Word) :
    (s.writeReg r v).privileged = s.privileged := by unfold State.writeReg; split <;> rfl
@[simp] theorem State.writeReg_instrLen (s : State) (r : RegNum) (v : Word) :
    (s.writeReg r v).instrLen = s.instrLen := by unfold State.writeReg; split <;> rfl
@[simp] theorem State.writeReg_fetchLen (s : State) (r : RegNum) (v : Word) :
    (s.writeReg r v).fetchLen = s.fetchLen := by unfold State.writeReg; split <;> rfl

/-- A write of a register other than R15 writes the current bank's register and nothing else. -/
theorem State.writeReg_of_ne (s : State) {r : RegNum} (v : Word) (h : r ≠ 15#4) :
    s.writeReg r v = { s with regs := s.regs.set (physOf s.bank r) v } := if_neg h

/-- A write of R15 is a write of the pc. -/
theorem State.writeReg_r15 (s : State) (v : Word) : s.writeReg 15#4 v = s.setPc v := rfl

theorem State.writeReg_pc_of_ne (s : State) {r : RegNum} (v : Word) (h : r ≠ 15#4) :
    (s.writeReg r v).pc = s.pc := by rw [State.writeReg_of_ne s v h]

theorem State.writeReg_pcWrapped_of_ne (s : State) {r : RegNum} (v : Word) (h : r ≠ 15#4) :
    (s.writeReg r v).pcWrapped = s.pcWrapped := by rw [State.writeReg_of_ne s v h]

theorem State.writeReg_regs_of_ne (s : State) {r : RegNum} (v : Word) (h : r ≠ 15#4) :
    (s.writeReg r v).regs = s.regs.set (physOf s.bank r) v := by rw [State.writeReg_of_ne s v h]

/-! ### Operands -/

/-- An operand other than R15 is the current bank's register. -/
theorem State.readReg_of_ne (s : State) {r : RegNum} (h : r ≠ 15#4) :
    s.readReg r = s.regs.get (physOf s.bank r) := if_neg h

/-- An operand R15 reads ahead of the pc (10_state R28). -/
theorem State.readReg_r15 (s : State) :
    s.readReg 15#4 = s.pc + (if s.cpsr.t then 4#32 else 8#32) := rfl

@[simp] theorem State.seen_readReg (s : State) (a : Word) (n : Nat) (r : RegNum) :
    (s.seen a n).readReg r = s.readReg r := by unfold State.seen; split <;> rfl

@[simp] theorem State.nextInputs_readReg (s : State) (r : RegNum) :
    s.nextInputs.readReg r = s.readReg r := rfl

/-- In a state that differs neither in the registers, nor in the mode and operating state, nor in the
pc, every operand reads the same. -/
theorem State.readReg_congr {s t : State} (hr : t.regs = s.regs) (hp : t.pc = s.pc)
    (hc : t.cpsr = s.cpsr) (r : RegNum) : t.readReg r = s.readReg r := by
  unfold State.readReg State.bank; rw [hr, hp, hc]

/-! ### The operating state -/

theorem State.instrLen_of_arm {s : State} (h : s.cpsr.t = false) : s.instrLen = 4#32 := by
  simp [State.instrLen, h]

theorem State.instrLen_of_thumb {s : State} (h : s.cpsr.t = true) : s.instrLen = 2#32 := by
  simp [State.instrLen, h]

theorem State.fetchLen_of_arm {s : State} (h : s.cpsr.t = false) : s.fetchLen = 4 := by
  simp [State.fetchLen, h]

theorem State.fetchLen_of_thumb {s : State} (h : s.cpsr.t = true) : s.fetchLen = 2 := by
  simp [State.fetchLen, h]

end Sys2Proof.Machine
end

