-- ==== Sys2Proof/Laws/Memory.lean ====
section
/-! SUPPORT. Memory: a read after a write, the canonical form and that every operation keeps it, the bytes of a word in both byte orders, the marks of stored-to addresses. -/

namespace Sys2Proof

/-! ### Bytes of a word -/

@[simp] theorem toBytes_length (big : Bool) (n : Nat) (v : Word) : (toBytes big n v).length = n := by
  cases big <;> simp [toBytes]

/-- Byte `k` of the bytes of `v` (20_memory R61). -/
theorem toBytes_getElem (big : Bool) (n : Nat) (v : Word) {k : Nat} (h : k < n) :
    (toBytes big n v)[k]? = some (Machine.byteOf big n v k) := by
  cases big
  · simp [toBytes, Machine.byteOf, h]
  · simp [toBytes, Machine.byteOf, h]

/-- A list of `n` bytes, each of which is that byte of `v`, is the list of the bytes of `v`. -/
theorem eq_toBytes {big : Bool} {n : Nat} {v : Word} {bs : List Byte} (hl : bs.length = n)
    (h : ∀ k < n, bs[k]? = some (Machine.byteOf big n v k)) : bs = toBytes big n v := by
  apply List.ext_getElem?
  intro k
  by_cases hk : k < n
  · rw [h k hk, toBytes_getElem big n v hk]
  · rw [List.getElem?_eq_none (by omega), List.getElem?_eq_none (by simp; omega)]

/-- A word comes back from its four bytes, in either byte order (20_memory R53, R54, R61). -/
theorem ofBytes_toBytes_word (big : Bool) (v : Word) : ofBytes big (toBytes big 4 v) = v := by
  have e : (v.extractLsb' 24 8 ++ v.extractLsb' 16 8 ++ v.extractLsb' 8 8 ++ v.extractLsb' 0 8 :
      BitVec (8 + 8 + 8 + 8)) = v := by
    apply BitVec.eq_of_getLsbD_eq
    intro i hi
    simp only [BitVec.getLsbD_append, BitVec.getLsbD_extractLsb']
    rcases lt_or_ge i 8 with h1 | h1
    · simp [h1]
    · rcases lt_or_ge i 16 with h2 | h2
      · simp [show ¬ i < 8 by omega, show i - 8 < 8 by omega, show 8 + (i - 8) = i by omega]
      · rcases lt_or_ge i 24 with h3 | h3
        · simp [show ¬ i < 8 by omega, show ¬ i - 8 < 8 by omega, show i - 8 - 8 < 8 by omega,
            show 16 + (i - 8 - 8) = i by omega]
        · simp [show ¬ i < 8 by omega, show ¬ i - 8 < 8 by omega, show ¬ i - 8 - 8 < 8 by omega,
            show i - 8 - 8 - 8 < 8 by omega, show 24 + (i - 8 - 8 - 8) = i by omega]
  cases big <;> exact e

/-- A byte comes back, zero-extended (20_memory R55). -/
theorem ofBytes_toBytes_byte (big : Bool) (v : Word) :
    ofBytes big (toBytes big 1 v) = (v.extractLsb' 0 8).setWidth 32 := by
  cases big <;> rfl

/-- A halfword comes back from its two bytes. -/
theorem ofBytes_toBytes_half (big : Bool) (h : Half) :
    (ofBytes big (toBytes big 2 (h.setWidth 32))).setWidth 16 = h := by
  have e : ((h.setWidth 32).extractLsb' 8 8 ++ (h.setWidth 32).extractLsb' 0 8 :
      BitVec (8 + 8)) = h := by
    apply BitVec.eq_of_getLsbD_eq
    intro i hi
    simp only [BitVec.getLsbD_append, BitVec.getLsbD_extractLsb', BitVec.getLsbD_setWidth]
    rcases lt_or_ge i 8 with h1 | h1
    · simp [h1]; omega
    · simp [show ¬ i < 8 by omega, show i - 8 < 8 by omega, show 8 + (i - 8) = i by omega]; omega
  have f : (ofBytes big (toBytes big 2 (h.setWidth 32))) =
      ((h.setWidth 32).extractLsb' 8 8 ++ (h.setWidth 32).extractLsb' 0 8 : BitVec (8 + 8)).setWidth
        32 := by cases big <;> rfl
  rw [f, e, BitVec.setWidth_setWidth_of_le _ (by omega), BitVec.setWidth_eq]

namespace Machine

/-! ### One byte -/

@[simp] theorem Memory.unlisted_eq (a : Nat) : Memory.unlisted a = none := rfl

theorem Memory.write_eq (m : Memory) (a : Nat) (v : Byte) : m.write a v = m.insert a v := by
  simp [Memory.write]

theorem Memory.read_insert (m : Memory) (a x : Nat) (v : Byte) :
    (m.insert a v).read x = if x = a then some v else m.read x := by
  induction m with
  | nil => simp [Memory.insert, Memory.read, eq_comm]
  | cons c m ih =>
    obtain ⟨k, b⟩ := c
    by_cases h1 : a < k
    · simp only [Memory.insert, if_pos h1, Memory.read, eq_comm (a := x)]
    · by_cases h2 : k = a
      · subst h2
        simp only [Memory.insert, lt_irrefl, if_false, if_true, Memory.read, eq_comm (a := x)]
        split_ifs <;> rfl
      · simp only [Memory.insert, if_neg h1, if_neg h2, Memory.read, ih]
        split_ifs with h3 h4
        · exact absurd (h3.trans h4) h2
        · rfl
        · rfl
        · rfl

/-- Reading a byte after writing one: the written value in its place, the old one elsewhere. -/
theorem Memory.read_write (m : Memory) (a x : Nat) (v : Byte) :
    (m.write a v).read x = if x = a then some v else m.read x := by
  rw [Memory.write_eq, Memory.read_insert]

/-! ### The canonical form -/

theorem Memory.wf_nil : Memory.wf [] := by simp [Memory.wf]

theorem Memory.mem_insert {m : Memory} {a : Nat} {v : Byte} {c : Host.Cell}
    (h : c ∈ m.insert a v) : c = (a, v) ∨ c ∈ m := by
  induction m with
  | nil => simpa [Memory.insert] using h
  | cons d m ih =>
    obtain ⟨k, b⟩ := d
    simp only [Memory.insert] at h
    split_ifs at h with h1 h2
    · simpa using h
    · rcases List.mem_cons.1 h with h | h
      · exact .inl h
      · exact .inr (by simp [h])
    · rcases List.mem_cons.1 h with h | h
      · exact .inr (by simp [h])
      · rcases ih h with h | h
        · exact .inl h
        · exact .inr (by simp [h])

/-- A write to an address of the 32-bit space keeps the canonical form. -/
theorem Memory.wf_write {m : Memory} (h : m.wf) {a : Nat} (ha : a < 2 ^ 32) (v : Byte) :
    (m.write a v).wf := by
  rw [Memory.write_eq]
  refine ⟨?_, fun c hc => ?_⟩
  · have h := h.1
    induction m with
    | nil => simp [Memory.insert]
    | cons d m ih =>
      obtain ⟨k, b⟩ := d
      rw [List.pairwise_cons] at h
      simp only [Memory.insert]
      split_ifs with h1 h2
      · refine List.pairwise_cons.2 ⟨fun c hc => ?_, List.pairwise_cons.2 h⟩
        rcases List.mem_cons.1 hc with rfl | hc
        · exact h1
        · exact lt_trans h1 (h.1 c hc)
      · subst h2; exact List.pairwise_cons.2 ⟨h.1, h.2⟩
      · refine List.pairwise_cons.2 ⟨fun c hc => ?_, ih ⟨h.2, fun c hc => ?_⟩ h.2⟩
        · rcases Memory.mem_insert hc with rfl | hc
          · simp only; omega
          · exact h.1 c hc
        · exact ‹Memory.wf _›.2 c (by simp [hc])
  · rcases Memory.mem_insert hc with rfl | hc
    · exact ⟨ha, by simp⟩
    · exact h.2 c hc

/-- In the canonical form the entry listed is the value read. -/
theorem Memory.read_of_mem {m : Memory} (h : m.Pairwise fun x y => x.1 < y.1) {a : Nat} {v : Byte}
    (hm : (a, v) ∈ m) : m.read a = some v := by
  induction m with
  | nil => simp at hm
  | cons d m ih =>
    obtain ⟨k, b⟩ := d
    rw [List.pairwise_cons] at h
    rcases List.mem_cons.1 hm with hm | hm
    · cases hm; simp [Memory.read]
    · have := h.1 _ hm
      simp only [Memory.read]
      rw [if_neg (by simp only at this; omega)]
      exact ih h.2 hm

theorem Memory.mem_of_read {m : Memory} {a : Nat} {v : Byte} (h : m.read a = some v) :
    (a, v) ∈ m := by
  induction m with
  | nil => simp [Memory.read] at h
  | cons d m ih =>
    obtain ⟨k, b⟩ := d
    simp only [Memory.read] at h
    split_ifs at h with h1
    · cases h; subst h1; simp
    · exact List.mem_cons_of_mem _ (ih h)

/-- Two memories in the canonical form that read the same are the same data. -/
theorem Memory.ext_read {m m' : Memory} (h : m.wf) (h' : m'.wf)
    (hr : ∀ a, m.read a = m'.read a) : m = m' := by
  have key (c : Host.Cell) : c ∈ m ↔ c ∈ m' := by
    obtain ⟨a, v⟩ := c
    exact ⟨fun hc => Memory.mem_of_read (by rw [← hr]; exact Memory.read_of_mem h.1 hc),
      fun hc => Memory.mem_of_read (by rw [hr]; exact Memory.read_of_mem h'.1 hc)⟩
  have nodup {l : Memory} (hl : l.Pairwise fun x y => x.1 < y.1) : l.Nodup :=
    hl.imp fun hlt he => by simp [he] at hlt
  refine List.Perm.eq_of_pairwise (fun a b _ _ h1 h2 => ?_) h.1 h'.1
    ((List.perm_ext_iff_of_nodup (nodup h.1) (nodup h'.1)).2 key)
  omega

/-! ### Addresses of an access -/

@[simp] theorem byteAddr_zero (addr : Word) : byteAddr addr 0 = addr.toNat := by simp [byteAddr]

theorem byteAddr_succ (addr : Word) (k : Nat) : byteAddr addr (k + 1) = byteAddr (addr + 1) k := by
  have h1 : (1 : Word).toNat = 1 := rfl
  simp only [byteAddr, BitVec.toNat_add, BitVec.toNat_ofNat, h1]
  omega

theorem byteAddr_lt (addr : Word) (k : Nat) : byteAddr addr k < 2 ^ 32 := BitVec.isLt _

theorem byteAddr_eq (addr : Word) (k : Nat) : byteAddr addr k = (addr.toNat + k) % 2 ^ 32 := by
  simp [byteAddr]

/-- Fewer than 2^32 bytes from one address on have addresses of their own. -/
theorem byteAddr_inj {addr : Word} {j k : Nat} (hj : j < 2 ^ 32) (hk : k < 2 ^ 32) :
    byteAddr addr j = byteAddr addr k ↔ j = k := by
  rw [byteAddr_eq, byteAddr_eq]; omega

/-- The addresses of an access are its byte addresses. -/
theorem mem_byteAddrs {addr : Word} {n a : Nat} :
    a ∈ byteAddrs addr n ↔ ∃ k < n, a = byteAddr addr k := by
  induction n generalizing addr with
  | zero => simp [byteAddrs]
  | succ n ih =>
    simp only [byteAddrs, List.mem_cons, ih]
    constructor
    · rintro (rfl | ⟨k, hk, rfl⟩)
      · exact ⟨0, by omega, by simp⟩
      · exact ⟨k + 1, by omega, (byteAddr_succ _ _).symm⟩
    · rintro ⟨k, hk, rfl⟩
      cases k with
      | zero => exact .inl (by simp)
      | succ k => exact .inr ⟨k, by omega, byteAddr_succ _ _⟩

theorem byteAddrs_lt {addr : Word} {n a : Nat} (h : a ∈ byteAddrs addr n) : a < 2 ^ 32 := by
  obtain ⟨k, -, rfl⟩ := mem_byteAddrs.1 h; exact byteAddr_lt _ _

theorem not_mem_byteAddrs {addr : Word} {n a : Nat} : a ∉ byteAddrs addr n ↔ Outside addr n a := by
  simp [mem_byteAddrs, Outside]

/-! ### Several bytes -/

theorem Platform.isDevice_iff (p : Platform) (a : Nat) :
    p.isDevice a = true ↔ p.kindAt a = some .device := by simp [Platform.isDevice]

theorem Platform.placed_iff (p : Platform) (a : Nat) : p.placed a = true ↔ p.kindAt a ≠ none := by
  simp [Platform.placed, Option.isSome_iff_ne_none]

theorem Platform.isDevice_of_memory {p : Platform} {a : Nat} (h : p.kindAt a = some .memory) :
    p.isDevice a = false := by simp [Platform.isDevice, h]

/-- A store of several bytes leaves every other address alone. -/
theorem Platform.read_storeBytes_outside {p : Platform} {m : Memory} {addr : Word} {bs : List Byte}
    {a : Nat} (h : Outside addr bs.length a) : (p.storeBytes m addr bs).read a = m.read a := by
  induction bs generalizing m addr with
  | nil => rfl
  | cons b bs ih =>
    rw [Platform.storeBytes, ih]
    · split_ifs
      · rfl
      · rw [Memory.read_write, if_neg]
        have := h 0 (by simp)
        simpa using this
    · intro k hk
      rw [← byteAddr_succ]
      exact h (k + 1) (by simpa using hk)

/-- A store of several bytes leaves alone every address where a device is (20_memory R66). -/
theorem Platform.read_storeBytes_device {p : Platform} {m : Memory} {addr : Word} {bs : List Byte}
    {a : Nat} (h : p.isDevice a = true) : (p.storeBytes m addr bs).read a = m.read a := by
  induction bs generalizing m addr with
  | nil => rfl
  | cons b bs ih =>
    rw [Platform.storeBytes, ih]
    split_ifs with hd
    · rfl
    · rw [Memory.read_write, if_neg]
      rintro rfl
      exact hd h

/-- A store of several bytes puts each that does not go to a device in its place. -/
theorem Platform.read_storeBytes_inside {p : Platform} {m : Memory} {addr : Word} {bs : List Byte}
    {k : Nat} (hl : bs.length ≤ 2 ^ 32) (hk : k < bs.length)
    (hd : p.isDevice (byteAddr addr k) = false) :
    (p.storeBytes m addr bs).read (byteAddr addr k) = bs[k]? := by
  induction bs generalizing m addr k with
  | nil => simp at hk
  | cons b bs ih =>
    rw [List.length_cons] at hl hk
    rw [Platform.storeBytes]
    cases k with
    | zero =>
      rw [byteAddr_zero] at hd
      rw [Platform.read_storeBytes_outside, hd, if_neg (by simp), Memory.read_write]
      · simp
      · intro j hj he
        rw [← byteAddr_succ, byteAddr_inj (by omega) (by omega)] at he
        omega
    | succ k =>
      rw [byteAddr_succ] at hd
      rw [byteAddr_succ, ih (by omega) (by omega) hd]
      simp

/-- A store of several bytes keeps the canonical form. -/
theorem Platform.wf_storeBytes {p : Platform} {m : Memory} (h : m.wf) (addr : Word)
    (bs : List Byte) : (p.storeBytes m addr bs).wf := by
  induction bs generalizing m addr with
  | nil => exact h
  | cons b bs ih =>
    rw [Platform.storeBytes]
    split_ifs
    · exact ih h _
    · exact ih (Memory.wf_write h addr.isLt b) _

/-- A placing of several bytes keeps the canonical form. -/
theorem Memory.wf_writeBytes {m : Memory} (h : m.wf) (addr : Word) (bs : List Byte) :
    (m.writeBytes addr bs).wf := by
  induction bs generalizing m addr with
  | nil => exact h
  | cons b bs ih => exact ih (Memory.wf_write h addr.isLt b) _

/-- What reading several bytes comes to: the bytes, if each has a value. -/
theorem State.readBytes_ok {s : State} {addr : Word} {n : Nat} {bs : List Byte} :
    s.readBytes addr n = .ok bs ↔
      bs.length = n ∧ ∀ k < n, s.byteAt (byteAddr addr k) = bs[k]? := by
  induction n generalizing addr bs with
  | zero =>
    constructor
    · intro h; cases h; simp
    · rintro ⟨h, -⟩; rw [List.length_eq_zero_iff.1 h]; rfl
  | succ n ih =>
    simp only [State.readBytes]
    constructor
    · intro h
      cases hb : s.byteAt addr.toNat with
      | none => simp [hb] at h
      | some b =>
        simp only [hb] at h
        cases hr : s.readBytes (addr + 1) n with
        | error f => rw [hr] at h; cases h
        | ok cs =>
          rw [hr] at h
          cases h
          obtain ⟨h1, h2⟩ := ih.1 hr
          refine ⟨by simp [h1], fun k hk => ?_⟩
          cases k with
          | zero => simpa using hb
          | succ k => rw [byteAddr_succ, h2 k (by omega)]; simp
    · rintro ⟨h1, h2⟩
      cases bs with
      | nil => simp at h1
      | cons b cs =>
        have h0 := h2 0 (by omega)
        simp only [byteAddr_zero, List.getElem?_cons_zero] at h0
        rw [h0]
        simp only
        rw [ih.2 ⟨by simpa using h1, fun k hk => ?_⟩]
        have := h2 (k + 1) (by omega)
        rw [byteAddr_succ] at this
        simpa using this

/-- When reading several bytes fails: at the first that has no value. -/
theorem State.readBytes_error {s : State} {addr : Word} {n k : Nat} (hk : k < n)
    (hn : s.byteAt (byteAddr addr k) = none) (hb : ∀ j < k, s.byteAt (byteAddr addr j) ≠ none) :
    s.readBytes addr n = .error (.unwritten (byteAddr addr k)) := by
  induction n generalizing addr k with
  | zero => omega
  | succ n ih =>
    simp only [State.readBytes]
    cases k with
    | zero => rw [byteAddr_zero] at hn; simp [hn]
    | succ k =>
      have h0 := hb 0 (by omega)
      rw [byteAddr_zero] at h0
      obtain ⟨b, hb0⟩ := Option.ne_none_iff_exists'.1 h0
      simp only [hb0]
      rw [byteAddr_succ] at hn ⊢
      rw [ih (by omega) hn fun j hj => by rw [← byteAddr_succ]; exact hb (j + 1) (by omega)]

/-- The bytes read depend on the platform, on memory and on the count of free values only. -/
theorem State.readBytes_congr {s t : State} (hp : t.platform = s.platform) (hm : t.mem = s.mem)
    (hd : t.draws = s.draws) (addr : Word) (n : Nat) : t.readBytes addr n = s.readBytes addr n := by
  induction n generalizing addr with
  | zero => rfl
  | succ n ih => simp only [State.readBytes, State.byteAt, hp, hm, hd, ih]

/-- A byte of memory is read as memory holds it. -/
theorem State.byteAt_memory {s : State} {a : Nat} (h : s.platform.kindAt a = some .memory) :
    s.byteAt a = s.mem.read a := by
  unfold State.byteAt; rw [Platform.isDevice_of_memory h, if_neg (by simp)]

/-- A byte of a device always has a value. -/
theorem State.byteAt_device {s : State} {a : Nat} (h : s.platform.kindAt a = some .device) :
    s.byteAt a = some (Config.freeDevice s.draws a) := by
  unfold State.byteAt; rw [(Platform.isDevice_iff _ _).2 h, if_pos rfl]

/-! ### Marks of stored-to addresses -/

@[simp] theorem mem_insertAddr {l : List Nat} {a x : Nat} :
    x ∈ insertAddr l a ↔ x = a ∨ x ∈ l := by
  induction l with
  | nil => simp [insertAddr]
  | cons k l ih =>
    simp only [insertAddr]
    split_ifs with h1 h2
    · simp
    · subst h2; simp
    · simp [ih]; tauto

@[simp] theorem mem_foldl_insertAddr {as l : List Nat} {x : Nat} :
    x ∈ as.foldl insertAddr l ↔ x ∈ as ∨ x ∈ l := by
  induction as generalizing l with
  | nil => simp
  | cons a as ih => simp [ih]; tauto

theorem storedWf_insertAddr {l : List Nat} (h : storedWf l) {a : Nat} (ha : a < 2 ^ 32) :
    storedWf (insertAddr l a) := by
  refine ⟨?_, fun x hx => ?_⟩
  · have h := h.1
    induction l with
    | nil => simp [insertAddr]
    | cons k l ih =>
      rw [List.pairwise_cons] at h
      simp only [insertAddr]
      split_ifs with h1 h2
      · refine List.pairwise_cons.2 ⟨fun x hx => ?_, List.pairwise_cons.2 h⟩
        rcases List.mem_cons.1 hx with rfl | hx
        · exact h1
        · exact lt_trans h1 (h.1 x hx)
      · exact List.pairwise_cons.2 h
      · refine List.pairwise_cons.2 ⟨fun x hx => ?_,
          ih ⟨h.2, fun x hx => ‹storedWf _›.2 x (by simp [hx])⟩ h.2⟩
        rcases mem_insertAddr.1 hx with rfl | hx
        · omega
        · exact h.1 x hx
  · rcases mem_insertAddr.1 hx with rfl | hx
    · exact ha
    · exact h.2 x hx

theorem storedWf_foldl {as l : List Nat} (h : storedWf l) (ha : ∀ a ∈ as, a < 2 ^ 32) :
    storedWf (as.foldl insertAddr l) := by
  induction as generalizing l with
  | nil => exact h
  | cons a as ih =>
    exact ih (storedWf_insertAddr h (ha a (by simp))) fun x hx => ha x (by simp [hx])

/-! ### Stores -/

/-- A store leaves every other byte alone. -/
theorem State.store_read_outside (s : State) {addr : Word} {n : Nat} (v : Word) {a : Nat}
    (h : Outside addr n a) : (s.store addr n v).mem.read a = s.mem.read a := by
  rw [State.store_mem, Platform.read_storeBytes_outside]
  simpa using h

/-- A store leaves alone every byte where a device is. -/
theorem State.store_read_device (s : State) (addr : Word) (n : Nat) (v : Word) {a : Nat}
    (h : s.platform.kindAt a = some .device) : (s.store addr n v).mem.read a = s.mem.read a := by
  rw [State.store_mem, Platform.read_storeBytes_device ((Platform.isDevice_iff _ _).2 h)]

/-- A store puts each byte of the value that goes to memory in its place (20_memory R61). -/
theorem State.store_byte (s : State) (addr : Word) {n k : Nat} (hn : n ≤ 2 ^ 32) (v : Word) (hk : k < n)
    (hm : s.platform.kindAt (byteAddr addr k) = some .memory) :
    (s.store addr n v).mem.read (byteAddr addr k) = some (byteOf s.platform.bigEndian n v k) := by
  rw [State.store_mem, Platform.read_storeBytes_inside (by simpa using hn) (by simpa using hk)
    (Platform.isDevice_of_memory hm), toBytes_getElem _ _ _ hk]

/-- A store to memory leaves the value there. -/
theorem State.store_holds (s : State) (addr : Word) {n : Nat} (hn : n ≤ 2 ^ 32) (v : Word)
    (hm : ∀ k < n, s.platform.kindAt (byteAddr addr k) = some .memory) :
    (s.store addr n v).Holds addr n v := fun k hk => s.store_byte addr hn v hk (hm k hk)

/-- A store marks its addresses and no others (20_memory R73). -/
theorem State.store_marks (s : State) (addr : Word) (n : Nat) (v : Word) (a : Nat) :
    a ∈ (s.store addr n v).stored ↔ a ∈ s.stored ∨ ¬ Outside addr n a := by
  rw [State.store_stored, mem_foldl_insertAddr, ← not_mem_byteAddrs, not_not, or_comm]

/-- A store keeps the canonical form of memory. -/
theorem State.store_wf {s : State} (h : s.mem.wf) (addr : Word) (n : Nat) (v : Word) :
    (s.store addr n v).mem.wf := Platform.wf_storeBytes h _ _

/-- A store keeps the canonical form of the marks. -/
theorem State.store_storedWf {s : State} (h : storedWf s.stored) (addr : Word) (n : Nat) (v : Word) :
    storedWf (s.store addr n v).stored :=
  storedWf_foldl h fun _ ha => byteAddrs_lt ha

/-! ### Memory after reset -/

theorem reset_mem_wf : State.reset.mem.wf := Memory.wf_nil

theorem reset_stored_wf : storedWf State.reset.stored := by simp [State.reset, storedWf]

end Machine
end Sys2Proof
end

