-- ==== Sys2Proof/Laws/Access.lean ====
section
/-! SUPPORT. What an access, a read, a write and a fetch can come to. -/

namespace Sys2Proof.Machine

/-! ### The checks of an access (20_memory R60) -/

theorem misaligned_iff (addr : Word) (n : Nat) : misaligned addr n = true ↔ addr.toNat % n ≠ 0 := by
  simp [misaligned]

theorem misaligned_eq_false (addr : Word) (n : Nat) :
    misaligned addr n = false ↔ addr.toNat % n = 0 := by
  simp [misaligned]

/-- Every byte address of an access is placed. -/
theorem Platform.all_placed (p : Platform) (addr : Word) (n : Nat) :
    (byteAddrs addr n).all p.placed = true ↔ ∀ k < n, p.kindAt (byteAddr addr k) ≠ none := by
  rw [List.all_eq_true]
  constructor
  · exact fun h k hk => (Platform.placed_iff _ _).1 (h _ (mem_byteAddrs.2 ⟨k, hk, rfl⟩))
  · intro h a ha
    obtain ⟨k, hk, rfl⟩ := mem_byteAddrs.1 ha
    exact (Platform.placed_iff _ _).2 (h k hk)

/-- An access is made exactly when it is aligned, no abort is signalled and every byte is placed. -/
theorem State.checkAccess_ok (s : State) (kind : AccessKind) (addr : Word) (n : Nat) :
    s.checkAccess kind addr n = .ok () ↔ s.Reaches kind addr n := by
  unfold State.checkAccess
  constructor
  · intro h
    split_ifs at h with h1 h2 h3
    exact ⟨(misaligned_eq_false _ _).1 (by simpa using h1), by simpa using h2,
      (Platform.all_placed _ _ _).1 h3⟩
  · intro h
    rw [if_neg (by rw [(misaligned_eq_false _ _).2 h.aligned]; simp), if_neg (by rw [h.noAbort]; simp),
      if_pos ((Platform.all_placed _ _ _).2 h.placed)]

theorem State.Accessible.reaches {s : State} {kind : AccessKind} {addr : Word} {n : Nat}
    (h : s.Accessible kind addr n) : s.Reaches kind addr n :=
  ⟨h.aligned, h.noAbort, fun k hk => by rw [h.mapped k hk]; simp⟩

/-- An access that misses is refused (20_memory R60). -/
theorem State.checkAccess_misses {s : State} {kind : AccessKind} {addr : Word} {n : Nat}
    (h : s.Misses kind addr n) : s.checkAccess kind addr n = .refuse .unmapped := by
  unfold State.checkAccess
  rw [if_neg (by rw [(misaligned_eq_false _ _).2 h.aligned]; simp), if_neg (by rw [h.noAbort]; simp),
    if_neg]
  intro ha
  obtain ⟨k, hk, hn⟩ := h.unplaced
  exact (Platform.all_placed _ _ _).1 ha k hk hn

/-- After a read of memory alone nothing has changed (20_memory R66). -/
theorem State.seen_of_memory {s : State} {addr : Word} {n : Nat}
    (h : ∀ k < n, s.platform.kindAt (byteAddr addr k) = some .memory) : s.seen addr n = s := by
  apply State.seen_of_no_device
  rw [List.any_eq_false]
  intro a ha
  obtain ⟨k, hk, rfl⟩ := mem_byteAddrs.1 ha
  rw [Platform.isDevice_of_memory (h k hk)]; simp

/-- An access signals abort exactly when it is aligned and P_ABORT says so. -/
theorem State.checkAccess_abort (s : State) (kind : AccessKind) (addr : Word) (n : Nat) :
    s.checkAccess kind addr n = .abort ↔ s.Aborts kind addr n := by
  unfold State.checkAccess
  constructor
  · intro h
    split_ifs at h with h1 h2
    exact ⟨(misaligned_eq_false _ _).1 (by simpa using h1), h2⟩
  · intro h
    rw [if_neg (by rw [(misaligned_eq_false _ _).2 h.aligned]; simp), if_pos h.abort]

/-- The check of an access raises no fault. -/
theorem State.checkAccess_ne_fault (s : State) (kind : AccessKind) (addr : Word) (n : Nat) (f : Fault) :
    s.checkAccess kind addr n ≠ .fault f := by
  unfold State.checkAccess
  split_ifs <;> simp

/-- A misaligned access is refused before anything else is looked at (20_memory R57, R60). -/
theorem State.checkAccess_misaligned (s : State) (kind : AccessKind) {addr : Word} {n : Nat}
    (h : addr.toNat % n ≠ 0) : s.checkAccess kind addr n = .refuse .misaligned := by
  unfold State.checkAccess
  rw [if_pos ((misaligned_iff _ _).2 h)]

/-- The check of an access looks at the platform and at the mode only. -/
theorem State.checkAccess_congr {s t : State} (hp : t.platform = s.platform)
    (hm : t.cpsr.m = s.cpsr.m) (kind : AccessKind) (addr : Word) (n : Nat) :
    t.checkAccess kind addr n = s.checkAccess kind addr n := by
  unfold State.checkAccess State.privileged; rw [hp, hm]

theorem State.Accessible.congr {s t : State} {kind : AccessKind} {addr : Word} {n : Nat}
    (h : s.Accessible kind addr n) (hp : t.platform = s.platform) (hm : t.cpsr.m = s.cpsr.m) :
    t.Accessible kind addr n := by
  refine ⟨h.aligned, ?_, fun k hk => by rw [hp]; exact h.mapped k hk⟩
  unfold State.privileged; rw [hp, hm]; exact h.noAbort

theorem State.Reaches.congr {s t : State} {kind : AccessKind} {addr : Word} {n : Nat}
    (h : s.Reaches kind addr n) (hp : t.platform = s.platform) (hm : t.cpsr.m = s.cpsr.m) :
    t.Reaches kind addr n := by
  rw [← State.checkAccess_ok] at h ⊢; rw [State.checkAccess_congr hp hm, h]

theorem State.Readable.congr {s t : State} {kind : AccessKind} {addr : Word} {n : Nat}
    (h : s.Readable kind addr n) (hp : t.platform = s.platform) (hm : t.cpsr.m = s.cpsr.m)
    (hr : ∀ a, t.mem.read a = s.mem.read a) : t.Readable kind addr n :=
  ⟨h.reaches.congr hp hm, fun k hk hd => by rw [hr]; exact h.written k hk (by rw [← hp]; exact hd)⟩

theorem State.Misses.congr {s t : State} {kind : AccessKind} {addr : Word} {n : Nat}
    (h : s.Misses kind addr n) (hp : t.platform = s.platform) (hm : t.cpsr.m = s.cpsr.m) :
    t.Misses kind addr n := by
  refine ⟨h.aligned, ?_, ?_⟩
  · unfold State.privileged; rw [hp, hm]; exact h.noAbort
  · rw [hp]; exact h.unplaced

theorem State.Aborts.congr {s t : State} {kind : AccessKind} {addr : Word} {n : Nat}
    (h : s.Aborts kind addr n) (hp : t.platform = s.platform) (hm : t.cpsr.m = s.cpsr.m) :
    t.Aborts kind addr n := by
  rw [← State.checkAccess_abort] at h ⊢; rw [State.checkAccess_congr hp hm, h]

/-! ### Reads -/

/-- A read that goes through gives the value of the bytes. -/
theorem State.memRead_ok {s : State} {addr : Word} {n : Nat} {bs : List Byte}
    (h : s.Accessible .read addr n) (hl : bs.length = n)
    (hb : ∀ k < n, s.mem.read (byteAddr addr k) = bs[k]?) :
    s.memRead addr n = .ok (ofBytes s.platform.bigEndian bs) := by
  unfold State.memRead
  rw [(State.checkAccess_ok _ _ _ _).2 h.reaches]
  simp only [State.readBytes_ok.2 ⟨hl, fun k hk => (State.byteAt_memory (h.mapped k hk)).trans (hb k hk)⟩]

/-- Where every byte has a value, the bytes are read. -/
theorem State.Readable.readBytes {s : State} {kind : AccessKind} {addr : Word} {n : Nat}
    (h : s.Readable kind addr n) : ∃ bs, s.readBytes addr n = .ok bs ∧ bs.length = n ∧
      ∀ k < n, s.byteAt (byteAddr addr k) = bs[k]? := by
  have hb (k : Nat) (hk : k < n) : s.byteAt (byteAddr addr k) ≠ none := by
    cases hd : s.platform.kindAt (byteAddr addr k) with
    | none => exact absurd hd (h.reaches.placed k hk)
    | some r =>
      cases r with
      | memory => rw [State.byteAt_memory hd]; exact h.written k hk hd
      | device => rw [State.byteAt_device hd]; simp
  have e : s.readBytes addr n =
      .ok ((List.range n).map fun k => (s.byteAt (byteAddr addr k)).getD 0) := by
    refine State.readBytes_ok.2 ⟨by simp, fun k hk => ?_⟩
    obtain ⟨b, hb⟩ := Option.ne_none_iff_exists'.1 (hb k hk)
    simp [hk, hb]
  exact ⟨_, e, State.readBytes_ok.1 e⟩

/-- A read of which every byte has a value gives a value, of a device too (20_memory R66). -/
theorem State.memRead_readable {s : State} {addr : Word} {n : Nat} (h : s.Readable .read addr n) :
    ∃ v, s.memRead addr n = .ok v := by
  obtain ⟨bs, hb, -⟩ := h.readBytes
  unfold State.memRead
  rw [(State.checkAccess_ok _ _ _ _).2 h.reaches, hb]
  exact ⟨_, rfl⟩

/-- A read that misses is refused. -/
theorem State.memRead_misses {s : State} {addr : Word} {n : Nat} (h : s.Misses .read addr n) :
    s.memRead addr n = .refuse .unmapped := by
  unfold State.memRead
  rw [State.checkAccess_misses h]

/-- A word that memory holds is read back. -/
theorem State.memRead_word {s : State} {addr v : Word} (h : s.Accessible .read addr 4)
    (hv : s.Holds addr 4 v) : s.memRead addr 4 = .ok v := by
  rw [State.memRead_ok (bs := toBytes s.platform.bigEndian 4 v) h (by simp)
    fun k hk => by rw [hv k hk, toBytes_getElem _ _ _ hk], ofBytes_toBytes_word]

/-- A byte is read zero-extended (20_memory R60). -/
theorem State.memRead_byte {s : State} {addr : Word} {b : Byte} (h : s.Accessible .read addr 1)
    (hb : s.mem.read addr.toNat = some b) : s.memRead addr 1 = .ok (b.setWidth 32) := by
  rw [State.memRead_ok (bs := [b]) h rfl]
  · cases s.platform.bigEndian <;> rfl
  · intro k hk
    have : k = 0 := by omega
    subst this
    simpa using hb

/-- A read that P_ABORT names aborts. -/
theorem State.memRead_abort {s : State} {addr : Word} {n : Nat} (h : s.Aborts .read addr n) :
    s.memRead addr n = .abort := by
  unfold State.memRead
  rw [(State.checkAccess_abort _ _ _ _).2 h]

/-- A misaligned read is refused. -/
theorem State.memRead_misaligned {s : State} {addr : Word} {n : Nat} (h : addr.toNat % n ≠ 0) :
    s.memRead addr n = .refuse .misaligned := by
  unfold State.memRead
  rw [State.checkAccess_misaligned s .read h]

/-- A read of a byte that nothing has written faults (log 2). -/
theorem State.memRead_unwritten {s : State} {addr : Word} {n k : Nat} (h : s.Accessible .read addr n)
    (hk : k < n) (hn : s.mem.read (byteAddr addr k) = none)
    (hb : ∀ j < k, s.mem.read (byteAddr addr j) ≠ none) :
    s.memRead addr n = .fault (.unwritten (byteAddr addr k)) := by
  unfold State.memRead
  rw [(State.checkAccess_ok _ _ _ _).2 h.reaches]
  simp only [State.readBytes_error hk ((State.byteAt_memory (h.mapped k hk)).trans hn) fun j hj => by
    rw [State.byteAt_memory (h.mapped j (hj.trans hk))]; exact hb j hj]

/-! ### Writes -/

/-- What a write comes to, when it comes to a state: the store. -/
theorem State.memWrite_ok {s t : State} {addr v : Word} {n : Nat} :
    s.memWrite addr n v = .ok t ↔ s.Reaches .write addr n ∧ t = s.store addr n v := by
  unfold State.memWrite
  rw [← State.checkAccess_ok]
  cases s.checkAccess .write addr n <;> simp [eq_comm]

theorem State.memWrite_of_accessible {s : State} {addr : Word} {n : Nat} (v : Word)
    (h : s.Accessible .write addr n) : s.memWrite addr n v = .ok (s.store addr n v) :=
  State.memWrite_ok.2 ⟨h.reaches, rfl⟩

/-- A write that misses is refused. -/
theorem State.memWrite_misses {s : State} {addr : Word} {n : Nat} (v : Word)
    (h : s.Misses .write addr n) : s.memWrite addr n v = .refuse .unmapped := by
  unfold State.memWrite
  rw [State.checkAccess_misses h]

/-- A write that P_ABORT names aborts. -/
theorem State.memWrite_abort {s : State} {addr v : Word} {n : Nat} :
    s.memWrite addr n v = .abort ↔ s.Aborts .write addr n := by
  unfold State.memWrite
  rw [← State.checkAccess_abort]
  cases s.checkAccess .write addr n <;> simp

/-- A misaligned write is refused. -/
theorem State.memWrite_misaligned {s : State} {addr : Word} {n : Nat} (v : Word)
    (h : addr.toNat % n ≠ 0) : s.memWrite addr n v = .refuse .misaligned := by
  unfold State.memWrite
  rw [State.checkAccess_misaligned s .write h]

/-! ### How an instruction goes on after an access -/

@[simp] theorem Access.andThen_ok {α : Type} (a : α) (r : Result) (f : α → Result) :
    (Access.ok a).andThen r f = f a := rfl

@[simp] theorem Access.andThen_abort {α : Type} (r : Result) (f : α → Result) :
    (Access.abort : Access α).andThen r f = r := rfl

@[simp] theorem Access.andThen_fault {α : Type} (e : Fault) (r : Result) (f : α → Result) :
    (Access.fault e : Access α).andThen r f = .fault e := rfl

@[simp] theorem Access.andThen_refuse {α : Type} (e : Refusal) (r : Result) (f : α → Result) :
    (Access.refuse e : Access α).andThen r f = .refused e := rfl

/-- An access after which there is a next state either went through or aborted. -/
theorem Access.andThen_next {α : Type} {x : Access α} {r : Result} {f : α → Result} {t : State}
    (h : x.andThen r f = .next t) :
    (∃ a, x = .ok a ∧ f a = .next t) ∨ (x = .abort ∧ r = .next t) := by
  cases x with
  | ok a => exact .inl ⟨a, rfl, h⟩
  | abort => exact .inr ⟨rfl, h⟩
  | fault e => cases h
  | refuse e => cases h

/-! ### Fetch (20_memory R62) -/

/-- A fetch gives the bytes that the pc's addresses show. -/
theorem State.fetch_of_readBytes {s : State} {bs : List Byte} (h1 : s.pcWrapped = false)
    (h2 : s.Reaches .fetch s.pc s.fetchLen) (h3 : ∀ k < s.fetchLen, byteAddr s.pc k ∉ s.stored)
    (h4 : s.readBytes s.pc s.fetchLen = .ok bs) : s.fetch = .ok bs := by
  have hany : (byteAddrs s.pc s.fetchLen).any (s.stored.contains ·) = false := by
    rw [List.any_eq_false]
    intro a ha hm
    obtain ⟨k, hk, rfl⟩ := mem_byteAddrs.1 ha
    exact h3 k hk (by simpa using hm)
  unfold State.fetch
  rw [h1, (State.checkAccess_ok _ _ _ _).2 h2]
  simp only [hany, Bool.false_eq_true, if_false, h4]

/-- A fetch gives the bytes at the pc under the conditions of `State.Fetches`. -/
theorem State.fetch_of_fetches {s : State} {bs : List Byte} (h : s.Fetches bs) : s.fetch = .ok bs :=
  State.fetch_of_readBytes h.noWrap h.access.reaches h.fresh (State.readBytes_ok.2 ⟨h.length, fun k hk =>
    (State.byteAt_memory (h.access.mapped k hk)).trans (h.bytes k hk)⟩)

/-- A fetch from memory has no side effect (20_memory R66). -/
theorem State.seen_of_fetches {s : State} {bs : List Byte} (h : s.Fetches bs) :
    s.seen s.pc s.fetchLen = s := State.seen_of_memory h.access.mapped

/-- A fetch that misses is refused, unless it follows a wrap. -/
theorem State.fetch_misses {s : State} (h1 : s.pcWrapped = false)
    (h2 : s.Misses .fetch s.pc s.fetchLen) : s.fetch = .refuse .unmapped := by
  unfold State.fetch
  rw [h1, State.checkAccess_misses h2]
  simp

/-- A fetch that P_ABORT names aborts, unless it follows a wrap. -/
theorem State.fetch_abort {s : State} (h1 : s.pcWrapped = false)
    (h2 : s.Aborts .fetch s.pc s.fetchLen) : s.fetch = .abort := by
  unfold State.fetch
  rw [h1, (State.checkAccess_abort _ _ _ _).2 h2]
  simp

/-- A fetch from an address that the program has stored to is refused (20_memory R73). -/
theorem State.fetch_stored {s : State} (h1 : s.pcWrapped = false)
    (h2 : s.Reaches .fetch s.pc s.fetchLen) {k : Nat} (hk : k < s.fetchLen)
    (hs : byteAddr s.pc k ∈ s.stored) : s.fetch = .refuse .fetchAfterStore := by
  unfold State.fetch
  rw [h1, (State.checkAccess_ok _ _ _ _).2 h2]
  have : (byteAddrs s.pc s.fetchLen).any (s.stored.contains ·) = true :=
    List.any_eq_true.2 ⟨_, mem_byteAddrs.2 ⟨k, hk, rfl⟩, by simpa using hs⟩
  simp only [this, Bool.false_eq_true, if_false, if_true]

/-- A fetch after a wrap is refused (10_state R27). -/
theorem State.fetch_wrapped {s : State} (h : s.pcWrapped = true) :
    s.fetch = .refuse .fetchAfterWrap := by
  unfold State.fetch; rw [if_pos h]

end Sys2Proof.Machine
end

