-- ==== Sys2Proof/Laws/Registers.lean ====
section
/-! SUPPORT. Registers, banks, modes and status registers: reading after writing. -/

namespace Sys2Proof.Machine

/-! ### One bank -/

theorem Banked.get_set (b : Banked) (j k : Option ExcMode) (v : Word) :
    (b.set k v).get j = if j = k then v else b.get j := by
  rcases j with _ | j <;> rcases k with _ | k
  · rfl
  · cases k <;> rfl
  · cases j <;> rfl
  · cases j <;> cases k <;> rfl

theorem Banked.ext_get {a b : Banked} (h : ∀ k, a.get k = b.get k) : a = b := by
  cases a; cases b
  have h0 := h none; have h1 := h (some .fiq); have h2 := h (some .irq)
  have h3 := h (some .svc); have h4 := h (some .abt); have h5 := h (some .und)
  simp only [Banked.get] at h0 h1 h2 h3 h4 h5
  subst h0 h1 h2 h3 h4 h5; rfl

/-! ### All general registers -/

/-- Reading a register after writing one: the written value in its place, the old one elsewhere. -/
theorem Regs.get_set (g : Regs) (p q : PhysReg) (v : Word) :
    (g.set p v).get q = if q = p then v else g.get q := by
  cases p <;> cases q <;>
    simp [Regs.set, Regs.get, Vector.getElem_set, Banked.get_set, Fin.ext_iff, eq_comm]

@[simp] theorem Regs.get_set_self (g : Regs) (p : PhysReg) (v : Word) : (g.set p v).get p = v := by
  simp [Regs.get_set]

theorem Regs.get_set_ne (g : Regs) {p q : PhysReg} (v : Word) (h : q ≠ p) :
    (g.set p v).get q = g.get q := by simp [Regs.get_set, h]

/-- The general registers are what reading each of them gives. -/
theorem Regs.ext_get {a b : Regs} (h : ∀ p, a.get p = b.get p) : a = b := by
  have hs : a.sp = b.sp := Banked.ext_get fun k => h (.sp k)
  have hl : a.lr = b.lr := Banked.ext_get fun k => h (.lr k)
  have h1 : a.low = b.low := Vector.ext fun i hi => h (.low ⟨i, hi⟩)
  have h2 : a.high = b.high := Vector.ext fun i hi => h (.high ⟨i, hi⟩)
  have h3 : a.highFiq = b.highFiq := Vector.ext fun i hi => h (.highFiq ⟨i, hi⟩)
  cases a; cases b; simp_all

/-- In one bank two names reach the same register only if they are the same name (10_state R22). -/
theorem physOf_inj {k : Option ExcMode} {a b : RegNum} (ha : a ≠ 15#4) (hb : b ≠ 15#4) :
    physOf k a = physOf k b ↔ a = b := by
  revert a b
  rcases k with _ | k
  · decide
  · cases k <;> decide

@[simp] theorem physOf_r14 (k : Option ExcMode) : physOf k 14#4 = .lr k := rfl

@[simp] theorem physOf_r13 (k : Option ExcMode) : physOf k 13#4 = .sp k := rfl

/-! ### Writing by name -/

/-- The general registers after a write of a register other than R15. -/
theorem State.writeReg_get (s : State) {r : RegNum} (v : Word) (h : r ≠ 15#4) (p : PhysReg) :
    (s.writeReg r v).regs.get p = if p = physOf s.bank r then v else s.regs.get p := by
  rw [State.writeReg_regs_of_ne s v h, Regs.get_set]

/-- A register other than R15 reads as what was last written to it, and a write of it leaves the others
alone. -/
theorem State.readReg_writeReg (s : State) {r q : RegNum} (v : Word) (hr : r ≠ 15#4)
    (hq : q ≠ 15#4) : (s.writeReg r v).readReg q = if q = r then v else s.readReg q := by
  simp only [State.readReg_of_ne _ hq, State.writeReg_bank, State.writeReg_get s v hr,
    physOf_inj hq hr]

/-! ### Saved status registers -/

theorem SavedPsrs.get_set (q : SavedPsrs) (e x : ExcMode) (p : Psr) :
    (q.set e p).get x = if x = e then p else q.get x := by
  cases e <;> cases x <;> rfl

@[simp] theorem SavedPsrs.get_set_self (q : SavedPsrs) (e : ExcMode) (p : Psr) :
    (q.set e p).get e = p := by simp [SavedPsrs.get_set]

theorem SavedPsrs.get_set_ne (q : SavedPsrs) {e x : ExcMode} (p : Psr) (h : x ≠ e) :
    (q.set e p).get x = q.get x := by simp [SavedPsrs.get_set, h]

theorem SavedPsrs.ext_get {a b : SavedPsrs} (h : ∀ x, a.get x = b.get x) : a = b := by
  cases a; cases b
  have h1 := h .fiq; have h2 := h .irq; have h3 := h .svc; have h4 := h .abt; have h5 := h .und
  simp only [SavedPsrs.get] at h1 h2 h3 h4 h5
  subst h1 h2 h3 h4 h5; rfl

/-! ### Modes (10_state R35) -/

@[simp] theorem modeOf_bits (m : Mode) : modeOf m.bits = some m := by cases m <;> rfl

/-- A legal M value is the value of the mode it names. -/
theorem bits_of_modeOf {b : BitVec 5} {m : Mode} (h : modeOf b = some m) : b = m.bits := by
  have := List.find?_some h
  exact (by simpa using this : m.bits = b).symm

theorem Mode.bits_inj {a b : Mode} (h : a.bits = b.bits) : a = b := by
  have := congrArg modeOf h; simpa using this

@[simp] theorem bankOf_bits (m : Mode) : bankOf m.bits = m.exc := by simp [bankOf]

@[simp] theorem ExcMode.mode_exc (e : ExcMode) : e.mode.exc = some e := by cases e <;> rfl

/-- The bank of the current mode in a state that is not stuck. -/
theorem State.bank_of_mode {s : State} {m : Mode} (h : modeOf s.cpsr.m = some m) :
    s.bank = m.exc := by simp [State.bank, bankOf, h]

/-- A state with a bank of its own for R13 and R14 is in that exception mode. -/
theorem State.mode_of_bank {s : State} {e : ExcMode} (h : s.bank = some e) :
    s.cpsr.m = e.mode.bits := by
  unfold State.bank bankOf at h
  cases hm : modeOf s.cpsr.m with
  | none => simp [hm] at h
  | some m =>
    rw [bits_of_modeOf hm]
    rw [hm] at h
    cases m <;> simp [Mode.exc] at h <;> subst h <;> rfl

/-- User mode has the bank that it shares with System mode. -/
theorem State.bank_of_user {s : State} (h : s.cpsr.m = 0b10000#5) : s.bank = none := by
  simp only [State.bank, h]; decide

theorem State.privileged_iff (s : State) : s.privileged = true ↔ s.cpsr.m ≠ 0b10000#5 := by
  simp [State.privileged, Mode.bits]

theorem State.stuck_iff (s : State) : s.stuck = true ↔ modeOf s.cpsr.m = none := by
  simp [State.stuck]

theorem State.not_stuck_iff (s : State) : s.stuck = false ↔ ∃ m, modeOf s.cpsr.m = some m := by
  simp [State.stuck, Option.isNone_eq_false_iff, Option.isSome_iff_exists]

/-! ### Status registers as words (10_state R31) -/

/-- Whatever bits 27:8 read as, the fields of a status register come back from its word. -/
theorem Psr.ofWord_toWord (p : Psr) (reserved : BitVec 20) :
    Psr.ofWord (p.toWord reserved) = p := by
  cases p with
  | mk n z c v i f t m =>
    simp only [Psr.ofWord, Psr.toWord, bit, Psr.mk.injEq]
    have e (k : Nat) : BitVec.getLsbD (w := 1 + 1 + 1 + 1 + 20 + 1 + 1 + 1 + 5)
        (BitVec.ofBool n ++ BitVec.ofBool z ++ BitVec.ofBool c ++ BitVec.ofBool v ++ reserved ++
          BitVec.ofBool i ++ BitVec.ofBool f ++ BitVec.ofBool t ++ m) k =
        if k < 5 then m.getLsbD k else if k - 5 < 1 then (BitVec.ofBool t).getLsbD (k - 5)
        else if k - 5 - 1 < 1 then (BitVec.ofBool f).getLsbD (k - 5 - 1)
        else if k - 5 - 1 - 1 < 1 then (BitVec.ofBool i).getLsbD (k - 5 - 1 - 1)
        else if k - 5 - 1 - 1 - 1 < 20 then reserved.getLsbD (k - 5 - 1 - 1 - 1)
        else if k - 28 < 1 then (BitVec.ofBool v).getLsbD (k - 28)
        else if k - 29 < 1 then (BitVec.ofBool c).getLsbD (k - 29)
        else if k - 30 < 1 then (BitVec.ofBool z).getLsbD (k - 30)
        else (BitVec.ofBool n).getLsbD (k - 31) := by
      simp only [BitVec.getLsbD_append, Nat.sub_sub]
    refine ⟨?_, ?_, ?_, ?_, ?_, ?_, ?_, ?_⟩
    iterate 7 exact (e _).trans (by simp)
    apply BitVec.eq_of_getLsbD_eq
    intro k hk
    rw [BitVec.getLsbD_extractLsb', Nat.zero_add]
    simp only [hk, decide_true, Bool.true_and]
    exact (e k).trans (by simp [hk])

/-! ### Conditions -/

/-- The flags decide the conditions: no other bit of a status register does (30_encoding R84). -/
theorem condPassed_congr {p q : Psr} (hn : p.n = q.n) (hz : p.z = q.z) (hc : p.c = q.c)
    (hv : p.v = q.v) (k : Cond) : condPassed p k = condPassed q k := by
  cases k <;> simp [condPassed, hn, hz, hc, hv]

@[simp] theorem condPassed_al (p : Psr) : condPassed p .al = true := rfl

end Sys2Proof.Machine
end

