-- ==== Sys2Proof/Laws/Control.lean ====
section
/-! SUPPORT. What each shared operation can do: the condition guard, the writes of the pc, the return from an exception, the taking of one, the writes of the status registers, the single transfers and the swap. -/

namespace Sys2Proof.Machine

/-! ### Frames -/

theorem State.Keeps.refl (s : State) (l : List PhysReg) : s.Keeps s l :=
  ⟨fun _ _ => rfl, rfl, fun _ => rfl, rfl, rfl, rfl⟩

theorem State.Keeps.trans {s t u : State} {l : List PhysReg} (h : s.Keeps t l) (k : t.Keeps u l) :
    s.Keeps u l :=
  ⟨fun p hp => (k.regs p hp).trans (h.regs p hp), k.spsr.trans h.spsr,
    fun a => (k.mem a).trans (h.mem a), k.stored.trans h.stored, k.platform.trans h.platform,
    k.inputs.trans h.inputs⟩

theorem State.Keeps.mono {s t : State} {l l' : List PhysReg} (h : s.Keeps t l)
    (hl : ∀ p ∈ l, p ∈ l') : s.Keeps t l' :=
  ⟨fun p hp => h.regs p fun hm => hp (hl p hm), h.spsr, h.mem, h.stored, h.platform, h.inputs⟩

/-- The length of an instruction is less than the space. -/
theorem State.instrLen_toNat (s : State) : s.instrLen.toNat = if s.cpsr.t then 2 else 4 := by
  unfold State.instrLen; split_ifs <;> rfl

/-- The sequential advance, from any state with the pc and the operating state of `s`. -/
theorem State.advance_advances {s u : State} (hp : u.pc = s.pc) (ht : u.cpsr.t = s.cpsr.t) :
    s.Advances u.advance s.instrLen := by
  have hl : u.instrLen = s.instrLen := by unfold State.instrLen; rw [ht]
  refine ⟨by rw [State.advance_pc, hp, hl], ?_⟩
  rw [State.advance_pcWrapped, hp, hl, decide_eq_decide, BitVec.toNat_add, State.instrLen_toNat]
  have := s.pc.isLt
  split_ifs <;> omega

theorem State.setPc_lands (s : State) (a : Word) : (s.setPc a).Lands a := ⟨rfl, rfl⟩

theorem State.advance_onlyAdvances (s : State) : s.OnlyAdvances s.advance :=
  ⟨⟨fun _ _ => rfl, rfl, fun _ => rfl, rfl, rfl, rfl⟩, rfl, State.advance_advances rfl rfl, rfl⟩

theorem State.setPc_onlyBranches (s : State) (a : Word) : s.OnlyBranches (s.setPc a) a :=
  ⟨⟨fun _ _ => rfl, rfl, fun _ => rfl, rfl, rfl, rfl⟩, rfl, s.setPc_lands a, rfl⟩

/-- A read of a device keeps everything but the count of free values. -/
theorem State.seen_keeps (s : State) (a : Word) (n : Nat) : s.Keeps (s.seen a n) [] :=
  ⟨fun p _ => by simp, by simp, fun _ => by simp, by simp, by simp, by simp⟩

/-- A write of a register other than R15 keeps everything but that register. -/
theorem State.writeReg_keeps (s : State) {r : RegNum} (v : Word) (h : r ≠ 15#4) :
    s.Keeps (s.writeReg r v) [physOf s.bank r] :=
  ⟨fun p hp => by rw [State.writeReg_get s v h, if_neg (by simpa using hp)],
    by simp, fun a => by simp, by simp, by simp, by simp⟩

/-! ### The condition guard (30_encoding R85) -/

theorem State.whenCond_pass {s : State} {c : Cond} (body : Result) (h : condPassed s.cpsr c = true) :
    s.whenCond c body = body := if_pos h

theorem State.whenCond_fail {s : State} {c : Cond} (body : Result)
    (h : condPassed s.cpsr c = false) : s.whenCond c body = .next s.advance := by
  simp [State.whenCond, h]

@[simp] theorem State.whenCond_al (s : State) (body : Result) : s.whenCond .al body = body := rfl

/-- A guarded instruction that answers a next state either advanced or did its body. -/
theorem State.whenCond_next {s t : State} {c : Cond} {body : Result}
    (h : s.whenCond c body = .next t) :
    (condPassed s.cpsr c = false ∧ t = s.advance) ∨
      (condPassed s.cpsr c = true ∧ body = .next t) := by
  unfold State.whenCond at h
  split_ifs at h with h1
  · exact .inr ⟨h1, h⟩
  · cases h; exact .inl ⟨by simpa using h1, rfl⟩

/-! ### Writes of the pc (41_data_processing R131) -/

theorem State.branchArm_aligned (s : State) {r : Word} (h : r.toNat % 4 = 0) :
    s.branchArm r = .next (s.setPc r) := by
  rw [State.branchArm, (misaligned_eq_false r 4).2 h]; simp

theorem State.branchArm_misaligned (s : State) {r : Word} (h : r.toNat % 4 ≠ 0) :
    s.branchArm r = .refused .armTargetNotAligned := by
  rw [State.branchArm, (misaligned_iff r 4).2 h]; simp

theorem State.branchArm_next {s t : State} {r : Word} (h : s.branchArm r = .next t) :
    r.toNat % 4 = 0 ∧ t = s.setPc r := by
  unfold State.branchArm at h
  split_ifs at h with h1
  cases h
  exact ⟨(misaligned_eq_false r 4).1 (by simpa using h1), rfl⟩

/-! ### The return from an exception (41_data_processing R132) -/

theorem State.exceptionReturn_noSpsr {s : State} (r : Word) (h : s.bank = none) :
    s.exceptionReturn r = .refused .noSpsr := by
  unfold State.exceptionReturn; rw [h]

theorem State.exceptionReturn_stuck {s : State} {e : ExcMode} (r : Word) (h : s.bank = some e)
    (hm : modeOf (s.spsr.get e).m = none) :
    s.exceptionReturn r = .next (s.setCpsr (s.spsr.get e)) := by
  unfold State.exceptionReturn; rw [h]; simp [hm]

/-- A return to an aligned address restores the CPSR from the SPSR and goes there. -/
theorem State.exceptionReturn_done {s : State} {e : ExcMode} {r : Word} (h : s.bank = some e)
    (hm : modeOf (s.spsr.get e).m ≠ none)
    (ha : r.toNat % (if (s.spsr.get e).t then 2 else 4) = 0) :
    s.exceptionReturn r = .next ((s.setCpsr (s.spsr.get e)).setPc r) := by
  unfold State.exceptionReturn; rw [h]
  cases ht : (s.spsr.get e).t <;> simp only [ht, Bool.false_eq_true, if_false, if_true] at ha <;>
    simp [hm, ht, (misaligned_eq_false _ _).2 ha]

theorem State.exceptionReturn_arm_misaligned {s : State} {e : ExcMode} {r : Word}
    (h : s.bank = some e) (hm : modeOf (s.spsr.get e).m ≠ none) (ht : (s.spsr.get e).t = false)
    (ha : r.toNat % 4 ≠ 0) : s.exceptionReturn r = .refused .armTargetNotAligned := by
  unfold State.exceptionReturn; rw [h]; simp [hm, ht, (misaligned_iff _ _).2 ha]

theorem State.exceptionReturn_thumb_misaligned {s : State} {e : ExcMode} {r : Word}
    (h : s.bank = some e) (hm : modeOf (s.spsr.get e).m ≠ none) (ht : (s.spsr.get e).t = true)
    (ha : r.toNat % 2 ≠ 0) : s.exceptionReturn r = .refused .thumbTargetNotAligned := by
  unfold State.exceptionReturn; rw [h]; simp [hm, ht, (misaligned_iff _ _).2 ha]

/-- Everything that a return which answers a next state can have done. -/
theorem State.exceptionReturn_next {s t : State} {r : Word} (h : s.exceptionReturn r = .next t) :
    ∃ e, s.bank = some e ∧
      ((modeOf (s.spsr.get e).m = none ∧ t = s.setCpsr (s.spsr.get e)) ∨
        (modeOf (s.spsr.get e).m ≠ none ∧ r.toNat % (if (s.spsr.get e).t then 2 else 4) = 0 ∧
          t = (s.setCpsr (s.spsr.get e)).setPc r)) := by
  cases hb : s.bank with
  | none => rw [State.exceptionReturn_noSpsr r hb] at h; cases h
  | some e =>
    refine ⟨e, rfl, ?_⟩
    by_cases hm : modeOf (s.spsr.get e).m = none
    · rw [State.exceptionReturn_stuck r hb hm] at h; cases h; exact .inl ⟨hm, rfl⟩
    · right
      by_cases ha : r.toNat % (if (s.spsr.get e).t then 2 else 4) = 0
      · rw [State.exceptionReturn_done hb hm ha] at h; cases h; exact ⟨hm, ha, rfl⟩
      · cases ht : (s.spsr.get e).t
        · rw [State.exceptionReturn_arm_misaligned hb hm ht (by simpa [ht] using ha)] at h; cases h
        · rw [State.exceptionReturn_thumb_misaligned hb hm ht (by simpa [ht] using ha)] at h; cases h

/-! ### How MOV, SUB and ADD end (41_data_processing R127 to R132) -/

theorem State.writeResult_reg (s : State) (S : Bool) {rd : RegNum} (r : Word) (flags : Psr)
    (h : rd ≠ 15#4) : s.writeResult S rd r flags =
      .next (((s.writeReg rd r).setCpsr (if S then flags else s.cpsr)).advance) := by
  cases S
  · simp only [State.writeResult, if_neg h, Bool.false_eq_true, if_false]
    congr 2
    rw [State.writeReg_of_ne s r h]; rfl
  · simp [State.writeResult, h]

@[simp] theorem State.writeResult_r15 (s : State) (S : Bool) (r : Word) (flags : Psr) :
    s.writeResult S 15#4 r flags = if S then s.exceptionReturn r else s.branchArm r := rfl

/-- Everything that MOV, SUB and ADD can have done when they answer a next state. -/
theorem State.writeResult_next {s t : State} {S : Bool} {rd : RegNum} {r : Word} {flags : Psr}
    (h : s.writeResult S rd r flags = .next t) :
    (rd ≠ 15#4 ∧ t = ((s.writeReg rd r).setCpsr (if S then flags else s.cpsr)).advance) ∨
    (rd = 15#4 ∧ S = false ∧ r.toNat % 4 = 0 ∧ t = s.setPc r) ∨
    (rd = 15#4 ∧ S = true ∧ s.exceptionReturn r = .next t) := by
  by_cases hr : rd = 15#4
  · subst hr
    cases S
    · exact .inr (.inl ⟨rfl, rfl, State.branchArm_next h⟩)
    · exact .inr (.inr ⟨rfl, rfl, h⟩)
  · rw [State.writeResult_reg s S r flags hr] at h
    cases h
    exact .inl ⟨hr, rfl⟩

/-! ### Branch and exchange -/

/-- Everything that BX can have done when it answers a next state. -/
theorem State.exchange_next {s t : State} {v : Word} (h : s.exchange v = .next t) :
    (v.getLsbD 0 = true ∧ t = (s.setCpsr { s.cpsr with t := true }).setPc (v &&& 0xFFFFFFFE#32)) ∨
    (v.getLsbD 0 = false ∧ v.getLsbD 1 = false ∧
      t = (s.setCpsr { s.cpsr with t := false }).setPc v) := by
  unfold State.exchange at h
  by_cases h0 : v.getLsbD 0 = true
  · rw [if_pos h0] at h; cases h; exact .inl ⟨h0, rfl⟩
  · rw [if_neg h0] at h
    by_cases h1 : v.getLsbD 1 = true
    · rw [if_pos h1] at h; cases h
    · rw [if_neg h1] at h; cases h; exact .inr ⟨by simpa using h0, by simpa using h1, rfl⟩

theorem State.writeHigh_next {s t : State} {rd : RegNum} {r : Word} (h : s.writeHigh rd r = .next t) :
    (rd = 15#4 ∧ t = s.setPc (r &&& 0xFFFFFFFE#32)) ∨
      (rd ≠ 15#4 ∧ t = (s.writeReg rd r).advance) := by
  unfold State.writeHigh at h
  split_ifs at h with h1 <;> cases h
  · exact .inl ⟨h1, rfl⟩
  · exact .inr ⟨h1, rfl⟩

/-- Bit 0 cleared: the even number below. -/
theorem clearBit0_toNat (v : Word) : (v &&& 0xFFFFFFFE#32).toNat = 2 * (v.toNat / 2) := by
  have h : v &&& 0xFFFFFFFE#32 = (v >>> 1) <<< 1 := by
    apply BitVec.eq_of_getLsbD_eq
    intro i hi
    have hm : ∀ i < 32, (0xFFFFFFFE#32).getLsbD i = decide (i ≠ 0) := by decide
    rw [BitVec.getLsbD_and, hm i hi, BitVec.getLsbD_shiftLeft, BitVec.getLsbD_ushiftRight]
    rcases i with _ | i
    · simp
    · simp [hi, Nat.add_comm]
  rw [h, BitVec.toNat_shiftLeft, BitVec.toNat_ushiftRight, Nat.shiftRight_eq_div_pow,
    Nat.shiftLeft_eq, Nat.mod_eq_of_lt (by have := v.isLt; omega)]
  omega

/-- Bit 0 as a remainder. -/
theorem getLsbD_zero_iff (v : Word) : v.getLsbD 0 = true ↔ v.toNat % 2 = 1 := by
  simp [BitVec.getLsbD, Nat.testBit_zero]

/-- The two low bits as a remainder. -/
theorem low_bits_zero_iff (v : Word) :
    (v.getLsbD 0 = false ∧ v.getLsbD 1 = false) ↔ v.toNat % 4 = 0 := by
  simp only [BitVec.getLsbD, Nat.testBit, Nat.shiftRight_eq_div_pow, Nat.one_and_eq_mod_two]
  simp
  omega

/-! ### Writes of the status registers (42_psr_transfer R153 to R155) -/

theorem Psr.maskedFlags_ift (p : Psr) (mask : BitVec 4) (w : Word) :
    (p.maskedFlags mask w).i = p.i ∧ (p.maskedFlags mask w).f = p.f ∧
    (p.maskedFlags mask w).t = p.t ∧ (p.maskedFlags mask w).m = p.m := by
  unfold Psr.maskedFlags; split_ifs <;> exact ⟨rfl, rfl, rfl, rfl⟩

/-- Everything that a write of the CPSR can have done when it answers a next state. -/
theorem State.writeCpsr_next {s t : State} {mask : BitVec 4} {w : Word}
    (h : s.writeCpsr mask w = .next t) :
    ((mask.getLsbD 0 && s.privileged) = false ∧
      t = (s.setCpsr (s.cpsr.maskedFlags mask w)).advance) ∨
    ((mask.getLsbD 0 && s.privileged) = true ∧ w.getLsbD 5 = s.cpsr.t ∧
      ((modeOf (w.extractLsb' 0 5) = none ∧
          t = s.setCpsr { s.cpsr.maskedFlags mask w with m := w.extractLsb' 0 5 }) ∨
        (modeOf (w.extractLsb' 0 5) ≠ none ∧
          t = (s.setCpsr { s.cpsr.maskedFlags mask w with
            i := w.getLsbD 7, f := w.getLsbD 6, m := w.extractLsb' 0 5 }).advance))) := by
  unfold State.writeCpsr at h
  by_cases h1 : (mask.getLsbD 0 && s.privileged) = true
  · simp only [h1, if_true] at h
    by_cases h2 : w.getLsbD 5 = s.cpsr.t
    · simp only [h2, bne_self_eq_false, Bool.false_eq_true, if_false] at h
      by_cases h3 : modeOf (w.extractLsb' 0 5) = none
      · simp only [h3, Option.isNone_none, if_true] at h
        cases h
        exact .inr ⟨h1, h2, .inl ⟨h3, rfl⟩⟩
      · rw [if_neg (by simpa using h3)] at h
        cases h
        exact .inr ⟨h1, h2, .inr ⟨h3, rfl⟩⟩
    · rw [if_pos (by simpa using h2)] at h; cases h
  · simp only [h1] at h
    cases h
    exact .inl ⟨by simpa using h1, rfl⟩

/-- Everything that a write of a status register can have done when it answers a next state. -/
theorem State.writePsr_next {s t : State} {sel : PsrSel} {mask : BitVec 4} {w : Word}
    (h : s.writePsr sel mask w = .next t) :
    (sel = .cpsr ∧ s.writeCpsr mask w = .next t) ∨
    (sel = .spsr ∧ ∃ e, s.bank = some e ∧
      t = (s.setSpsr e ((s.spsr.get e).maskedSaved mask w)).advance) := by
  cases sel with
  | cpsr => exact .inl ⟨rfl, h⟩
  | spsr =>
    right
    refine ⟨rfl, ?_⟩
    simp only [State.writePsr] at h
    cases hb : s.bank with
    | none => rw [hb] at h; cases h
    | some e => rw [hb] at h; cases h; exact ⟨e, rfl, rfl⟩

/-! ### Taking an exception (60_exceptions R230) -/

/-- The entry of an exception, in the words of the statements. -/
theorem State.raise_takes (s : State) (e : ExceptionKind) :
    s.Takes (s.raise e) e.entryMode e.entryMode.mode.bits e.vector e.setsF (s.returnValue e) where
  link := by simp
  saved := by simp
  mode := rfl
  armState := rfl
  irqMasked := rfl
  fiqMask := rfl
  flags := ⟨rfl, rfl, rfl, rfl⟩
  pc := ⟨rfl, rfl⟩
  regs p hp := by simp [Regs.get_set, hp]
  spsrs x hx := by simp [SavedPsrs.get_set, hx]
  mem _ := rfl
  stored := rfl
  platform := rfl
  inputs := rfl
  draws := rfl

@[simp] theorem State.raise_bank_eq (s : State) (e : ExceptionKind) :
    (s.raise e).bank = some e.entryMode := by
  simp [State.bank, ExceptionKind.cpsrAfter]

@[simp] theorem State.raise_not_stuck (s : State) (e : ExceptionKind) :
    (s.raise e).stuck = false := by
  simp [State.stuck, ExceptionKind.cpsrAfter]

@[simp] theorem State.resetException_not_stuck (s : State) : s.resetException.stuck = false := by
  simp [State.stuck, ExceptionKind.cpsrAfter]

/-! ### Single transfers (43_data_transfer R160 to R164, R172) -/

theorem Index.refusal_none_iff (ix : Index) (rn rd : RegNum) :
    ix.refusal rn rd = none ↔ (ix.writesBack = true → rn ≠ 15#4 ∧ rn ≠ rd) := by
  unfold Index.refusal
  cases ix.writesBack
  · simp
  · by_cases h1 : rn = 15#4
    · simp [h1]
    · by_cases h2 : rn = rd
      · subst h2; simp [h1]
      · simp [h1, h2]

/-- What an aborted single transfer does, with the base as the abort model has it. -/
theorem State.abortTransfer_eq (s : State) (ix : Index) (rn : RegNum) (off : Word) :
    s.abortTransfer ix rn off =
      .next ((if s.platform.abortModel = .baseUpdated then s.writeBack ix rn off else s).raise
        .dataAbort) := by
  unfold State.abortTransfer
  cases s.platform.abortModel <;> simp

/-- Everything that LDR can have done when it answers a next state. -/
theorem State.loadWord_next {s t : State} {ix : Index} {up : Bool} {rn rd : RegNum}
    {imm : BitVec 12} (h : s.loadWord ix up rn rd imm = .next t) :
    ix.refusal rn rd = none ∧
    ((∃ v, s.memRead (s.transferAddr ix up rn imm) 4 = .ok v ∧
        (let u := (s.seen (s.transferAddr ix up rn imm) 4).writeBack ix rn (s.offAddr up rn imm)
         (rd = 15#4 ∧ v.toNat % 4 = 0 ∧ t = u.setPc v) ∨
          (rd ≠ 15#4 ∧ t = (u.writeReg rd v).advance))) ∨
      (s.memRead (s.transferAddr ix up rn imm) 4 = .abort ∧
        s.abortTransfer ix rn (s.offAddr up rn imm) = .next t)) := by
  unfold State.loadWord at h
  cases hr : ix.refusal rn rd with
  | some r => rw [hr] at h; cases h
  | none =>
    rw [hr] at h
    refine ⟨rfl, ?_⟩
    rcases Access.andThen_next h with ⟨v, hv, h⟩ | ⟨hv, h⟩
    · refine .inl ⟨v, hv, ?_⟩
      split_ifs at h with h1
      · exact .inl ⟨h1, State.branchArm_next h⟩
      · cases h; exact .inr ⟨h1, rfl⟩
    · exact .inr ⟨hv, h⟩

/-- Everything that LDRB can have done when it answers a next state. -/
theorem State.loadByte_next {s t : State} {ix : Index} {up : Bool} {rn rd : RegNum}
    {imm : BitVec 12} (h : s.loadByte ix up rn rd imm = .next t) :
    ix.refusal rn rd = none ∧ rd ≠ 15#4 ∧
    ((∃ v, s.memRead (s.transferAddr ix up rn imm) 1 = .ok v ∧
        t = (((s.seen (s.transferAddr ix up rn imm) 1).writeBack ix rn
          (s.offAddr up rn imm)).writeReg rd v).advance) ∨
      (s.memRead (s.transferAddr ix up rn imm) 1 = .abort ∧
        s.abortTransfer ix rn (s.offAddr up rn imm) = .next t)) := by
  unfold State.loadByte at h
  cases hr : ix.refusal rn rd with
  | some r => rw [hr] at h; cases h
  | none =>
    rw [hr] at h
    by_cases h1 : rd = 15#4
    · simp [h1] at h
    · simp only [h1, if_false] at h
      refine ⟨rfl, h1, ?_⟩
      rcases Access.andThen_next h with ⟨v, hv, h⟩ | ⟨hv, h⟩
      · cases h; exact .inl ⟨v, hv, rfl⟩
      · exact .inr ⟨hv, h⟩

/-- Everything that STR and STRB can have done when they answer a next state. -/
theorem State.storeReg_next {s t : State} {n : Nat} {ofR15 : Refusal} {ix : Index} {up : Bool}
    {rn rd : RegNum} {imm : BitVec 12} (h : s.storeReg n ofR15 ix up rn rd imm = .next t) :
    ix.refusal rn rd = none ∧ rd ≠ 15#4 ∧
    ((s.Reaches .write (s.transferAddr ix up rn imm) n ∧
        t = ((s.store (s.transferAddr ix up rn imm) n (s.readReg rd)).writeBack ix rn
          (s.offAddr up rn imm)).advance) ∨
      (s.Aborts .write (s.transferAddr ix up rn imm) n ∧
        s.abortTransfer ix rn (s.offAddr up rn imm) = .next t)) := by
  unfold State.storeReg at h
  cases hr : ix.refusal rn rd with
  | some r => rw [hr] at h; cases h
  | none =>
    rw [hr] at h
    by_cases h1 : rd = 15#4
    · simp [h1] at h
    · simp only [h1, if_false] at h
      refine ⟨rfl, h1, ?_⟩
      rcases Access.andThen_next h with ⟨u, hu, h⟩ | ⟨hu, h⟩
      · cases h
        obtain ⟨ha, rfl⟩ := State.memWrite_ok.1 hu
        exact .inl ⟨ha, rfl⟩
      · exact .inr ⟨State.memWrite_abort.1 hu, h⟩

/-! ### Swap (43_data_transfer R170, R171, R173) -/

theorem swapRefusal_none_iff (rn rd rm : RegNum) :
    swapRefusal rn rd rm = none ↔
      rn ≠ 15#4 ∧ rd ≠ 15#4 ∧ rm ≠ 15#4 ∧ rn ≠ rd ∧ rn ≠ rm := by
  unfold swapRefusal
  split_ifs with h1 h2
  · simp; tauto
  · simp; tauto
  · simp; tauto

/-- Everything that SWP and SWPB can have done when they answer a next state. -/
theorem State.swap_next {s t : State} {n : Nat} {rn rd rm : RegNum}
    (h : s.swap n rn rd rm = .next t) :
    swapRefusal rn rd rm = none ∧
    ((∃ old, s.memRead (s.readReg rn) n = .ok old ∧
        (s.seen (s.readReg rn) n).Reaches .write (s.readReg rn) n ∧
        t = (((s.seen (s.readReg rn) n).store (s.readReg rn) n (s.readReg rm)).writeReg rd
          old).advance) ∨
      t = s.raise .dataAbort ∨ t = (s.seen (s.readReg rn) n).raise .dataAbort) := by
  unfold State.swap at h
  cases hr : swapRefusal rn rd rm with
  | some r => rw [hr] at h; cases h
  | none =>
    rw [hr] at h
    refine ⟨rfl, ?_⟩
    rcases Access.andThen_next h with ⟨v, hv, h⟩ | ⟨-, h⟩
    · rcases Access.andThen_next h with ⟨u, hu, h⟩ | ⟨-, h⟩
      · cases h
        obtain ⟨ha, rfl⟩ := State.memWrite_ok.1 hu
        exact .inl ⟨v, hv, ha, rfl⟩
      · cases h; exact .inr (.inr rfl)
    · cases h; exact .inr (.inl rfl)

end Sys2Proof.Machine
end

