-- ==== Sys2Proof/Laws/Block.lean ====
section
/-! SUPPORT. Block transfers: the slots of the registers of a list, what the reads and the stores come to, and everything LDM and STM can do. -/

namespace Sys2Proof.Machine

/-! ### The list and its slots (43_data_transfer R166) -/

/-- The registers of a list. -/
theorem mem_regList {list : BitVec 16} {r : RegNum} :
    r ∈ regList list ↔ list.getLsbD r.toNat = true := by
  simp only [regList, List.mem_map, List.mem_filter, List.mem_range]
  constructor
  · rintro ⟨i, ⟨hi, hl⟩, rfl⟩
    rwa [BitVec.toNat_ofNat, Nat.mod_eq_of_lt (by omega)]
  · intro h
    exact ⟨r.toNat, ⟨r.isLt, h⟩, by simp⟩

/-- The registers of a list come in ascending order. -/
theorem regList_sorted (list : BitVec 16) :
    (regList list).Pairwise fun a b => a.toNat < b.toNat := by
  rw [regList, List.pairwise_map]
  refine (List.Pairwise.filter _ List.pairwise_lt_range).imp_of_mem fun {a b} ha hb h => ?_
  have ha := List.mem_range.1 (List.mem_filter.1 ha).1
  have hb := List.mem_range.1 (List.mem_filter.1 hb).1
  simp only [BitVec.toNat_ofNat]
  omega

/-- The registers of a list up to `n` are as many as the slots below `n`. -/
theorem regList_length (list : BitVec 16) : (regList list).length = slotOf list 16 := by
  simp [regList, slotOf]

/-- `n` word addresses as a map. -/
theorem wordAddrs_eq (start : Word) (n : Nat) :
    wordAddrs start n = (List.range n).map fun i => start + BitVec.ofNat 32 (4 * i) := by
  induction n generalizing start with
  | zero => rfl
  | succ n ih =>
    rw [wordAddrs, ih, List.range_succ_eq_map, List.map_cons, List.map_map]
    congr 1
    · simp
    · apply List.map_congr_left
      intro i _
      simp only [Function.comp]
      rw [BitVec.add_assoc]
      congr 1
      rw [show 4 * i.succ = 4 + 4 * i by omega, BitVec.ofNat_add]

/-- Numbering the elements that pass a test by how many pass it before them. -/
theorem map_slot_range (p : Nat → Bool) (n : Nat) :
    ((List.range n).filter p).map (fun i => ((List.range i).filter p).length) =
      List.range ((List.range n).filter p).length := by
  induction n with
  | zero => rfl
  | succ n ih =>
    rw [List.range_succ, List.filter_append, List.map_append, ih, List.length_append]
    cases h : p n
    · simp [h]
    · simp [h, List.range_succ]

/-- The addresses of a block transfer are the slot addresses of its registers. -/
theorem blockAddrs_eq (mode : BlockMode) (base : Word) (list : BitVec 16) :
    blockAddrs mode base list =
      (regList list).map (slotAddr (blockStart mode base list) list) := by
  rw [blockAddrs, wordAddrs_eq]
  have h := map_slot_range (fun i => list.getLsbD i) 16
  have hl : (regList list).length = ((List.range 16).filter fun i => list.getLsbD i).length := by
    simp [regList]
  rw [hl, ← h, regList, List.map_map, List.map_map]
  apply List.map_congr_left
  intro i hi
  have hi := List.mem_range.1 (List.mem_filter.1 hi).1
  simp [slotAddr, slotOf, Nat.mod_eq_of_lt hi]

/-- There are at most as many slots below `n` as numbers. -/
theorem slotOf_le (list : BitVec 16) (n : Nat) : slotOf list n ≤ n := by
  unfold slotOf
  exact (List.length_filter_le _ _).trans (by simp)

theorem slotOf_succ (list : BitVec 16) (n : Nat) :
    slotOf list (n + 1) = slotOf list n + (if list.getLsbD n then 1 else 0) := by
  unfold slotOf
  rw [List.range_succ, List.filter_append, List.length_append]
  cases h : list.getLsbD n <;> simp [h]

theorem slotOf_mono (list : BitVec 16) {m n : Nat} (h : m ≤ n) : slotOf list m ≤ slotOf list n := by
  induction n with
  | zero => rw [Nat.le_zero.1 h]
  | succ n ih =>
    rcases Nat.lt_or_ge m (n + 1) with h1 | h1
    · rw [slotOf_succ]; have := ih (by omega); omega
    · rw [Nat.le_antisymm h h1]

/-- A listed register has a slot of its own, below those of the registers above it. -/
theorem slotOf_lt (list : BitVec 16) {a : RegNum} {n : Nat} (ha : list.getLsbD a.toNat = true)
    (h : a.toNat < n) : slotOf list a.toNat < slotOf list n := by
  have h1 := slotOf_succ list a.toNat
  rw [if_pos ha] at h1
  have := slotOf_mono list (show a.toNat + 1 ≤ n by omega)
  omega

/-- Different listed registers are transferred at addresses that share no byte. -/
theorem slotAddr_disjoint {start : Word} {list : BitVec 16} {a b : RegNum}
    (ha : list.getLsbD a.toNat = true) (hb : list.getLsbD b.toNat = true) (h : a ≠ b) {j k : Nat}
    (hj : j < 4) (hk : k < 4) :
    byteAddr (slotAddr start list a) j ≠ byteAddr (slotAddr start list b) k := by
  have key : slotOf list a.toNat ≠ slotOf list b.toNat := by
    rcases Nat.lt_trichotomy a.toNat b.toNat with h1 | h1 | h1
    · exact (slotOf_lt list ha h1).ne
    · exact absurd (BitVec.eq_of_toNat_eq h1) h
    · exact (slotOf_lt list hb h1).ne'
  have h1 := (slotOf_le list a.toNat).trans a.isLt.le
  have h2 := (slotOf_le list b.toNat).trans b.isLt.le
  simp only [byteAddr, slotAddr, BitVec.toNat_add, BitVec.toNat_ofNat]
  omega

/-! ### Reads -/

@[simp] theorem State.seenAll_regs (s : State) (as : List Word) : (s.seenAll as).regs = s.regs := by
  induction as generalizing s with
  | nil => rfl
  | cons a as ih => exact (ih (s.seen a 4)).trans (by simp)

/-- Reads of devices change nothing but the count of free values. -/
theorem State.seenAll_eq (s : State) (as : List Word) :
    ∃ n, s.seenAll as = { s with draws := n } := by
  induction as generalizing s with
  | nil => exact ⟨s.draws, rfl⟩
  | cons a as ih =>
    obtain ⟨k, hk⟩ := s.seen_eq a 4
    obtain ⟨n, hn⟩ := ih (s.seen a 4)
    exact ⟨n, hn.trans (by rw [hk])⟩

/-- Reads of memory alone change nothing. -/
theorem State.seenAll_of_memory {s : State} {as : List Word}
    (h : ∀ a ∈ as, ∀ k < 4, s.platform.kindAt (byteAddr a k) = some .memory) : s.seenAll as = s := by
  induction as with
  | nil => rfl
  | cons a as ih =>
    change (s.seen a 4).seenAll as = s
    rw [State.seen_of_memory (h a (by simp))]
    exact ih fun b hb => h b (by simp [hb])

/-- Reads that all go through to memory give all values. -/
theorem State.loadWords_done {s : State} {rs : List RegNum} {f g : RegNum → Word}
    (h : ∀ r ∈ rs, s.Accessible .read (f r) 4 ∧ s.memRead (f r) 4 = .ok (g r)) :
    s.loadWords (rs.map f) = .done (rs.map g) := by
  induction rs with
  | nil => rfl
  | cons r rs ih =>
    obtain ⟨ha, hv⟩ := h r (by simp)
    simp only [List.map_cons, State.loadWords, hv, State.seen_of_memory ha.mapped,
      ih fun q hq => h q (by simp [hq]), Block.consRead]

/-- Reads of which every byte has a value all give values. -/
theorem State.loadWords_readable {s : State} {as : List Word}
    (h : ∀ a ∈ as, s.Readable .read a 4) : ∃ vs, s.loadWords as = .done vs ∧ vs.length = as.length := by
  induction as generalizing s with
  | nil => exact ⟨[], rfl, rfl⟩
  | cons a as ih =>
    obtain ⟨v, hv⟩ := State.memRead_readable (h a (by simp))
    obtain ⟨vs, hs, hl⟩ := ih (s := s.seen a 4) fun b hb =>
      (h b (by simp [hb])).congr (by simp) (by simp) (by simp)
    refine ⟨v :: vs, ?_, by simp [hl]⟩
    simp only [State.loadWords, hv, hs, Block.consRead]

/-- Reads of which one misses, every byte before it having a value, are refused. -/
theorem State.loadWords_misses {s : State} {xs ys : List Word} {a : Word}
    (h : ∀ x ∈ xs, s.Readable .read x 4) (ha : s.Misses .read a 4) :
    s.loadWords (xs ++ a :: ys) = .refuse .unmapped := by
  induction xs generalizing s with
  | nil => simp only [List.nil_append, State.loadWords, State.memRead_misses ha]
  | cons x xs ih =>
    obtain ⟨v, hv⟩ := State.memRead_readable (h x (by simp))
    have := ih (s := s.seen x 4) (fun y hy => (h y (by simp [hy])).congr (by simp) (by simp) (by simp))
      (ha.congr (by simp) (by simp))
    simp only [List.cons_append, State.loadWords, hv, this, Block.consRead]

/-- Reads of which one aborts give the values before it, if the later ones may be issued. -/
theorem State.loadWords_aborted {s : State} {rs qs : List RegNum} {r0 : RegNum} {f g : RegNum → Word}
    (h : ∀ r ∈ rs, s.Accessible .read (f r) 4 ∧ s.memRead (f r) 4 = .ok (g r))
    (h0 : s.memRead (f r0) 4 = .abort)
    (hq : s.issueReads (qs.map f) = none) :
    s.loadWords ((rs ++ r0 :: qs).map f) = .aborted (rs.map g) := by
  induction rs with
  | nil => simp only [List.nil_append, List.map_cons, State.loadWords, h0, hq, List.map_nil]
  | cons r rs ih =>
    obtain ⟨ha, hv⟩ := h r (by simp)
    simp only [List.cons_append, List.map_cons, State.loadWords, hv, State.seen_of_memory ha.mapped,
      ih fun q hq => h q (by simp [hq]), Block.consRead]

/-- Reads issued after an abort stop nothing where each is accessible or aborts. -/
theorem State.issueReads_none {s : State} {as : List Word}
    (h : ∀ a ∈ as, s.Accessible .read a 4 ∨ s.Aborts .read a 4) : s.issueReads as = none := by
  induction as with
  | nil => rfl
  | cons a as ih =>
    have ih := ih fun x hx => h x (by simp [hx])
    rcases h a (by simp) with h1 | h1
    · simp only [State.issueReads, (State.checkAccess_ok _ _ _ _).2 h1.reaches, ih]
    · simp only [State.issueReads, (State.checkAccess_abort _ _ _ _).2 h1, ih]

/-! ### Loaded registers -/

/-- The loaded values change general registers of the current bank only. -/
theorem State.writeRegs_frame (s : State) (xs : List (RegNum × Word)) :
    ∃ g, s.writeRegs xs = { s with regs := g } := by
  induction xs generalizing s with
  | nil => exact ⟨s.regs, rfl⟩
  | cons x xs ih =>
    obtain ⟨r, v⟩ := x
    rw [State.writeRegs]
    split_ifs with h
    · exact ih s
    · obtain ⟨g, hg⟩ := ih (s.writeReg r v)
      exact ⟨g, by rw [hg, State.writeReg_of_ne s v h]⟩

/-- A register that no loaded name reaches keeps its value. -/
theorem State.writeRegs_get_of_ne (s : State) (xs : List (RegNum × Word)) {p : PhysReg}
    (h : ∀ x ∈ xs, x.1 ≠ 15#4 → p ≠ physOf s.bank x.1) :
    (s.writeRegs xs).regs.get p = s.regs.get p := by
  induction xs generalizing s with
  | nil => rfl
  | cons x xs ih =>
    obtain ⟨r, v⟩ := x
    rw [State.writeRegs]
    split_ifs with h1
    · exact ih s fun y hy => h y (by simp [hy])
    · rw [ih (s.writeReg r v) fun y hy => by rw [State.writeReg_bank]; exact h y (by simp [hy]),
        State.writeReg_get s v h1, if_neg (h (r, v) (by simp) h1)]

/-- A loaded register holds its value, where the values are a function of the names. -/
theorem State.writeRegs_get (s : State) (rs : List RegNum) (g : RegNum → Word) {r : RegNum}
    (hr : r ∈ rs) (h15 : r ≠ 15#4) :
    (s.writeRegs (rs.map fun q => (q, g q))).regs.get (physOf s.bank r) = g r := by
  induction rs generalizing s with
  | nil => simp at hr
  | cons q rs ih =>
    rw [List.map_cons, State.writeRegs]
    by_cases hm : r ∈ rs
    · split_ifs with h1
      · exact ih s hm
      · have := ih (s.writeReg q (g q)) hm
        rwa [State.writeReg_bank] at this
    · have hq : r = q := by simpa [hm] using hr
      subst hq
      rw [if_neg h15, State.writeRegs_get_of_ne, State.writeReg_get s _ h15, if_pos rfl]
      intro x hx hx15 he
      obtain ⟨y, hy, rfl⟩ := List.mem_map.1 hx
      rw [State.writeReg_bank, physOf_inj h15 hx15] at he
      exact hm (he ▸ hy)

/-! ### Stores -/

/-- The stores of a list of words, one after the other. -/
def State.storeAll (s : State) (xs : List (Word × Word)) : State :=
  xs.foldl (fun u x => u.store x.1 4 x.2) s

/-- The fields that stores do not touch. -/
structure State.StoresOnly (s t : State) : Prop where
  regs : t.regs = s.regs
  pc : t.pc = s.pc
  cpsr : t.cpsr = s.cpsr
  spsr : t.spsr = s.spsr
  platform : t.platform = s.platform
  inputs : t.inputs = s.inputs
  pcWrapped : t.pcWrapped = s.pcWrapped

theorem State.StoresOnly.refl (s : State) : s.StoresOnly s := ⟨rfl, rfl, rfl, rfl, rfl, rfl, rfl⟩

theorem State.StoresOnly.trans {s t u : State} (h : s.StoresOnly t) (k : t.StoresOnly u) :
    s.StoresOnly u :=
  ⟨k.regs.trans h.regs, k.pc.trans h.pc, k.cpsr.trans h.cpsr, k.spsr.trans h.spsr,
    k.platform.trans h.platform, k.inputs.trans h.inputs, k.pcWrapped.trans h.pcWrapped⟩

theorem State.store_storesOnly (s : State) (a : Word) (n : Nat) (v : Word) :
    s.StoresOnly (s.store a n v) := ⟨rfl, rfl, rfl, rfl, rfl, rfl, rfl⟩

theorem State.storeAll_storesOnly (s : State) (xs : List (Word × Word)) :
    s.StoresOnly (s.storeAll xs) ∧ (s.storeAll xs).draws = s.draws := by
  induction xs generalizing s with
  | nil => exact ⟨.refl s, rfl⟩
  | cons x xs ih =>
    obtain ⟨h1, h2⟩ := ih (s.store x.1 4 x.2)
    exact ⟨(s.store_storesOnly _ _ _).trans h1, h2⟩

/-- Stores leave alone every byte that is none of theirs. -/
theorem State.storeAll_read_outside (s : State) (xs : List (Word × Word)) {a : Nat}
    (h : ∀ x ∈ xs, Outside x.1 4 a) : (s.storeAll xs).mem.read a = s.mem.read a := by
  induction xs generalizing s with
  | nil => rfl
  | cons x xs ih =>
    change ((s.store x.1 4 x.2).storeAll xs).mem.read a = _
    rw [ih _ fun y hy => h y (by simp [hy]), State.store_read_outside s _ (h x (by simp))]

/-- Stores leave alone every byte where a device is. -/
theorem State.storeAll_read_device (s : State) (xs : List (Word × Word)) {a : Nat}
    (h : s.platform.kindAt a = some .device) : (s.storeAll xs).mem.read a = s.mem.read a := by
  induction xs generalizing s with
  | nil => rfl
  | cons x xs ih => exact (ih (s.store x.1 4 x.2) h).trans (State.store_read_device s _ _ _ h)

/-- Stores mark their addresses and no others. -/
theorem State.storeAll_marks (s : State) (xs : List (Word × Word)) (a : Nat) :
    a ∈ (s.storeAll xs).stored ↔ a ∈ s.stored ∨ ∃ x ∈ xs, ¬ Outside x.1 4 a := by
  induction xs generalizing s with
  | nil => simp [State.storeAll]
  | cons x xs ih =>
    refine (ih (s.store x.1 4 x.2)).trans ?_
    rw [State.store_marks]
    simp only [List.mem_cons, exists_eq_or_imp, or_assoc]

/-- Stores that share no byte each leave in place the bytes that go to memory. -/
theorem State.storeAll_byte (s : State) (xs : List (Word × Word))
    (hd : xs.Pairwise fun x y => ∀ j < 4, ∀ k < 4, byteAddr x.1 j ≠ byteAddr y.1 k)
    {x : Word × Word} (hx : x ∈ xs) {k : Nat} (hk : k < 4)
    (hm : s.platform.kindAt (byteAddr x.1 k) = some .memory) :
    (s.storeAll xs).mem.read (byteAddr x.1 k) = some (byteOf s.platform.bigEndian 4 x.2 k) := by
  induction xs generalizing s with
  | nil => simp at hx
  | cons y ys ih =>
    rw [List.pairwise_cons] at hd
    change ((s.store y.1 4 y.2).storeAll ys).mem.read _ = _
    rcases List.mem_cons.1 hx with rfl | hx
    · rw [State.storeAll_read_outside _ _ fun z hz j hj => hd.1 z hz k hk j hj]
      exact s.store_byte x.1 (by omega) x.2 hk hm
    · exact ih (s.store y.1 4 y.2) hd.2 hx hm

/-- Stores to memory that share no byte each leave their word there. -/
theorem State.storeAll_holds (s : State) (xs : List (Word × Word))
    (hd : xs.Pairwise fun x y => ∀ j < 4, ∀ k < 4, byteAddr x.1 j ≠ byteAddr y.1 k)
    {x : Word × Word} (hx : x ∈ xs)
    (hm : ∀ k < 4, s.platform.kindAt (byteAddr x.1 k) = some .memory) :
    (s.storeAll xs).Holds x.1 4 x.2 := by
  intro k hk
  rw [(State.storeAll_storesOnly _ _).1.platform]
  exact s.storeAll_byte xs hd hx hk (hm k hk)

/-- Stores keep the canonical forms of memory and of the marks. -/
theorem State.storeAll_wf {s : State} (h : s.mem.wf) (hs : storedWf s.stored)
    (xs : List (Word × Word)) :
    (s.storeAll xs).mem.wf ∧ storedWf (s.storeAll xs).stored := by
  induction xs generalizing s with
  | nil => exact ⟨h, hs⟩
  | cons x xs ih => exact ih (State.store_wf h _ _ _) (State.store_storedWf hs _ _ _)

/-- Stores that all go through are all done. -/
theorem State.storeWords_done {s : State} {xs : List (Word × Word)}
    (h : ∀ x ∈ xs, s.Reaches .write x.1 4) : s.storeWords xs = .done (s.storeAll xs) := by
  induction xs generalizing s with
  | nil => rfl
  | cons x xs ih =>
    obtain ⟨a, v⟩ := x
    rw [State.storeWords, State.memWrite_ok.2 ⟨h (a, v) (by simp), rfl⟩]
    exact ih fun y hy => (h y (by simp [hy])).congr rfl rfl

/-- Stores of which one misses, the ones before it going through, are refused. -/
theorem State.storeWords_misses {s : State} {xs ys : List (Word × Word)} {a v : Word}
    (h : ∀ x ∈ xs, s.Reaches .write x.1 4) (ha : s.Misses .write a 4) :
    s.storeWords (xs ++ (a, v) :: ys) = .refuse .unmapped := by
  induction xs generalizing s with
  | nil => rw [List.nil_append, State.storeWords, State.memWrite_misses v ha]
  | cons x xs ih =>
    obtain ⟨b, w⟩ := x
    rw [List.cons_append, State.storeWords, State.memWrite_ok.2 ⟨h (b, w) (by simp), rfl⟩]
    exact ih (fun y hy => (h y (by simp [hy])).congr rfl rfl) (ha.congr rfl rfl)

/-- Stores of which one aborts: the earlier are done, the later are issued. -/
theorem State.storeWords_aborted {s : State} {xs ys : List (Word × Word)} {a v : Word}
    (h : ∀ x ∈ xs, s.Reaches .write x.1 4) (ha : s.Aborts .write a 4) :
    s.storeWords (xs ++ (a, v) :: ys) = (s.storeAll xs).issueStores ys := by
  induction xs generalizing s with
  | nil =>
    rw [List.nil_append, State.storeWords, State.memWrite_abort.2 ha]
    rfl
  | cons x xs ih =>
    obtain ⟨b, w⟩ := x
    rw [List.cons_append, State.storeWords, State.memWrite_ok.2 ⟨h (b, w) (by simp), rfl⟩]
    exact ih (fun y hy => (h y (by simp [hy])).congr rfl rfl) (ha.congr rfl rfl)

theorem State.storeAll_drawn (s : State) (xs : List (Word × Word)) :
    s.drawn.storeAll xs = (s.storeAll xs).drawn := by
  induction xs generalizing s with
  | nil => rfl
  | cons x xs ih => exact ih (s.store x.1 4 x.2)

/-- The stores issued after an abort: each is done or leaves no trace, whatever the free values, and one
that is done has gone through. -/
theorem State.issueStores_aborted {s : State} {xs : List (Word × Word)}
    (h : ∀ x ∈ xs, s.Reaches .write x.1 4 ∨ s.Aborts .write x.1 4) :
    ∃ ys n, ys.Sublist xs ∧ (∀ y ∈ ys, s.Reaches .write y.1 4) ∧
      s.issueStores xs = .aborted { s.storeAll ys with draws := n } := by
  induction xs generalizing s with
  | nil => exact ⟨[], s.draws, .slnil, by simp, rfl⟩
  | cons x xs ih =>
    obtain ⟨a, v⟩ := x
    have later (u : State) (hp : u.platform = s.platform) (hm : u.cpsr.m = s.cpsr.m) (x)
        (hx : x ∈ xs) : u.Reaches .write x.1 4 ∨ u.Aborts .write x.1 4 :=
      (h x (by simp [hx])).imp (fun z => z.congr hp hm) (fun z => z.congr hp hm)
    rw [State.issueStores]
    rcases h (a, v) (by simp) with h1 | h1
    · rw [State.memWrite_ok.2 ⟨h1, rfl⟩]
      simp only
      cases Config.freeAccept s.draws
      · obtain ⟨ys, n, hy, hr, he⟩ := ih (s := s.drawn) (later _ rfl rfl)
        exact ⟨ys, n, hy.cons _, fun y h => (hr y h).congr rfl rfl,
          by simpa [State.storeAll_drawn] using he⟩
      · obtain ⟨ys, n, hy, hr, he⟩ := ih (s := (s.store a 4 v).drawn) (later _ rfl rfl)
        rw [State.storeAll_drawn] at he
        refine ⟨(a, v) :: ys, n, hy.cons_cons _, fun y h => ?_, he⟩
        rcases List.mem_cons.1 h with rfl | h
        · exact h1
        · exact (hr y h).congr rfl rfl
    · rw [State.memWrite_abort.2 h1]
      obtain ⟨ys, n, hy, hr, he⟩ := ih (s := s.drawn) (later _ rfl rfl)
      exact ⟨ys, n, hy.cons _, fun y h => (hr y h).congr rfl rfl,
        by simpa [State.storeAll_drawn] using he⟩

/-- Whatever the later stores of an aborted transfer come to, only memory, its marks and the count of
free values can have changed, and the canonical forms are kept. -/
theorem State.issueStores_any {s t : State} {xs : List (Word × Word)}
    (h : s.issueStores xs = .aborted t) :
    s.StoresOnly t ∧ (s.mem.wf → t.mem.wf) ∧ (storedWf s.stored → storedWf t.stored) := by
  induction xs generalizing s with
  | nil => cases h; exact ⟨.refl _, id, id⟩
  | cons x xs ih =>
    obtain ⟨a, v⟩ := x
    rw [State.issueStores] at h
    split at h
    · rename_i u hu
      obtain ⟨-, rfl⟩ := State.memWrite_ok.1 hu
      obtain ⟨h1, h2, h3⟩ := ih h
      cases hc : Config.freeAccept s.draws <;> simp only [hc] at h1 h2 h3
      · exact ⟨⟨h1.regs, h1.pc, h1.cpsr, h1.spsr, h1.platform, h1.inputs, h1.pcWrapped⟩, h2, h3⟩
      · exact ⟨⟨h1.regs, h1.pc, h1.cpsr, h1.spsr, h1.platform, h1.inputs, h1.pcWrapped⟩,
          fun w => h2 (State.store_wf w a 4 v), fun w => h3 (State.store_storedWf w a 4 v)⟩
    · obtain ⟨h1, h2, h3⟩ := ih h
      exact ⟨⟨h1.regs, h1.pc, h1.cpsr, h1.spsr, h1.platform, h1.inputs, h1.pcWrapped⟩, h2, h3⟩
    · cases h
    · cases h

/-- The stores issued after an abort never count as all done. -/
theorem State.issueStores_ne_done {s t : State} {xs : List (Word × Word)} :
    s.issueStores xs ≠ .done t := by
  induction xs generalizing s with
  | nil => simp [State.issueStores]
  | cons x xs ih =>
    obtain ⟨a, v⟩ := x
    rw [State.issueStores]
    split
    · exact ih
    · exact ih
    · simp
    · simp

/-- Whatever the stores of a block transfer come to, only memory, its marks and the count of free
values can have changed, and the canonical forms are kept. -/
theorem State.storeWords_any {s t : State} {xs : List (Word × Word)}
    (h : s.storeWords xs = .done t ∨ s.storeWords xs = .aborted t) :
    s.StoresOnly t ∧ (s.mem.wf → t.mem.wf) ∧ (storedWf s.stored → storedWf t.stored) := by
  induction xs generalizing s with
  | nil =>
    rcases h with h | h
    · cases h; exact ⟨.refl _, id, id⟩
    · cases h
  | cons x xs ih =>
    obtain ⟨a, v⟩ := x
    rw [State.storeWords] at h
    split at h
    · rename_i u hu
      obtain ⟨-, rfl⟩ := State.memWrite_ok.1 hu
      obtain ⟨h1, h2, h3⟩ := ih h
      exact ⟨(s.store_storesOnly _ _ _).trans h1, fun w => h2 (State.store_wf w _ _ _),
        fun w => h3 (State.store_storedWf w _ _ _)⟩
    · rcases h with h | h
      · exact absurd h State.issueStores_ne_done
      · exact State.issueStores_any h
    · rcases h with h | h <;> cases h
    · rcases h with h | h <;> cases h

/-! ### LDM and STM -/

theorem State.blockRefusal_none_iff (s : State) (rn : RegNum) (list : BitVec 16) :
    s.blockRefusal rn list = none ↔
      list ≠ 0#16 ∧ rn ≠ 15#4 ∧ (s.readReg rn).toNat % 4 = 0 := by
  unfold State.blockRefusal
  split_ifs with h1 h2 h3
  · simp [h1]
  · simp [h2]
  · rw [misaligned_iff] at h3; simp [h3]
  · rw [Bool.not_eq_true, misaligned_eq_false] at h3; simp [h1, h2, h3]

/-- Everything that LDM can have done when it answers a next state. -/
theorem State.loadMultiple_next {s t : State} {mode : BlockMode} {wb : Bool} {rn : RegNum}
    {list : BitVec 16} (h : s.loadMultiple mode wb rn list = .next t) :
    s.blockRefusal rn list = none ∧ (wb && list.getLsbD rn.toNat) = false ∧
    ((∃ vs, s.loadWords (blockAddrs mode (s.readReg rn) list) = .done vs ∧
        (let u := ((s.seenAll (blockAddrs mode (s.readReg rn) list)).blockWriteBack wb rn
            (blockEnd mode (s.readReg rn) list)).writeRegs ((regList list).zip vs)
         (list.getLsbD 15 = true ∧ (vs.getLastD 0).toNat % 4 = 0 ∧ t = u.setPc (vs.getLastD 0)) ∨
          (list.getLsbD 15 = false ∧ t = u.advance))) ∨
      (∃ vs, s.loadWords (blockAddrs mode (s.readReg rn) list) = .aborted vs ∧
        t = (((s.seenAll (blockAddrs mode (s.readReg rn) list)).writeRegs (((regList list).zip vs).filter fun x => x.1 != rn)).blockWriteBack wb rn
          (blockEnd mode (s.readReg rn) list)).raise .dataAbort)) := by
  unfold State.loadMultiple at h
  cases hr : s.blockRefusal rn list with
  | some r => rw [hr] at h; cases h
  | none =>
    rw [hr] at h
    cases hw : (wb && list.getLsbD rn.toNat)
    · simp only [hw, Bool.false_eq_true, if_false] at h
      refine ⟨rfl, rfl, ?_⟩
      cases hl : s.loadWords (blockAddrs mode (s.readReg rn) list) with
      | done vs =>
        rw [hl] at h
        refine .inl ⟨vs, rfl, ?_⟩
        cases h15 : list.getLsbD 15
        · simp only [h15, Bool.false_eq_true, if_false] at h
          cases h; exact .inr ⟨rfl, rfl⟩
        · simp only [h15, if_true] at h
          exact .inl ⟨rfl, State.branchArm_next h⟩
      | aborted vs => rw [hl] at h; cases h; exact .inr ⟨vs, rfl, rfl⟩
      | fault f => rw [hl] at h; cases h
      | refuse r => rw [hl] at h; cases h
    · simp [hw] at h

/-- Everything that STM can have done when it answers a next state. -/
theorem State.storeMultiple_next {s t : State} {mode : BlockMode} {wb : Bool} {rn : RegNum}
    {list : BitVec 16} (h : s.storeMultiple mode wb rn list = .next t) :
    s.blockRefusal rn list = none ∧ list.getLsbD 15 = false ∧
    ((∃ u, s.storeWords ((blockAddrs mode (s.readReg rn) list).zip
          ((regList list).map s.readReg)) = .done u ∧
        t = (u.blockWriteBack wb rn (blockEnd mode (s.readReg rn) list)).advance) ∨
      (∃ u, s.storeWords ((blockAddrs mode (s.readReg rn) list).zip
          ((regList list).map s.readReg)) = .aborted u ∧
        t = (u.blockWriteBack wb rn (blockEnd mode (s.readReg rn) list)).raise .dataAbort)) := by
  unfold State.storeMultiple at h
  cases hr : s.blockRefusal rn list with
  | some r => rw [hr] at h; cases h
  | none =>
    rw [hr] at h
    cases h15 : list.getLsbD 15
    · simp only [h15, Bool.false_eq_true, if_false] at h
      refine ⟨rfl, rfl, ?_⟩
      by_cases hw : (wb && list.getLsbD rn.toNat && (regList list).head? != some rn) = true
      · rw [if_pos hw] at h; cases h
      · rw [if_neg hw] at h
        split at h
        · rename_i u hu; cases h; exact .inl ⟨u, hu, rfl⟩
        · rename_i u hu; cases h; exact .inr ⟨u, hu, rfl⟩
        · cases h
        · cases h
    · simp [h15] at h

/-- The first register of a list is the one with slot 0. -/
theorem head_regList_iff {list : BitVec 16} {r : RegNum} (h : list.getLsbD r.toNat = true) :
    (regList list).head? = some r ↔ slotOf list r.toNat = 0 := by
  cases hl : regList list with
  | nil => have := mem_regList.2 h; simp [hl] at this
  | cons q qs =>
    have hs := regList_sorted list
    rw [hl, List.pairwise_cons] at hs
    have hq : list.getLsbD q.toNat = true := mem_regList.1 (by simp [hl])
    simp only [List.head?_cons, Option.some.injEq]
    constructor
    · rintro rfl
      by_contra hne
      unfold slotOf at hne
      obtain ⟨i, hi⟩ := List.exists_mem_of_length_pos (Nat.pos_of_ne_zero hne)
      obtain ⟨h1, h2⟩ := List.mem_filter.1 hi
      have h1 := List.mem_range.1 h1
      have hlt := q.isLt
      have hm : (BitVec.ofNat 4 i) ∈ regList list := mem_regList.2 (by
        rw [BitVec.toNat_ofNat, Nat.mod_eq_of_lt (by omega)]; exact h2)
      rw [hl] at hm
      have hi' : (BitVec.ofNat 4 i).toNat = i := by
        rw [BitVec.toNat_ofNat, Nat.mod_eq_of_lt (by omega)]
      rcases List.mem_cons.1 hm with hm | hm
      · rw [hm] at hi'; omega
      · have := hs.1 _ hm; omega
    · intro h0
      have hm : r ∈ regList list := mem_regList.2 h
      rw [hl] at hm
      rcases List.mem_cons.1 hm with hm | hm
      · exact hm.symm
      · have := slotOf_lt list hq (hs.1 r hm)
        omega

end Sys2Proof.Machine
end

