-- ==== Sys2Proof/Laws/Effects.lean ====
section
/-! SUPPORT. Everything an instruction can have done when it answers a next state, said once: each statement about all instructions is a case analysis of `State.Effect`. -/

namespace Sys2Proof.Machine

/-! ### The kinds of effect -/

/-- From `s` to `u` only registers that the current mode names, memory with its marks (for an instruction
that stores) and the count of free values changed. -/
structure State.Data (s : State) (stores : Prop) (u : State) : Prop where
  regs : ∀ p, (∀ r : RegNum, r ≠ 15#4 → p ≠ physOf s.bank r) → u.regs.get p = s.regs.get p
  pc : u.pc = s.pc
  cpsr : u.cpsr = s.cpsr
  spsr : u.spsr = s.spsr
  platform : u.platform = s.platform
  inputs : u.inputs = s.inputs
  mem : ¬ stores → u.mem = s.mem ∧ u.stored = s.stored
  memWf : s.mem.wf → u.mem.wf
  storedWf : storedWf s.stored → storedWf u.stored

/-- `p` is `q` but for the flags, and with the flags of `q` where `flags` does not hold. -/
structure Psr.SameBut (q : Psr) (flags : Prop) (p : Psr) : Prop where
  i : p.i = q.i
  f : p.f = q.f
  t : p.t = q.t
  m : p.m = q.m
  nzcv : ¬ flags → p.n = q.n ∧ p.z = q.z ∧ p.c = q.c ∧ p.v = q.v

/-- What an instruction that answers a next state has done. -/
inductive State.Effect (i : Instr) (s : State) : State → Prop where
  /-- It went on to the next instruction. -/
  | went (u : State) (p : Psr) (hu : s.Data (writesMemory i) u)
      (hp : s.cpsr.SameBut (writesFlags i) p) : State.Effect i s (u.setCpsr p).advance
  /-- It branched within the operating state, to an address aligned for it. -/
  | branched (u : State) (a : Word) (hu : s.Data (writesMemory i) u)
      (ha : i.isThumb = s.cpsr.t → s.pcAligned = true → (u.setPc a).pcAligned = true) :
      State.Effect i s (u.setPc a)
  /-- It branched and selected the operating state. -/
  | exchanged (b : Bool) (a : Word) (hi : isExchange i) (ha : a.toNat % (if b then 2 else 4) = 0) :
      State.Effect i s ((s.setCpsr { s.cpsr with t := b }).setPc a)
  /-- It took an exception. -/
  | took (u : State) (e : ExceptionKind) (hu : s.Data (writesMemory i) u) (he : e ≠ .reset) :
      State.Effect i s (u.raise e)
  /-- It returned from an exception. -/
  | returned (r : Word) (t : State) (hi : isReturn i) (ht : s.exceptionReturn r = .next t) :
      State.Effect i s t
  /-- It wrote the control field of the CPSR, with a legal mode or an illegal one. -/
  | wroteControl (p : Psr) (t : State) (hs : s.privileged = true) (hp : p.t = s.cpsr.t)
      (hf : ¬ writesFlags i → p.n = s.cpsr.n ∧ p.z = s.cpsr.z ∧ p.c = s.cpsr.c ∧ p.v = s.cpsr.v)
      (ht : (t = s.setCpsr p ∧ t.stuck = true) ∨ t = (s.setCpsr p).advance) : State.Effect i s t
  /-- It wrote the SPSR of the current mode. -/
  | wroteSpsr (e : ExcMode) (q : Psr) (hb : s.bank = some e) :
      State.Effect i s (s.setSpsr e q).advance

/-! ### Changes of data -/

theorem State.Data.refl (s : State) (P : Prop) : s.Data P s :=
  ⟨fun _ _ => rfl, rfl, rfl, rfl, rfl, rfl, fun _ => ⟨rfl, rfl⟩, id, id⟩

theorem State.Data.trans {s t u : State} {P : Prop} (h : s.Data P t) (k : t.Data P u) :
    s.Data P u where
  regs p hp := by
    have hb : t.bank = s.bank := by unfold State.bank; rw [h.cpsr]
    rw [k.regs p (by rw [hb]; exact hp), h.regs p hp]
  pc := k.pc.trans h.pc
  cpsr := k.cpsr.trans h.cpsr
  spsr := k.spsr.trans h.spsr
  platform := k.platform.trans h.platform
  inputs := k.inputs.trans h.inputs
  mem hn := ⟨(k.mem hn).1.trans (h.mem hn).1, (k.mem hn).2.trans (h.mem hn).2⟩
  memWf := k.memWf ∘ h.memWf
  storedWf := k.storedWf ∘ h.storedWf

theorem State.writeReg_data (s : State) {r : RegNum} (v : Word) (h : r ≠ 15#4) (P : Prop) :
    s.Data P (s.writeReg r v) where
  regs p hp := by rw [State.writeReg_get s v h, if_neg (hp r h)]
  pc := State.writeReg_pc_of_ne s v h
  cpsr := by simp
  spsr := by simp
  platform := by simp
  inputs := by simp
  mem _ := by simp
  memWf hm := by simpa using hm
  storedWf hm := by simpa using hm

theorem State.seen_data (s : State) (a : Word) (n : Nat) (P : Prop) : s.Data P (s.seen a n) where
  regs _ _ := by simp
  pc := by simp
  cpsr := by simp
  spsr := by simp
  platform := by simp
  inputs := by simp
  mem _ := by simp
  memWf hm := by simpa using hm
  storedWf hm := by simpa using hm

theorem State.seenAll_data (s : State) (as : List Word) (P : Prop) : s.Data P (s.seenAll as) := by
  induction as generalizing s with
  | nil => exact .refl s P
  | cons a as ih => exact (s.seen_data a 4 P).trans (ih _)

theorem State.store_data (s : State) (a : Word) (n : Nat) (v : Word) {P : Prop} (h : P) :
    s.Data P (s.store a n v) where
  regs _ _ := rfl
  pc := rfl
  cpsr := rfl
  spsr := rfl
  platform := rfl
  inputs := rfl
  mem hn := absurd h hn
  memWf hm := State.store_wf hm _ _ _
  storedWf hm := State.store_storedWf hm _ _ _

theorem State.writeBack_data (s : State) {ix : Index} {rn : RegNum} (off : Word)
    (h : ix.writesBack = true → rn ≠ 15#4) (P : Prop) : s.Data P (s.writeBack ix rn off) := by
  unfold State.writeBack
  split_ifs with hw
  · exact s.writeReg_data off (h hw) P
  · exact .refl s P

theorem State.blockWriteBack_data (s : State) (wb : Bool) {rn : RegNum} (v : Word) (h : rn ≠ 15#4)
    (P : Prop) : s.Data P (s.blockWriteBack wb rn v) := by
  unfold State.blockWriteBack
  split_ifs
  · exact s.writeReg_data v h P
  · exact .refl s P

theorem State.writeRegs_data (s : State) (xs : List (RegNum × Word)) (P : Prop) :
    s.Data P (s.writeRegs xs) := by
  induction xs generalizing s with
  | nil => exact .refl s P
  | cons x xs ih =>
    obtain ⟨r, v⟩ := x
    rw [State.writeRegs]
    split_ifs with h
    · exact ih s
    · exact (s.writeReg_data v h P).trans (ih _)

/-! ### Shapes of effects -/

theorem Psr.SameBut.refl (q : Psr) (P : Prop) : q.SameBut P q :=
  ⟨rfl, rfl, rfl, rfl, fun _ => ⟨rfl, rfl, rfl, rfl⟩⟩

/-- Going on with the CPSR as it was. -/
theorem State.Effect.wentOn {i : Instr} {s : State} (u : State) (hu : s.Data (writesMemory i) u) :
    State.Effect i s u.advance := by
  have h := State.Effect.went (i := i) u s.cpsr hu (.refl _ _)
  rwa [← hu.cpsr, show u.setCpsr u.cpsr = u from rfl] at h

/-- A guarded instruction has the effects of its body, or goes on. -/
theorem State.Effect.ofWhenCond {i : Instr} {s t : State} {c : Cond} {body : Result}
    (h : s.whenCond c body = .next t) (hb : body = .next t → State.Effect i s t) :
    State.Effect i s t := by
  rcases State.whenCond_next h with ⟨-, rfl⟩ | ⟨-, h⟩
  · exact .wentOn s (.refl s _)
  · exact hb h

theorem pcAligned_setPc_arm {u : State} {a : Word} (ht : u.cpsr.t = false) (ha : a.toNat % 4 = 0) :
    (u.setPc a).pcAligned = true := by
  simp [State.pcAligned, ht, misaligned, ha]

theorem pcAligned_setPc_thumb {u : State} {a : Word} (ht : u.cpsr.t = true) (ha : a.toNat % 2 = 0) :
    (u.setPc a).pcAligned = true := by
  simp [State.pcAligned, ht, misaligned, ha]

/-- The alignment of the pc, by operating state. -/
theorem pcAligned_arm {s : State} (ht : s.cpsr.t = false) :
    s.pcAligned = true ↔ s.pc.toNat % 4 = 0 := by
  simp [State.pcAligned, ht, misaligned]

theorem pcAligned_thumb {s : State} (ht : s.cpsr.t = true) :
    s.pcAligned = true ↔ s.pc.toNat % 2 = 0 := by
  simp [State.pcAligned, ht, misaligned]

/-- A branch to an address that is a multiple of 4. -/
theorem State.Effect.branchArm {i : Instr} {s : State} (u : State) (a : Word)
    (hi : i.isThumb = false) (hu : s.Data (writesMemory i) u) (ha : a.toNat % 4 = 0) :
    State.Effect i s (u.setPc a) :=
  .branched u a hu fun h _ => pcAligned_setPc_arm (by rw [hu.cpsr, ← h, hi]) ha

/-- How MOV, SUB and ADD end, as an effect. -/
theorem State.Effect.ofWriteResult {i : Instr} {s t : State} {S : Bool} {rd : RegNum} {r : Word}
    {p : Psr} (hi : i.isThumb = false) (hw : S = true → writesFlags i)
    (hr : S = true → rd = 15#4 → isReturn i)
    (h : s.writeResult S rd r p = .next t)
    (hp : p.i = s.cpsr.i ∧ p.f = s.cpsr.f ∧ p.t = s.cpsr.t ∧ p.m = s.cpsr.m) : State.Effect i s t := by
  rcases State.writeResult_next h with ⟨hd, rfl⟩ | ⟨-, -, ha, rfl⟩ | ⟨hd, hS, h⟩
  · refine .went _ _ (s.writeReg_data r hd _) ?_
    cases S
    · exact .refl _ _
    · exact ⟨hp.1, hp.2.1, hp.2.2.1, hp.2.2.2, fun hn => absurd (hw rfl) hn⟩
  · exact .branchArm s r hi (.refl s _) ha
  · exact .returned r t (hr hS hd) h

theorem State.Effect.ofExchange {i : Instr} {s t : State} {v : Word} (hi : isExchange i)
    (h : s.exchange v = .next t) : State.Effect i s t := by
  rcases State.exchange_next h with ⟨-, rfl⟩ | ⟨h0, h1, rfl⟩
  · refine .exchanged true _ hi ?_
    rw [clearBit0_toNat]; simp
  · exact .exchanged false _ hi (by simpa using (low_bits_zero_iff v).1 ⟨h0, h1⟩)

theorem State.Effect.ofWriteHigh {i : Instr} {s t : State} {rd : RegNum} {r : Word}
    (hi : i.isThumb = true) (h : s.writeHigh rd r = .next t) : State.Effect i s t := by
  rcases State.writeHigh_next h with ⟨-, rfl⟩ | ⟨hd, rfl⟩
  · refine .branched s _ (.refl s _) fun ht _ => pcAligned_setPc_thumb (by rw [← ht, hi]) ?_
    rw [clearBit0_toNat]; omega
  · exact .wentOn _ (s.writeReg_data r hd _)

theorem State.Effect.ofCompare {i : Instr} {s t : State} {a b : Word} (hw : writesFlags i)
    (h : s.compare a b = .next t) : State.Effect i s t := by
  cases h
  exact .went s _ (.refl s _) ⟨rfl, rfl, rfl, rfl, fun hn => absurd hw hn⟩

theorem State.Effect.ofWritePsr {i : Instr} {s t : State} {sel : PsrSel} {mask : BitVec 4} {w : Word}
    (hw : sel = .cpsr → mask.getLsbD 3 = true → writesFlags i)
    (h : s.writePsr sel mask w = .next t) : State.Effect i s t := by
  rcases State.writePsr_next h with ⟨hs, h⟩ | ⟨-, e, hb, rfl⟩
  · obtain ⟨h1, h2, h3, h4⟩ := s.cpsr.maskedFlags_ift mask w
    have hf (hn : ¬ writesFlags i) : s.cpsr.maskedFlags mask w = s.cpsr := by
      unfold Psr.maskedFlags; rw [if_neg fun hm => hn (hw hs hm)]
    rcases State.writeCpsr_next h with ⟨-, rfl⟩ | ⟨hp, -, ⟨hm, rfl⟩ | ⟨-, rfl⟩⟩
    · exact .went s _ (.refl s _) ⟨h1, h2, h3, h4, fun hn => by rw [hf hn]; exact ⟨rfl, rfl, rfl, rfl⟩⟩
    · refine .wroteControl _ _ ((Bool.and_eq_true_iff.1 hp).2) ?_ ?_ (.inl ⟨rfl, (State.stuck_iff _).2 hm⟩)
      · exact h3
      · exact fun hn => by rw [hf hn]; exact ⟨rfl, rfl, rfl, rfl⟩
    · refine .wroteControl _ _ ((Bool.and_eq_true_iff.1 hp).2) ?_ ?_ (.inr rfl)
      · exact h3
      · exact fun hn => by rw [hf hn]; exact ⟨rfl, rfl, rfl, rfl⟩
  · exact .wroteSpsr e _ hb

theorem State.Effect.ofAbort {i : Instr} {s t : State} {ix : Index} {rn : RegNum} {off : Word}
    (hx : ix.writesBack = true → rn ≠ 15#4) (h : s.abortTransfer ix rn off = .next t) :
    State.Effect i s t := by
  rw [State.abortTransfer_eq] at h
  cases h
  refine .took _ _ ?_ (by simp)
  split_ifs
  · exact s.writeBack_data off hx _
  · exact .refl s _

theorem State.Effect.ofLoadWord {i : Instr} {s t : State} {ix : Index} {up : Bool} {rn rd : RegNum}
    {imm : BitVec 12} (hi : i.isThumb = false) (h : s.loadWord ix up rn rd imm = .next t) :
    State.Effect i s t := by
  obtain ⟨hr, ⟨v, -, ⟨-, ha, rfl⟩ | ⟨hd, rfl⟩⟩ | ⟨-, h⟩⟩ := State.loadWord_next h
  all_goals have hx := fun hw => ((Index.refusal_none_iff ix rn rd).1 hr hw).1
  · exact .branchArm _ _ hi ((s.seen_data _ _ _).trans (State.writeBack_data _ _ hx _)) ha
  · exact .wentOn _ (((s.seen_data _ _ _).trans (State.writeBack_data _ _ hx _)).trans
      (State.writeReg_data _ v hd _))
  · exact .ofAbort hx h

theorem State.Effect.ofLoadByte {i : Instr} {s t : State} {ix : Index} {up : Bool} {rn rd : RegNum}
    {imm : BitVec 12} (h : s.loadByte ix up rn rd imm = .next t) : State.Effect i s t := by
  obtain ⟨hr, hd, ⟨v, -, rfl⟩ | ⟨-, h⟩⟩ := State.loadByte_next h
  all_goals have hx := fun hw => ((Index.refusal_none_iff ix rn rd).1 hr hw).1
  · exact .wentOn _ (((s.seen_data _ _ _).trans (State.writeBack_data _ _ hx _)).trans
      (State.writeReg_data _ v hd _))
  · exact .ofAbort hx h

theorem State.Effect.ofStoreReg {i : Instr} {s t : State} {n : Nat} {ofR15 : Refusal} {ix : Index}
    {up : Bool} {rn rd : RegNum} {imm : BitVec 12} (hm : writesMemory i)
    (h : s.storeReg n ofR15 ix up rn rd imm = .next t) : State.Effect i s t := by
  obtain ⟨hr, -, ⟨-, rfl⟩ | ⟨-, h⟩⟩ := State.storeReg_next h
  all_goals have hx := fun hw => ((Index.refusal_none_iff ix rn rd).1 hr hw).1
  · exact .wentOn _ ((s.store_data _ n _ hm).trans (State.writeBack_data _ _ hx _))
  · exact .ofAbort hx h

theorem State.Effect.ofSwap {i : Instr} {s t : State} {n : Nat} {rn rd rm : RegNum}
    (hm : writesMemory i) (h : s.swap n rn rd rm = .next t) : State.Effect i s t := by
  obtain ⟨hr, ⟨old, -, -, rfl⟩ | rfl | rfl⟩ := State.swap_next h
  · have hd := ((swapRefusal_none_iff rn rd rm).1 hr).2.1
    exact .wentOn _ (((s.seen_data _ _ _).trans (State.store_data _ _ n _ hm)).trans
      (State.writeReg_data _ old hd _))
  · exact .took s _ (.refl s _) (by simp)
  · exact .took _ _ (s.seen_data _ _ _) (by simp)

theorem State.Effect.ofLoadMultiple {i : Instr} {s t : State} {mode : BlockMode} {wb : Bool}
    {rn : RegNum} {list : BitVec 16} (hi : i.isThumb = false)
    (h : s.loadMultiple mode wb rn list = .next t) : State.Effect i s t := by
  obtain ⟨hr, -, ⟨vs, -, ⟨-, ha, rfl⟩ | ⟨-, rfl⟩⟩ | ⟨vs, -, rfl⟩⟩ := State.loadMultiple_next h
  all_goals have hn := ((State.blockRefusal_none_iff s rn list).1 hr).2.1
  · exact .branchArm _ _ hi (((s.seenAll_data _ _).trans (State.blockWriteBack_data _ wb _ hn _)).trans
      (State.writeRegs_data _ _ _)) ha
  · exact .wentOn _ (((s.seenAll_data _ _).trans (State.blockWriteBack_data _ wb _ hn _)).trans
      (State.writeRegs_data _ _ _))
  · exact .took _ _ (((s.seenAll_data _ _).trans (State.writeRegs_data _ _ _)).trans
      (State.blockWriteBack_data _ wb _ hn _)) (by simp)

/-- Stores of a block transfer are changes of data. -/
theorem State.storeWords_data {s t : State} {xs : List (Word × Word)} {P : Prop} (hP : P)
    (h : s.storeWords xs = .done t ∨ s.storeWords xs = .aborted t) : s.Data P t := by
  obtain ⟨h1, h2, h3⟩ := State.storeWords_any h
  exact ⟨fun p _ => by rw [h1.regs], h1.pc, h1.cpsr, h1.spsr, h1.platform, h1.inputs,
    fun hn => absurd hP hn, h2, h3⟩

theorem State.Effect.ofStoreMultiple {i : Instr} {s t : State} {mode : BlockMode} {wb : Bool}
    {rn : RegNum} {list : BitVec 16} (hm : writesMemory i)
    (h : s.storeMultiple mode wb rn list = .next t) : State.Effect i s t := by
  obtain ⟨hr, -, ⟨u, hu, rfl⟩ | ⟨u, hu, rfl⟩⟩ := State.storeMultiple_next h
  all_goals have hn := ((State.blockRefusal_none_iff s rn list).1 hr).2.1
  · exact .wentOn _ ((State.storeWords_data hm (.inl hu)).trans
      (State.blockWriteBack_data _ wb _ hn _))
  · exact .took _ _ ((State.storeWords_data hm (.inr hu)).trans
      (State.blockWriteBack_data _ wb _ hn _)) (by simp)

/-! ### Branch targets -/

theorem branchTarget_mod4 (a : Word) (off : BitVec 24) :
    (branchTarget a off).toNat % 4 = a.toNat % 4 := by
  simp only [branchTarget, BitVec.toNat_add, BitVec.toNat_shiftLeft, Nat.shiftLeft_eq,
    BitVec.toNat_ofNat]
  omega

theorem thumbBranchTarget_mod2 (a : Word) (off : BitVec 8) :
    (thumbBranchTarget a off).toNat % 2 = a.toNat % 2 := by
  simp only [thumbBranchTarget, BitVec.toNat_add, BitVec.toNat_shiftLeft, Nat.shiftLeft_eq,
    BitVec.toNat_ofNat]
  omega

/-! ### Every instruction -/

/-- Everything an instruction can have done when it answers a next state. -/
theorem exec_effect {i : Instr} {s t : State} (h : exec i s = .next t) : State.Effect i s t := by
  have arm (ht : false = s.cpsr.t) (ha : s.pcAligned = true) : s.pc.toNat % 4 = 0 :=
    (pcAligned_arm ht.symm).1 ha
  have thumb (ht : true = s.cpsr.t) (ha : s.pcAligned = true) : s.pc.toNat % 2 = 0 :=
    (pcAligned_thumb ht.symm).1 ha
  cases i with
  | bx c rn =>
    refine .ofWhenCond h fun h => ?_
    by_cases hr : rn = 15#4
    · rw [if_pos hr] at h; cases h
    · rw [if_neg hr] at h; exact .ofExchange trivial h
  | mrs c sel rd =>
    refine .ofWhenCond h fun h => ?_
    by_cases hr : rd = 15#4
    · rw [if_pos hr] at h; cases h
    · rw [if_neg hr] at h
      cases hp : s.selectedPsr sel with
      | none => rw [hp] at h; cases h
      | some p =>
        rw [hp] at h; cases h
        have d := s.writeReg_data (p.toWord (Config.freeReserved s.draws)) hr
          (writesMemory (.mrs c sel rd))
        exact .wentOn _ ⟨d.regs, d.pc, d.cpsr, d.spsr, d.platform, d.inputs, d.mem, d.memWf, d.storedWf⟩
  | msrReg c sel mask rm =>
    refine .ofWhenCond h fun h => ?_
    by_cases hr : rm = 15#4
    · rw [if_pos hr] at h; cases h
    · rw [if_neg hr] at h; exact .ofWritePsr (fun h1 h2 => ⟨h1, h2⟩) h
  | msrImm c sel mask rotate imm =>
    exact .ofWhenCond h fun h => .ofWritePsr (fun h1 h2 => ⟨h1, h2⟩) h
  | swp c rn rd rm => exact .ofWhenCond h fun h => .ofSwap trivial h
  | swpb c rn rd rm => exact .ofWhenCond h fun h => .ofSwap trivial h
  | movReg c S rd rm =>
    exact .ofWhenCond h fun h => .ofWriteResult rfl id (fun a b => ⟨a, b⟩) h ⟨rfl, rfl, rfl, rfl⟩
  | movImm c S rd rotate imm =>
    exact .ofWhenCond h fun h => .ofWriteResult rfl id (fun a b => ⟨a, b⟩) h ⟨rfl, rfl, rfl, rfl⟩
  | subReg c S rn rd rm =>
    exact .ofWhenCond h fun h => .ofWriteResult rfl id (fun a b => ⟨a, b⟩) h ⟨rfl, rfl, rfl, rfl⟩
  | subImm c S rn rd rotate imm =>
    exact .ofWhenCond h fun h => .ofWriteResult rfl id (fun a b => ⟨a, b⟩) h ⟨rfl, rfl, rfl, rfl⟩
  | addReg c S rn rd rm =>
    exact .ofWhenCond h fun h => .ofWriteResult rfl id (fun a b => ⟨a, b⟩) h ⟨rfl, rfl, rfl, rfl⟩
  | addImm c S rn rd rotate imm =>
    exact .ofWhenCond h fun h => .ofWriteResult rfl id (fun a b => ⟨a, b⟩) h ⟨rfl, rfl, rfl, rfl⟩
  | cmpReg c rn rm => exact .ofWhenCond h fun h => .ofCompare trivial h
  | cmpImm c rn rotate imm => exact .ofWhenCond h fun h => .ofCompare trivial h
  | ldrPre c up rn rd imm => exact .ofWhenCond h fun h => .ofLoadWord rfl h
  | ldrPreWb c up rn rd imm => exact .ofWhenCond h fun h => .ofLoadWord rfl h
  | ldrPost c up rn rd imm => exact .ofWhenCond h fun h => .ofLoadWord rfl h
  | strPre c up rn rd imm => exact .ofWhenCond h fun h => .ofStoreReg trivial h
  | strPreWb c up rn rd imm => exact .ofWhenCond h fun h => .ofStoreReg trivial h
  | strPost c up rn rd imm => exact .ofWhenCond h fun h => .ofStoreReg trivial h
  | ldrbPre c up rn rd imm => exact .ofWhenCond h fun h => .ofLoadByte h
  | ldrbPreWb c up rn rd imm => exact .ofWhenCond h fun h => .ofLoadByte h
  | ldrbPost c up rn rd imm => exact .ofWhenCond h fun h => .ofLoadByte h
  | strbPre c up rn rd imm => exact .ofWhenCond h fun h => .ofStoreReg trivial h
  | strbPreWb c up rn rd imm => exact .ofWhenCond h fun h => .ofStoreReg trivial h
  | strbPost c up rn rd imm => exact .ofWhenCond h fun h => .ofStoreReg trivial h
  | ldm c mode wb rn list => exact .ofWhenCond h fun h => .ofLoadMultiple rfl h
  | stm c mode wb rn list => exact .ofWhenCond h fun h => .ofStoreMultiple trivial h
  | b c off =>
    refine .ofWhenCond h fun h => ?_
    cases h
    exact .branched s _ (.refl s _) fun ht ha =>
      pcAligned_setPc_arm ht.symm (by rw [branchTarget_mod4]; exact arm ht ha)
  | bl c off =>
    refine .ofWhenCond h fun h => ?_
    cases h
    exact .branched _ _ (s.writeReg_data _ (by decide) _) fun ht ha =>
      pcAligned_setPc_arm (by rw [State.writeReg_cpsr]; exact ht.symm) (by rw [branchTarget_mod4]; exact arm ht ha)
  | swi c imm =>
    refine .ofWhenCond h fun h => ?_
    cases h
    exact .took s _ (.refl s _) (by simp)
  | undef c hi lo =>
    refine .ofWhenCond h fun h => ?_
    cases h
    exact .took s _ (.refl s _) (by simp)
  | tBx rs => exact .ofExchange trivial h
  | tAddHi rd rs => exact .ofWriteHigh rfl h
  | tCmpHi rd rs =>
    change (if rd = 15#4 then _ else _) = _ at h
    by_cases hr : rd = 15#4
    · rw [if_pos hr] at h; cases h
    · rw [if_neg hr] at h; exact .ofCompare trivial h
  | tMovHi rd rs => exact .ofWriteHigh rfl h
  | tSwi v => cases h; exact .took s _ (.refl s _) (by simp)
  | tUndef v => cases h; exact .took s _ (.refl s _) (by simp)
  | tBcond c off =>
    change (if condPassed s.cpsr c = true then _ else _) = _ at h
    by_cases hc : condPassed s.cpsr c = true
    · rw [if_pos hc] at h; cases h
      exact .branched s _ (.refl s _) fun ht ha =>
        pcAligned_setPc_thumb ht.symm (by rw [thumbBranchTarget_mod2]; exact thumb ht ha)
    · rw [if_neg hc] at h; cases h; exact .wentOn s (.refl s _)
  | tBlFirst off => cases h; exact .wentOn _ (s.writeReg_data _ (by decide) _)
  | tBlSecond off =>
    change (if (thumbLinkTarget (s.readReg 14#4) off).getLsbD 0 = true then _ else _) = _ at h
    by_cases ht : (thumbLinkTarget (s.readReg 14#4) off).getLsbD 0 = true
    · rw [if_pos ht] at h; cases h
    · rw [if_neg ht] at h; cases h
      rw [getLsbD_zero_iff] at ht
      exact .branched _ _ (s.writeReg_data _ (by decide) _) fun hs _ =>
        pcAligned_setPc_thumb (by rw [State.writeReg_cpsr]; exact hs.symm) (by omega)

end Sys2Proof.Machine
end

