-- ==== Sys2Proof/Laws/PerInstr.lean ====
section
/-! SUPPORT. The families of statements about every instruction, one lemma for each. -/

/-- An instruction occupies as many bytes as the instructions of its set have (30_encoding R80). -/
def Sys2Proof.Laws.EncodedLength.Statement (i : Sys2Proof.Instr) : Prop :=
  ∀ big, (i.bytes big).length = if i.isThumb then 2 else 4

namespace Sys2Proof.Laws

theorem EncodedLength.bx (cond : Cond) (rn : RegNum) :
    EncodedLength.Statement (.bx cond rn) := fun _ => Sys2Proof.toBytes_length _ _ _

theorem EncodedLength.mrs (cond : Cond) (sel : PsrSel) (rd : RegNum) :
    EncodedLength.Statement (.mrs cond sel rd) := fun _ => Sys2Proof.toBytes_length _ _ _

theorem EncodedLength.msrReg (cond : Cond) (sel : PsrSel) (mask : BitVec 4) (rm : RegNum) :
    EncodedLength.Statement (.msrReg cond sel mask rm) := fun _ => Sys2Proof.toBytes_length _ _ _

theorem EncodedLength.msrImm (cond : Cond) (sel : PsrSel) (mask rotate : BitVec 4) (imm8 : BitVec 8) :
    EncodedLength.Statement (.msrImm cond sel mask rotate imm8) := fun _ => Sys2Proof.toBytes_length _ _ _

theorem EncodedLength.swp (cond : Cond) (rn rd rm : RegNum) :
    EncodedLength.Statement (.swp cond rn rd rm) := fun _ => Sys2Proof.toBytes_length _ _ _

theorem EncodedLength.swpb (cond : Cond) (rn rd rm : RegNum) :
    EncodedLength.Statement (.swpb cond rn rd rm) := fun _ => Sys2Proof.toBytes_length _ _ _

theorem EncodedLength.movReg (cond : Cond) (S : Bool) (rd rm : RegNum) :
    EncodedLength.Statement (.movReg cond S rd rm) := fun _ => Sys2Proof.toBytes_length _ _ _

theorem EncodedLength.movImm (cond : Cond) (S : Bool) (rd : RegNum) (rotate : BitVec 4) (imm8 : BitVec 8) :
    EncodedLength.Statement (.movImm cond S rd rotate imm8) := fun _ => Sys2Proof.toBytes_length _ _ _

theorem EncodedLength.subReg (cond : Cond) (S : Bool) (rn rd rm : RegNum) :
    EncodedLength.Statement (.subReg cond S rn rd rm) := fun _ => Sys2Proof.toBytes_length _ _ _

theorem EncodedLength.subImm (cond : Cond) (S : Bool) (rn rd : RegNum) (rotate : BitVec 4) (imm8 : BitVec 8) :
    EncodedLength.Statement (.subImm cond S rn rd rotate imm8) := fun _ => Sys2Proof.toBytes_length _ _ _

theorem EncodedLength.addReg (cond : Cond) (S : Bool) (rn rd rm : RegNum) :
    EncodedLength.Statement (.addReg cond S rn rd rm) := fun _ => Sys2Proof.toBytes_length _ _ _

theorem EncodedLength.addImm (cond : Cond) (S : Bool) (rn rd : RegNum) (rotate : BitVec 4) (imm8 : BitVec 8) :
    EncodedLength.Statement (.addImm cond S rn rd rotate imm8) := fun _ => Sys2Proof.toBytes_length _ _ _

theorem EncodedLength.cmpReg (cond : Cond) (rn rm : RegNum) :
    EncodedLength.Statement (.cmpReg cond rn rm) := fun _ => Sys2Proof.toBytes_length _ _ _

theorem EncodedLength.cmpImm (cond : Cond) (rn : RegNum) (rotate : BitVec 4) (imm8 : BitVec 8) :
    EncodedLength.Statement (.cmpImm cond rn rotate imm8) := fun _ => Sys2Proof.toBytes_length _ _ _

theorem EncodedLength.ldrPre (cond : Cond) (up : Bool) (rn rd : RegNum) (imm12 : BitVec 12) :
    EncodedLength.Statement (.ldrPre cond up rn rd imm12) := fun _ => Sys2Proof.toBytes_length _ _ _

theorem EncodedLength.ldrPreWb (cond : Cond) (up : Bool) (rn rd : RegNum) (imm12 : BitVec 12) :
    EncodedLength.Statement (.ldrPreWb cond up rn rd imm12) := fun _ => Sys2Proof.toBytes_length _ _ _

theorem EncodedLength.ldrPost (cond : Cond) (up : Bool) (rn rd : RegNum) (imm12 : BitVec 12) :
    EncodedLength.Statement (.ldrPost cond up rn rd imm12) := fun _ => Sys2Proof.toBytes_length _ _ _

theorem EncodedLength.strPre (cond : Cond) (up : Bool) (rn rd : RegNum) (imm12 : BitVec 12) :
    EncodedLength.Statement (.strPre cond up rn rd imm12) := fun _ => Sys2Proof.toBytes_length _ _ _

theorem EncodedLength.strPreWb (cond : Cond) (up : Bool) (rn rd : RegNum) (imm12 : BitVec 12) :
    EncodedLength.Statement (.strPreWb cond up rn rd imm12) := fun _ => Sys2Proof.toBytes_length _ _ _

theorem EncodedLength.strPost (cond : Cond) (up : Bool) (rn rd : RegNum) (imm12 : BitVec 12) :
    EncodedLength.Statement (.strPost cond up rn rd imm12) := fun _ => Sys2Proof.toBytes_length _ _ _

theorem EncodedLength.ldrbPre (cond : Cond) (up : Bool) (rn rd : RegNum) (imm12 : BitVec 12) :
    EncodedLength.Statement (.ldrbPre cond up rn rd imm12) := fun _ => Sys2Proof.toBytes_length _ _ _

theorem EncodedLength.ldrbPreWb (cond : Cond) (up : Bool) (rn rd : RegNum) (imm12 : BitVec 12) :
    EncodedLength.Statement (.ldrbPreWb cond up rn rd imm12) := fun _ => Sys2Proof.toBytes_length _ _ _

theorem EncodedLength.ldrbPost (cond : Cond) (up : Bool) (rn rd : RegNum) (imm12 : BitVec 12) :
    EncodedLength.Statement (.ldrbPost cond up rn rd imm12) := fun _ => Sys2Proof.toBytes_length _ _ _

theorem EncodedLength.strbPre (cond : Cond) (up : Bool) (rn rd : RegNum) (imm12 : BitVec 12) :
    EncodedLength.Statement (.strbPre cond up rn rd imm12) := fun _ => Sys2Proof.toBytes_length _ _ _

theorem EncodedLength.strbPreWb (cond : Cond) (up : Bool) (rn rd : RegNum) (imm12 : BitVec 12) :
    EncodedLength.Statement (.strbPreWb cond up rn rd imm12) := fun _ => Sys2Proof.toBytes_length _ _ _

theorem EncodedLength.strbPost (cond : Cond) (up : Bool) (rn rd : RegNum) (imm12 : BitVec 12) :
    EncodedLength.Statement (.strbPost cond up rn rd imm12) := fun _ => Sys2Proof.toBytes_length _ _ _

theorem EncodedLength.ldm (cond : Cond) (mode : BlockMode) (wb : Bool) (rn : RegNum) (list : BitVec 16) :
    EncodedLength.Statement (.ldm cond mode wb rn list) := fun _ => Sys2Proof.toBytes_length _ _ _

theorem EncodedLength.stm (cond : Cond) (mode : BlockMode) (wb : Bool) (rn : RegNum) (list : BitVec 16) :
    EncodedLength.Statement (.stm cond mode wb rn list) := fun _ => Sys2Proof.toBytes_length _ _ _

theorem EncodedLength.b (cond : Cond) (offset24 : BitVec 24) :
    EncodedLength.Statement (.b cond offset24) := fun _ => Sys2Proof.toBytes_length _ _ _

theorem EncodedLength.bl (cond : Cond) (offset24 : BitVec 24) :
    EncodedLength.Statement (.bl cond offset24) := fun _ => Sys2Proof.toBytes_length _ _ _

theorem EncodedLength.swi (cond : Cond) (imm24 : BitVec 24) :
    EncodedLength.Statement (.swi cond imm24) := fun _ => Sys2Proof.toBytes_length _ _ _

theorem EncodedLength.undef (cond : Cond) (freeHi : BitVec 20) (freeLo : BitVec 4) :
    EncodedLength.Statement (.undef cond freeHi freeLo) := fun _ => Sys2Proof.toBytes_length _ _ _

theorem EncodedLength.tBx (rs : RegNum) :
    EncodedLength.Statement (.tBx rs) := fun _ => Sys2Proof.toBytes_length _ _ _

theorem EncodedLength.tAddHi (rd rs : RegNum) :
    EncodedLength.Statement (.tAddHi rd rs) := fun _ => Sys2Proof.toBytes_length _ _ _

theorem EncodedLength.tCmpHi (rd rs : RegNum) :
    EncodedLength.Statement (.tCmpHi rd rs) := fun _ => Sys2Proof.toBytes_length _ _ _

theorem EncodedLength.tMovHi (rd rs : RegNum) :
    EncodedLength.Statement (.tMovHi rd rs) := fun _ => Sys2Proof.toBytes_length _ _ _

theorem EncodedLength.tSwi (value8 : BitVec 8) :
    EncodedLength.Statement (.tSwi value8) := fun _ => Sys2Proof.toBytes_length _ _ _

theorem EncodedLength.tUndef (free : BitVec 8) :
    EncodedLength.Statement (.tUndef free) := fun _ => Sys2Proof.toBytes_length _ _ _

theorem EncodedLength.tBcond (cond : Cond) (soffset8 : BitVec 8) :
    EncodedLength.Statement (.tBcond cond soffset8) := fun _ => Sys2Proof.toBytes_length _ _ _

theorem EncodedLength.tBlFirst (offset11 : BitVec 11) :
    EncodedLength.Statement (.tBlFirst offset11) := fun _ => Sys2Proof.toBytes_length _ _ _

theorem EncodedLength.tBlSecond (offset11 : BitVec 11) :
    EncodedLength.Statement (.tBlSecond offset11) := fun _ => Sys2Proof.toBytes_length _ _ _

end Sys2Proof.Laws
end

