-- ==== Sys2Proof/Laws/Step.lean ====
section
/-! SUPPORT. What a step can do: the decoded instruction belongs to the operating state, and the cases of 60_exceptions R235. -/

namespace Sys2Proof

/-- Bytes decoded in ARM state are an ARM instruction, in THUMB state a THUMB instruction (30_encoding
R80, R81). -/
theorem decodeBytes_isThumb {big thumb : Bool} {bs : List Byte} {i : Instr}
    (h : decodeBytes big thumb bs = .ok i) : i.isThumb = thumb := by
  unfold decodeBytes at h
  by_cases hl : bs.length = (if thumb then 2 else 4)
  · rw [if_pos hl] at h
    cases thumb
    · rw [if_neg (by simp)] at h
      unfold decodeArm at h
      split at h
      · cases h
      · split at h
        · rename_i r hr
          cases h
          have := List.mem_of_find?_eq_some hr
          simp only [armTable, armRowsA, armRowsB, armRowsC, singleRow, List.cons_append,
            List.nil_append, List.mem_cons, List.not_mem_nil, or_false] at this
          casesm* _ ∨ _ <;> subst r <;> rfl
        · cases h
    · rw [if_pos rfl] at h
      unfold decodeThumb at h
      split at h
      · rename_i j hj
        cases h
        obtain ⟨r, hr, hb⟩ := Option.bind_eq_some_iff.1 hj
        have := List.mem_of_find?_eq_some hr
        simp only [thumbTable, List.mem_cons, List.not_mem_nil, or_false] at this
        rcases this with rfl | rfl | rfl | rfl | rfl | rfl | rfl | rfl | rfl <;>
          simp [highForm] at hb <;>
          first
            | (rw [← hb]; rfl)
            | (rw [← hb.2]; rfl)
            | (obtain ⟨c, -, hb⟩ := hb; rw [← hb]; rfl)
      · cases h
  · rw [if_neg hl] at h; cases h

namespace Machine

@[simp] theorem State.nextInputs_fetch (s : State) : s.nextInputs.fetch = s.fetch := by
  unfold State.fetch
  rw [State.readBytes_congr (s := s) (t := s.nextInputs) rfl rfl rfl]
  rfl

/-- A step at a boundary where nothing else happens fetches and executes. -/
theorem step_undisturbed {s : State} (h : s.Undisturbed) : step s = s.nextInputs.fetchAndExec := by
  unfold step State.stepAt
  rw [h.noReset, State.nextInputs_stuck, h.notStuck]
  have h1 : (!s.boundary.nFIQ && !s.nextInputs.cpsr.f) = false := by
    rcases h.noFiq with h | h <;> simp [h]
  have h2 : (!s.boundary.nIRQ && !s.nextInputs.cpsr.i) = false := by
    rcases h.noIrq with h | h <;> simp [h]
  simp only [h1, h2, Bool.false_eq_true, if_false]

/-- Everything a step that answers a next state can have done. -/
theorem step_next {s t : State} (h : step s = .next t) :
    (s.boundary.reset = true ∧ t = s.nextInputs.resetException) ∨
    (s.boundary.reset = false ∧ s.stuck = true ∧ t = s.nextInputs) ∨
    (s.boundary.reset = false ∧ s.stuck = false ∧
      ∃ e : ExceptionKind, e ≠ .reset ∧ t = s.nextInputs.raise e) ∨
    (s.boundary.reset = false ∧ s.stuck = false ∧
      ∃ i : Instr, i.isThumb = s.cpsr.t ∧ exec i (s.nextInputs.seen s.pc s.fetchLen) = .next t) := by
  unfold step State.stepAt at h
  rw [State.nextInputs_stuck] at h
  by_cases h1 : s.boundary.reset = true
  · rw [if_pos h1] at h; cases h; exact .inl ⟨h1, rfl⟩
  rw [if_neg h1] at h
  rw [Bool.not_eq_true] at h1
  by_cases h2 : s.stuck = true
  · rw [if_pos h2] at h; cases h; exact .inr (.inl ⟨h1, h2, rfl⟩)
  rw [if_neg h2] at h
  rw [Bool.not_eq_true] at h2
  split_ifs at h with h3 h4
  · cases h; exact .inr (.inr (.inl ⟨h1, h2, .fiq, by simp, rfl⟩))
  · cases h; exact .inr (.inr (.inl ⟨h1, h2, .irq, by simp, rfl⟩))
  · unfold State.fetchAndExec at h
    rcases Access.andThen_next h with ⟨bs, -, h⟩ | ⟨-, h⟩
    · split at h
      · rename_i i hi
        exact .inr (.inr (.inr ⟨h1, h2, i, decodeBytes_isThumb hi, h⟩))
      · cases h
    · cases h; exact .inr (.inr (.inl ⟨h1, h2, .prefetchAbort, by simp, rfl⟩))

/-- Where an exception goes is word aligned (60_exceptions R202). -/
theorem ExceptionKind.vector_aligned (e : ExceptionKind) : e.vector.toNat % 4 = 0 := by
  cases e <;> rfl

end Machine
end Sys2Proof
end

