-- ==== Sys2Proof/Tests/Slice0.lean ====
section
/-! SUPPORT. Tests. Words and outcomes are those of 95_test_vectors.md, named in each comment by their ids, or are written out from the formats of 30_encoding R82 and R83. The last part shows, for every statement with hypotheses, a state and operands that meet them. -/

namespace Sys2Proof.Tests

open Sys2Proof Sys2Proof.Machine

/-! ### Helpers -/

/-- A state with this pc and CPSR, these registers of its mode, these little-endian words in memory. -/
def stateOf (pc cpsr : Word) (regs : List (RegNum × Word)) (words : List (Word × Word)) : State :=
  regs.foldl (fun s x => s.writeReg x.1 x.2)
    { State.reset with
      pc := pc
      cpsr := Psr.ofWord cpsr
      mem := words.foldl (fun m x => Memory.writeBytes m x.1 (toBytes false 4 x.2)) [] }

/-- The state with this SPSR in its mode. -/
def withSpsr (s : State) (w : Word) : State :=
  match s.bank with
  | some e => s.setSpsr e (Psr.ofWord w)
  | none => s

/-- The state whose accesses of this kind and size at this address abort, in every mode. -/
def aborting (s : State) (a : Nat) (n : Nat) (kind : AccessKind) : State :=
  { s with platform := { s.platform with aborts := [⟨a, a, n, kind, true⟩, ⟨a, a, n, kind, false⟩] } }

/-- The state with these inputs at the boundaries to come. -/
def seeing (s : State) (l : List Boundary) : State := { s with inputs := l }

/-- One step of this ARM word, or of this halfword. -/
def runArm (s : State) (w : Nat) : Result := step (s.withFetchWord 32 w)

def runThumb (s : State) (w : Nat) : Result := step (s.withFetchWord 16 w)

def leads (o : Result) (p : State → Bool) : Bool :=
  match o with
  | .next t => p t
  | .fault _ => false
  | .refused _ => false

def refuses (o : Result) (r : Refusal) : Bool :=
  match o with
  | .next _ => false
  | .fault _ => false
  | .refused q => q == r

def nzcv (t : State) : BitVec 4 := bit t.cpsr.n ++ bit t.cpsr.z ++ bit t.cpsr.c ++ bit t.cpsr.v

/-- The word at an address, in little-endian order. -/
def wordAt (t : State) (a : Word) : Option Word :=
  match t.readBytes a 4 with
  | .ok bs => some (ofBytes false bs)
  | .error _ => none

/-! ### Ill-formed instructions (30_encoding R91, 40_branch_and_exchange R114) -/

theorem test_wf_tAddHi_low : Instr.wellFormed (.tAddHi 0 1) = false := by decide
theorem test_wf_tCmpHi_low : Instr.wellFormed (.tCmpHi 7 7) = false := by decide
theorem test_wf_tMovHi_low : Instr.wellFormed (.tMovHi 1 0) = false := by decide
theorem test_wf_tBcond_al : Instr.wellFormed (.tBcond .al 0) = false := by decide

/-! ### Decoding: one word written out for each constructor -/

theorem test_dec_bx : decode (.arm 0xE12FFF1E#32) = .ok (.bx .al 14) := by decide
theorem test_dec_mrs_cpsr : decode (.arm 0xE10F0000#32) = .ok (.mrs .al .cpsr 0) := by decide
theorem test_dec_mrs_spsr : decode (.arm 0xE14F3000#32) = .ok (.mrs .al .spsr 3) := by decide
theorem test_dec_msrReg : decode (.arm 0xE169F000#32) = .ok (.msrReg .al .spsr 9 0) := by decide
theorem test_dec_msrImm : decode (.arm 0xE328F20F#32) = .ok (.msrImm .al .cpsr 8 2 0x0F) := by decide
theorem test_dec_swp : decode (.arm 0xE1002091#32) = .ok (.swp .al 0 2 1) := by decide
theorem test_dec_swpb : decode (.arm 0xE1402091#32) = .ok (.swpb .al 0 2 1) := by decide
theorem test_dec_movReg : decode (.arm 0xE1B00001#32) = .ok (.movReg .al true 0 1) := by decide
theorem test_dec_movImm : decode (.arm 0x13A00001#32) = .ok (.movImm .ne false 0 0 1) := by decide
theorem test_dec_subReg : decode (.arm 0xE0500001#32) = .ok (.subReg .al true 0 0 1) := by decide
theorem test_dec_subImm : decode (.arm 0xE25EF004#32) = .ok (.subImm .al true 14 15 0 4) := by decide
theorem test_dec_addReg : decode (.arm 0xE0811000#32) = .ok (.addReg .al false 1 1 0) := by decide
theorem test_dec_addImm : decode (.arm 0xE28FF004#32) = .ok (.addImm .al false 15 15 0 4) := by decide
theorem test_dec_cmpReg : decode (.arm 0xE1500001#32) = .ok (.cmpReg .al 0 1) := by decide
theorem test_dec_cmpImm : decode (.arm 0xE3500005#32) = .ok (.cmpImm .al 0 0 5) := by decide
theorem test_dec_ldrPre : decode (.arm 0xE5102004#32) = .ok (.ldrPre .al false 0 2 4) := by decide
theorem test_dec_ldrPreWb : decode (.arm 0xE5B02004#32) = .ok (.ldrPreWb .al true 0 2 4) := by decide
theorem test_dec_ldrPost : decode (.arm 0xE4102004#32) = .ok (.ldrPost .al false 0 2 4) := by decide
theorem test_dec_strPre : decode (.arm 0xE5801000#32) = .ok (.strPre .al true 0 1 0) := by decide
theorem test_dec_strPreWb : decode (.arm 0xE5201008#32) = .ok (.strPreWb .al false 0 1 8) := by decide
theorem test_dec_strPost : decode (.arm 0xE4801004#32) = .ok (.strPost .al true 0 1 4) := by decide
theorem test_dec_ldrbPre : decode (.arm 0xE5D02001#32) = .ok (.ldrbPre .al true 0 2 1) := by decide
theorem test_dec_ldrbPreWb : decode (.arm 0xE5712FFF#32) = .ok (.ldrbPreWb .al false 1 2 0xFFF) := by decide
theorem test_dec_ldrbPost : decode (.arm 0xE4D13001#32) = .ok (.ldrbPost .al true 1 3 1) := by decide
theorem test_dec_strbPre : decode (.arm 0xE5C01003#32) = .ok (.strbPre .al true 0 1 3) := by decide
theorem test_dec_strbPreWb : decode (.arm 0xE5E21001#32) = .ok (.strbPreWb .al true 2 1 1) := by decide
theorem test_dec_strbPost : decode (.arm 0xE4C01001#32) = .ok (.strbPost .al true 0 1 1) := by decide
theorem test_dec_ldm : decode (.arm 0xE8BD8003#32) = .ok (.ldm .al .ia true 13 0x8003) := by decide
theorem test_dec_stm : decode (.arm 0xE92D4003#32) = .ok (.stm .al .db true 13 0x4003) := by decide
theorem test_dec_ldm_ib : decode (.arm 0xE990000E#32) = .ok (.ldm .al .ib false 0 0x000E) := by decide
theorem test_dec_stm_da : decode (.arm 0xE820000E#32) = .ok (.stm .al .da true 0 0x000E) := by decide
theorem test_dec_b : decode (.arm 0x1AFFFFFC#32) = .ok (.b .ne 0xFFFFFC) := by decide
theorem test_dec_bl : decode (.arm 0xEB00003E#32) = .ok (.bl .al 0x00003E) := by decide
theorem test_dec_swi : decode (.arm 0xEF000011#32) = .ok (.swi .al 0x000011) := by decide
theorem test_dec_undef : decode (.arm 0xE7F000F0#32) = .ok (.undef .al 0xF8007 0) := by decide
theorem test_dec_tBx : decode (.thumb 0x4770#16) = .ok (.tBx 14) := by decide
theorem test_dec_tAddHi : decode (.thumb 0x4441#16) = .ok (.tAddHi 1 8) := by decide
theorem test_dec_tCmpHi : decode (.thumb 0x4587#16) = .ok (.tCmpHi 15 0) := by decide
theorem test_dec_tMovHi : decode (.thumb 0x46F7#16) = .ok (.tMovHi 15 14) := by decide
theorem test_dec_tSwi : decode (.thumb 0xDF05#16) = .ok (.tSwi 5) := by decide
theorem test_dec_tUndef : decode (.thumb 0xDE00#16) = .ok (.tUndef 0) := by decide
theorem test_dec_tBcond : decode (.thumb 0xD001#16) = .ok (.tBcond .eq 1) := by decide
theorem test_dec_tBlFirst : decode (.thumb 0xF7FF#16) = .ok (.tBlFirst 0x7FF) := by decide
theorem test_dec_tBlSecond : decode (.thumb 0xF810#16) = .ok (.tBlSecond 0x010) := by decide

/-! E5 to E14: words that are refused. -/

def rejects (x : Code) : Bool :=
  match decode x with
  | .ok _ => false
  | .error r => r == .unmodelled

theorem test_dec_refused : (rejects (.arm 0xE0000090#32) && rejects (.arm 0xE1A00100#32) &&
    rejects (.arm 0xE4B02004#32) && rejects (.arm 0xE8FD9FFF#32) && rejects (.arm 0xE1D000B0#32) &&
    rejects (.arm 0xE3A11001#32)) = true := by decide
theorem test_dec_nv : decode (.arm 0xF3A00001#32) = .error .conditionNV := by decide
theorem test_dec_thumb_refused : (rejects (.thumb 0x4408#16) && rejects (.thumb 0x2005#16) &&
    rejects (.thumb 0x4780#16)) = true := by decide

/-! P2: the bytes of the instruction at 0x8000 in both byte orders. -/

theorem test_bytes_little : Instr.bytes false (.movImm .al false 0 10 1) = [0x01, 0x0A, 0xA0, 0xE3] := by
  decide
theorem test_bytes_big : Instr.bytes true (.movImm .al false 0 10 1) = [0xE3, 0xA0, 0x0A, 0x01] := by
  decide

/-! ### Conditions: the spot checks after E14 -/

def psrOf (f : BitVec 4) : Psr := Psr.ofWord (f ++ 0x0000010#28)

theorem test_cond_1000 : condList.filter (condPassed (psrOf 0b1000)) = [.ne, .cc, .mi, .vc, .ls, .lt, .le, .al] := by
  decide
theorem test_cond_0110 : condList.filter (condPassed (psrOf 0b0110)) = [.eq, .cs, .pl, .vc, .ls, .ge, .le, .al] := by
  decide
theorem test_cond_1001 : condList.filter (condPassed (psrOf 0b1001)) = [.ne, .cc, .mi, .vs, .ls, .ge, .gt, .al] := by
  decide
theorem test_cond_0010 : condList.filter (condPassed (psrOf 0b0010)) = [.ne, .cs, .pl, .vc, .hi, .ge, .gt, .al] := by
  decide

/-! ### One step each: data processing -/

/-- SUBS gives `r` and the flags, CMP the flags only. -/
def subsGives (a b r : Word) (f : BitVec 4) : Bool :=
  leads (exec (.subReg .al true 0 0 1) (stateOf 0x8000 0xD3 [(0, a), (1, b)] []))
    (fun t => t.readReg 0 == r && nzcv t == f) &&
  leads (exec (.cmpReg .al 0 1) (stateOf 0x8000 0xD3 [(0, a), (1, b)] []))
    (fun t => t.readReg 0 == a && nzcv t == f)

def addsGives (a b r : Word) (f : BitVec 4) : Bool :=
  leads (exec (.addReg .al true 0 0 1) (stateOf 0x8000 0xD3 [(0, a), (1, b)] []))
    (fun t => t.readReg 0 == r && nzcv t == f)

/-- D1 to D4, D5 to D7, D8 to D8d. -/
theorem test_sub_flags : (subsGives 0 1 0xFFFFFFFF 0b1000 && subsGives 0x80000000 1 0x7FFFFFFF 0b0011 &&
    subsGives 1 1 0 0b0110 && subsGives 3 5 0xFFFFFFFE 0b1000) = true := by decide
theorem test_sub_overflow : (subsGives 0x7FFFFFFF 0xFFFFFFFF 0x80000000 0b1001 &&
    subsGives 0 0x80000000 0x80000000 0b1001 && subsGives 0x80000000 0x80000000 0 0b0110) = true := by decide
theorem test_add_flags : (addsGives 0xFFFFFFFF 1 0 0b0110 && addsGives 0x7FFFFFFF 1 0x80000000 0b1001 &&
    addsGives 0x80000000 0x80000000 0 0b0111 && addsGives 0 0 0 0b0100 &&
    addsGives 0x80000000 0x7FFFFFFF 0xFFFFFFFF 0b1000) = true := by decide
/-- D9. -/
theorem test_movReg : leads (runArm (stateOf 0x8000 0xB00000D3 [(1, 0), (0, 9)] []) 0xE1B00001)
    (fun t => t.readReg 0 == 0#32 && nzcv t == 0b0111#4) = true := by decide
/-- D15. -/
theorem test_movReg_pc : leads (runArm (stateOf 0x8000 0xD3 [] []) 0xE1A0000F)
    (fun t => t.readReg 0 == 0x8008#32 && t.pc == 0x8004#32) = true := by decide
/-- D11. -/
theorem test_movImm_rotate : leads (runArm (stateOf 0x8000 0x200000D3 [] []) 0xE3B00FFF)
    (fun t => t.readReg 0 == 0x3FC#32 && nzcv t == 0b0000#4) = true := by decide
/-- D12. -/
theorem test_movImm_keeps_c : leads (runArm (stateOf 0x8000 0x200000D3 [(0, 7)] []) 0xE3B00000)
    (fun t => t.readReg 0 == 0#32 && nzcv t == 0b0110#4) = true := by decide
/-- D14. -/
theorem test_subImm : leads (runArm (stateOf 0x8000 0x600000D3 [(0, 0)] []) 0xE2400001)
    (fun t => t.readReg 0 == 0xFFFFFFFF#32 && nzcv t == 0b0110#4) = true := by decide
/-- D24. -/
theorem test_subImm_return :
    leads (runArm (withSpsr (stateOf 0x200 0x92 [(14, 0x8008)] []) 0x80000010) 0xE25EF004)
      (fun t => t.cpsr == Psr.ofWord 0x80000010 && t.pc == 0x8004#32) = true := by decide
/-- D16. -/
theorem test_addImm_pc : leads (runArm (stateOf 0x8004 0xD3 [] []) 0xE28F0001)
    (fun t => t.readReg 0 == 0x800D#32) = true := by decide
/-- D21. -/
theorem test_addImm_branch : leads (runArm (stateOf 0x8000 0xD3 [] []) 0xE28FF004)
    (fun t => t.pc == 0x800C#32) = true := by decide
/-- D17. -/
theorem test_cmpImm : leads (runArm (stateOf 0x8000 0xD3 [(0, 3)] []) 0xE3500005)
    (fun t => t.readReg 0 == 3#32 && nzcv t == 0b1000#4) = true := by decide
/-- D22, D23, D28, D29, D30, D26: the return from an exception. -/
theorem test_return_arm :
    leads (runArm (withSpsr (stateOf 0x200 0xD3 [(14, 0x8004)] []) 0x60000010) 0xE1B0F00E)
      (fun t => t.cpsr == Psr.ofWord 0x60000010 && t.pc == 0x8004#32) = true := by decide
theorem test_return_thumb :
    leads (runArm (withSpsr (stateOf 0x200 0xD3 [(14, 0x8006)] []) 0x00000030) 0xE1B0F00E)
      (fun t => t.cpsr == Psr.ofWord 0x00000030 && t.pc == 0x8006#32) = true := by decide
theorem test_return_stuck :
    leads (runArm (withSpsr (stateOf 0x200 0xD3 [(14, 0x8004)] []) 0) 0xE1B0F00E)
      (fun t => t.stuck) = true := by decide
theorem test_return_refused :
    refuses (runArm (withSpsr (stateOf 0x200 0xD3 [(14, 0x8005)] []) 0x30) 0xE1B0F00E)
      .thumbTargetNotAligned = true ∧
    refuses (runArm (withSpsr (stateOf 0x200 0xD3 [(14, 0x8006)] []) 0x10) 0xE1B0F00E)
      .armTargetNotAligned = true ∧
    refuses (runArm (stateOf 0x200 0x10 [(14, 0x8004)] []) 0xE1B0F00E) .noSpsr = true := by decide
/-- D31, D32, D35, D37, D38. -/
theorem test_tAddHi : leads (runThumb (stateOf 0x8000 0xF3 [(1, 1), (8, 0x10)] []) 0x4441)
    (fun t => t.readReg 1 == 0x11#32 && t.pc == 0x8002#32 && nzcv t == 0#4) = true := by decide
theorem test_tCmpHi : leads (runThumb (stateOf 0x8000 0xF3 [(1, 0x11), (8, 0x10)] []) 0x4541)
    (fun t => nzcv t == 0b0010#4) = true := by decide
theorem test_tCmpHi_pc : refuses (runThumb (stateOf 0x8000 0xF3 [] []) 0x4587) .thumbCmpR15 = true := by
  decide
theorem test_tMovHi_pc : leads (runThumb (stateOf 0x8000 0xF3 [(14, 0x8005)] []) 0x46F7)
    (fun t => t.pc == 0x8004#32 && t.cpsr.t) = true := by decide
theorem test_tMovHi_fiq : leads (runThumb (stateOf 0x8000 0xF1 [(8, 7)] []) 0x4640)
    (fun t => t.readReg 0 == 7#32 && t.regs.high[0] == 0#32) = true := by decide

/-! ### Branches -/

/-- B3, B4, B6. -/
theorem test_b : leads (runArm (stateOf 0x8010 0xD3 [] []) 0x1AFFFFFC) (fun t => t.pc == 0x8008#32) = true := by
  decide
theorem test_b_failed : leads (runArm (stateOf 0x8010 0x400000D3 [] []) 0x1AFFFFFC)
    (fun t => t.pc == 0x8014#32) = true := by decide
theorem test_bl : leads (runArm (stateOf 0x208 0xD3 [] []) 0xEBFFFFBC)
    (fun t => t.pc == 0x100#32 && t.readReg 14 == 0x20C#32) = true := by decide
/-- B10, B9. -/
theorem test_bx : leads (runArm (stateOf 0x200 0xD3 [(0, 0x8003)] []) 0xE12FFF10)
    (fun t => t.pc == 0x8002#32 && t.cpsr == Psr.ofWord 0xF3) = true := by decide
theorem test_bx_refused :
    refuses (runArm (stateOf 0x200 0xD3 [(0, 0x8002)] []) 0xE12FFF10) .armTargetNotAligned = true := by decide
/-- B14, B15. -/
theorem test_tBx_pc : leads (runThumb (stateOf 0x8004 0xF3 [] []) 0x4778)
    (fun t => t.pc == 0x8008#32 && !t.cpsr.t) = true := by decide
theorem test_tBx_refused :
    refuses (runThumb (stateOf 0x8006 0xF3 [] []) 0x4778) .armTargetNotAligned = true := by decide
/-- B18, B17, B21, B22, B23. -/
theorem test_tBcond : leads (runThumb (stateOf 0x8004 0x400000F3 [] []) 0xD0FE)
    (fun t => t.pc == 0x8004#32) = true := by decide
theorem test_tBcond_failed : leads (runThumb (stateOf 0x8004 0xF3 [] []) 0xD001)
    (fun t => t.pc == 0x8006#32) = true := by decide
theorem test_tBlFirst : leads (runThumb (stateOf 0x8000 0xF3 [] []) 0xF7FF)
    (fun t => t.readReg 14 == 0x7004#32 && t.pc == 0x8002#32) = true := by decide
theorem test_tBlSecond : leads (runThumb (stateOf 0x8002 0xF3 [(14, 0x7004)] []) 0xFFFE)
    (fun t => t.readReg 14 == 0x8005#32 && t.pc == 0x8000#32) = true := by decide
theorem test_tBlSecond_refused :
    refuses (runThumb (stateOf 0x8002 0xF3 [(14, 0x8005)] []) 0xF810) .thumbTargetNotAligned = true := by
  decide

/-! ### PSR transfer -/

/-- M4: bits 27:8 are a free value, so only the fields are compared. -/
theorem test_mrs : ∃ t, exec (.mrs .al .spsr 0) (withSpsr (stateOf 0x200 0x92 [] []) 0x80000010) = .next t ∧
    Psr.ofWord (t.readReg 0) = Psr.ofWord 0x80000010 := ⟨_, rfl, Psr.ofWord_toWord _ _⟩
/-- M3. -/
theorem test_mrs_refused : refuses (runArm (stateOf 0x200 0x10 [] []) 0xE14F0000) .noSpsr = true := by decide
/-- M5, M9, M10. -/
theorem test_msrReg : leads (runArm (stateOf 0x200 0x600000D3 [(0, 0x10)] []) 0xE121F000)
    (fun t => t.cpsr == Psr.ofWord 0x60000010) = true := by decide
theorem test_msrReg_user : leads (runArm (stateOf 0x200 0x10 [(0, 0xF00000D3)] []) 0xE129F000)
    (fun t => t.cpsr == Psr.ofWord 0xF0000010) = true := by decide
theorem test_msrImm_T : refuses (runArm (stateOf 0x200 0xD3 [] []) 0xE321F033) .softwareChangeOfT = true := by
  decide
/-- M6, M11, M12. -/
theorem test_msrImm_bank : leads (runArm (stateOf 0x200 0xD3 [(13, 0x3000)] []) 0xE321F0D2)
    (fun t => t.readReg 13 == 0#32 && t.regs.sp.svc == 0x3000#32 && t.cpsr == Psr.ofWord 0xD2) = true := by decide
theorem test_msrImm_stuck : leads (runArm (stateOf 0x200 0xD3 [] []) 0xE321F000) (fun t => t.stuck) = true := by
  decide
theorem test_msrReg_spsr : leads (runArm (stateOf 0x200 0xD3 [(0, 0x30)] []) 0xE169F000)
    (fun t => t.spsr.svc == Psr.ofWord 0x30 && t.cpsr == Psr.ofWord 0xD3) = true := by decide

/-! ### Single transfers and swap -/

def twoWords : List (Word × Word) := [(0x1000, 0x11223344), (0x1004, 0xCAFEF00D)]

/-- T2, T3, T5. -/
theorem test_ldrPre : leads (runArm (stateOf 0x8000 0xD3 [(0, 0x1004)] twoWords) 0xE5102004)
    (fun t => t.readReg 2 == 0x11223344#32 && t.readReg 0 == 0x1004#32) = true := by decide
theorem test_ldrPreWb : leads (runArm (stateOf 0x8000 0xD3 [(0, 0x1000)] twoWords) 0xE5B02004)
    (fun t => t.readReg 2 == 0xCAFEF00D#32 && t.readReg 0 == 0x1004#32) = true := by decide
theorem test_ldrPost : leads (runArm (stateOf 0x8000 0xD3 [(0, 0x1004)] twoWords) 0xE4102004)
    (fun t => t.readReg 2 == 0xCAFEF00D#32 && t.readReg 0 == 0x1000#32) = true := by decide
/-- T7, T8, T9, T10. -/
theorem test_ldr_pc_refused : refuses (runArm (stateOf 0x8000 0xD3 [(0, 0x1000)] [(0x1000, 0x8001)]) 0xE590F000)
    .armTargetNotAligned = true := by decide
theorem test_ldr_literal : leads (runArm (stateOf 0x8004 0xD3 [] [(0x8020, 0x11223344)]) 0xE59F1014)
    (fun t => t.readReg 1 == 0x11223344#32) = true := by decide
theorem test_ldr_misaligned :
    refuses (runArm (stateOf 0x8000 0xD3 [(0, 0x1000)] twoWords) 0xE5902002) .misaligned = true := by decide
theorem test_ldr_refused :
    refuses (runArm (stateOf 0x8000 0xD3 [(0, 0x1000)] twoWords) 0xE4900004) .writebackBaseIsTransfer = true := by
  decide
/-- T11 in both byte orders, T12. -/
theorem test_strPre : leads (exec (.strPre .al true 0 1 0) (stateOf 0x8000 0xD3 [(0, 0x1000), (1, 0x11223344)] []))
    (fun t => t.mem == [(0x1000, 0x44#8), (0x1001, 0x33), (0x1002, 0x22), (0x1003, 0x11)]) = true := by decide
theorem test_strPre_big :
    leads (exec (.strPre .al true 0 1 0)
      { stateOf 0x8000 0xD3 [(0, 0x1000), (1, 0x11223344)] [] with
        platform := { Platform.atReset with bigEndian := true } })
    (fun t => t.mem == [(0x1000, 0x11#8), (0x1001, 0x22), (0x1002, 0x33), (0x1003, 0x44)]) = true := by decide
theorem test_strPreWb : leads (runArm (stateOf 0x8000 0xD3 [(0, 0x1008), (1, 5)] []) 0xE5201008)
    (fun t => wordAt t 0x1000 == some 5#32 && t.readReg 0 == 0x1000#32) = true := by decide
/-- P2: the store at 0x8008. -/
theorem test_strPost : leads (runArm (stateOf 0x8008 0xD3 [(0, 0x1000), (1, 0x11223344)] []) 0xE4801004)
    (fun t => wordAt t 0x1000 == some 0x11223344#32 && t.readReg 0 == 0x1004#32) = true := by decide
/-- T14, then R163 with write-back. -/
theorem test_ldrbPre : leads (runArm (stateOf 0x8000 0xD3 [(0, 0x1000)] twoWords) 0xE5D02001)
    (fun t => t.readReg 2 == 0x33#32) = true := by decide
theorem test_ldrbPreWb : leads (runArm (stateOf 0x8000 0xD3 [(1, 0x1FFF)] [(0x1000, 0x443322F1)]) 0xE5712FFF)
    (fun t => t.readReg 2 == 0xF1#32 && t.readReg 1 == 0x1000#32) = true := by decide
theorem test_ldrbPost : leads (runArm (stateOf 0x8000 0xD3 [(1, 0x1003)] twoWords) 0xE4D13001)
    (fun t => t.readReg 3 == 0x11#32 && t.readReg 1 == 0x1004#32) = true := by decide
/-- T15, T16, and R164 with write-back. -/
theorem test_strbPre : leads (runArm (stateOf 0x8000 0xD3 [(0, 0x1000), (1, 0x123456AB)] [(0x1000, 0)]) 0xE5C01003)
    (fun t => wordAt t 0x1000 == some 0xAB000000#32) = true := by decide
theorem test_strbPost : leads (runArm (stateOf 0x8000 0xD3 [(0, 0x1000), (1, 0x7F)] []) 0xE4C01001)
    (fun t => t.mem.read 0x1000 == some 0x7F#8 && t.readReg 0 == 0x1001#32) = true := by decide
theorem test_strbPreWb : leads (runArm (stateOf 0x8000 0xD3 [(2, 0x1000), (1, 0x1FF)] []) 0xE5E21001)
    (fun t => t.mem.read 0x1001 == some 0xFF#8 && t.readReg 2 == 0x1001#32) = true := by decide
/-- T17, T18, T20. -/
theorem test_swp : leads (runArm (stateOf 0x8000 0xD3 [(0, 0x1000), (1, 5)] [(0x1000, 9)]) 0xE1002091)
    (fun t => t.readReg 2 == 9#32 && wordAt t 0x1000 == some 5#32) = true := by decide
theorem test_swpb : leads (runArm (stateOf 0x8000 0xD3 [(0, 0x1001), (1, 0x1FF)] [(0x1000, 0x00003300)]) 0xE1402091)
    (fun t => t.readReg 2 == 0x33#32 && wordAt t 0x1000 == some 0xFF00#32) = true := by decide
theorem test_swp_refused : refuses (runArm (stateOf 0x8000 0xD3 [] []) 0xE1000090) .swpBaseIsOperand = true := by
  decide

/-! ### Block transfers -/

def stmGives (m : BlockMode) (a after : Word) : Bool :=
  leads (exec (.stm .al m true 0 0x000E) (stateOf 0x8000 0xD3 [(0, 0x2000), (1, 0xA1), (2, 0xA2), (3, 0xA3)] []))
    (fun t => wordAt t a == some 0xA1#32 && wordAt t (a + 4) == some 0xA2#32 &&
      wordAt t (a + 8) == some 0xA3#32 && t.readReg 0 == after)

def ldmGives (m : BlockMode) (a after : Word) : Bool :=
  leads (exec (.ldm .al m true 0 0x000E)
      (stateOf 0x8000 0xD3 [(0, 0x2000)] [(a, 0xA1), (a + 4, 0xA2), (a + 8, 0xA3)]))
    (fun t => t.readReg 1 == 0xA1#32 && t.readReg 2 == 0xA2#32 && t.readReg 3 == 0xA3#32 &&
      t.readReg 0 == after)

/-- T21 to T24: the addresses of R1, R2, R3 and the base afterwards. -/
theorem test_stm_modes : (stmGives .ia 0x2000 0x200C && stmGives .ib 0x2004 0x200C &&
    stmGives .da 0x1FF8 0x1FF4 && stmGives .db 0x1FF4 0x1FF4) = true := by decide
theorem test_ldm_modes : (ldmGives .ia 0x2000 0x200C && ldmGives .ib 0x2004 0x200C &&
    ldmGives .da 0x1FF8 0x1FF4 && ldmGives .db 0x1FF4 0x1FF4) = true := by decide
/-- T25, T33. -/
theorem test_ldm_pc :
    leads (runArm (stateOf 0x8000 0xD3 [(13, 0x2000)] [(0x2000, 1), (0x2004, 2), (0x2008, 0x104)]) 0xE8BD8003)
      (fun t => t.readReg 0 == 1#32 && t.pc == 0x104#32 && t.readReg 13 == 0x200C#32) = true := by decide
theorem test_ldm_fiq : leads (runArm (stateOf 0x8000 0xD1 [(13, 0x2000)] [(0x2000, 1), (0x2004, 2)]) 0xE8BD0300)
    (fun t => t.regs.highFiq[0] == 1#32 && t.regs.highFiq[1] == 2#32 && t.regs.sp.fiq == 0x2008#32 &&
      t.regs.high[0] == 0#32) = true := by decide
/-- T29, T28, T30. -/
theorem test_stm_base_first : leads (runArm (stateOf 0x8000 0xD3 [(0, 0x2000), (1, 7)] []) 0xE8A00003)
    (fun t => wordAt t 0x2000 == some 0x2000#32 && wordAt t 0x2004 == some 7#32 && t.readReg 0 == 0x2008#32) = true := by
  decide
theorem test_block_refused :
    refuses (runArm (stateOf 0x8000 0xD3 [(0, 0x2000)] []) 0xE8B00003) .ldmWritebackBaseInList = true ∧
    refuses (runArm (stateOf 0x8000 0xD3 [(1, 0x2000)] []) 0xE8A10003) .stmWritebackBaseNotFirst = true ∧
    refuses (runArm (stateOf 0x8000 0xD3 [] []) 0xE8900000) .emptyRegisterList = true := by decide

/-! ### Data aborts: T34, T37, T38, T39 -/

theorem test_abort_ldr :
    leads (runArm (aborting (stateOf 0x8000 0x10 [(0, 0x1000), (2, 0x55)] twoWords) 0x1004 4 .read) 0xE5B02004)
      (fun t => t.readReg 0 == 0x1004#32 && t.readReg 2 == 0x55#32 && t.cpsr == Psr.ofWord 0x97 &&
        t.spsr.abt == Psr.ofWord 0x10 && t.readReg 14 == 0x8008#32 && t.pc == 0x10#32) = true := by decide
theorem test_abort_swp :
    leads (runArm (aborting (stateOf 0x8000 0x10 [(0, 0x1000), (1, 5), (2, 0x55)] [(0x1000, 9)]) 0x1000 4 .write)
      0xE1002091)
      (fun t => t.readReg 2 == 0x55#32 && wordAt t 0x1000 == some 9#32 && t.pc == 0x10#32) = true := by decide
theorem test_abort_ldm :
    leads (runArm (aborting (stateOf 0x8000 0x10 [(13, 0x2000), (1, 0x77)] [(0x2000, 1)]) 0x2004 4 .read) 0xE8BD8003)
      (fun t => t.readReg 0 == 1#32 && t.readReg 1 == 0x77#32 && t.regs.sp.usr == 0x200C#32 &&
        t.pc == 0x10#32) = true := by decide
/-- The free choice for the later store stands in the statement; here nothing is said of it. -/
theorem test_abort_stm :
    leads (exec (.stm .al .ia true 0 0x0006)
      (aborting (stateOf 0x8000 0x10 [(0, 0x2000), (1, 0xA1), (2, 0xA2)] [(0x2000, 0), (0x2004, 0)]) 0x2004 4 .write))
      (fun t => wordAt t 0x2000 == some 0xA1#32 && wordAt t 0x2004 == some 0#32 && t.readReg 0 == 0x2008#32) = true := by
  decide

/-! ### Software interrupt and undefined patterns: W1, W2, W5, W6 -/

theorem test_swi : leads (runArm (stateOf 0x8000 0x60000010 [] []) 0xEF000011)
    (fun t => t.cpsr == Psr.ofWord 0x60000093 && t.spsr.svc == Psr.ofWord 0x60000010 &&
      t.readReg 14 == 0x8004#32 && t.pc == 8#32) = true := by decide
theorem test_tSwi : leads (runThumb (stateOf 0x8004 0x30 [] []) 0xDF05)
    (fun t => t.cpsr == Psr.ofWord 0x93 && t.spsr.svc == Psr.ofWord 0x30 && t.readReg 14 == 0x8006#32) = true := by
  decide
theorem test_undef : leads (runArm (stateOf 0x8000 0x13 [] []) 0xE7F000F0)
    (fun t => t.cpsr == Psr.ofWord 0x9B && t.spsr.und == Psr.ofWord 0x13 && t.readReg 14 == 0x8004#32 &&
      t.pc == 4#32) = true := by decide
theorem test_tUndef : leads (runThumb (stateOf 0x8004 0x20000030 [] []) 0xDE00)
    (fun t => t.cpsr == Psr.ofWord 0x2000009B && t.spsr.und == Psr.ofWord 0x20000030 &&
      t.readReg 14 == 0x8006#32) = true := by decide

/-! ### The step: X2, X4, X8a, X11, X12 -/

theorem test_irq : leads (step (seeing (stateOf 0x8006 0x30 [] []) [⟨false, true, false⟩]))
    (fun t => t.readReg 14 == 0x800A#32 && t.spsr.irq == Psr.ofWord 0x30 && t.cpsr == Psr.ofWord 0x92 &&
      t.pc == 0x18#32) = true := by decide
theorem test_fiq_first : leads (step (seeing (stateOf 0x8004 0x10 [] []) [⟨false, false, false⟩]))
    (fun t => t.readReg 14 == 0x8008#32 && t.cpsr == Psr.ofWord 0xD1 && t.pc == 0x1C#32) = true := by decide
theorem test_prefetch_abort : leads (step (aborting (stateOf 0x9002 0x30 [] []) 0x9002 2 .fetch))
    (fun t => t.readReg 14 == 0x9006#32 && t.spsr.abt == Psr.ofWord 0x30 && t.cpsr == Psr.ofWord 0x97 &&
      t.pc == 0xC#32) = true := by decide
theorem test_irq_before_prefetch :
    leads (step (seeing (aborting (stateOf 0x9000 0x10 [] []) 0x9000 4 .fetch) [⟨false, true, false⟩]))
      (fun t => t.pc == 0x18#32 && t.readReg 14 == 0x9004#32) = true := by decide
theorem test_stuck_idles : leads (step (seeing (stateOf 0x8000 0 [] []) [⟨false, false, false⟩]))
    (fun t => t == stateOf 0x8000 0 [] []) = true := by decide
/-- Z1, in the parts that are not free values. -/
theorem test_reset : ∃ t, step (seeing (stateOf 0x8000 0 [] twoWords) [⟨true, true, true⟩]) = .next t ∧
    t.pc = 0#32 ∧ t.cpsr.m = 0b10011#5 ∧ t.cpsr.i = true ∧ t.cpsr.f = true ∧ t.cpsr.t = false ∧
    wordAt t 0x1000 = some 0x11223344#32 :=
  ⟨_, rfl, rfl, rfl, rfl, Bool.or_true _, rfl, by decide⟩
/-- The state after reset has nothing to execute until a program is loaded (log 19). -/
theorem test_reset_unwritten :
    (match step State.reset with
      | .next _ => false
      | .fault f => f == .unwritten 0
      | .refused _ => false) = true := by decide

/-! ### Witnesses: states and operands that meet the hypotheses of the statements -/

/-- Supervisor mode, ARM state; CMP R0, R1 at the pc, two words of data, Z and C set. -/
def armDemo : State :=
  (stateOf 0x8000 0x600000D3 [(0, 0x1000), (1, 5), (2, 0x55), (13, 0x2000), (14, 0x8005)] twoWords).withFetchWord 32 0xE1500001

/-- The same in User mode. -/
def userDemo : State :=
  (stateOf 0x8000 0x60000010 [(0, 0x1000), (1, 5), (2, 0x55), (13, 0x2000), (14, 0x104)] twoWords).withFetchWord 32 0xE1500001

/-- The same in THUMB state, with MOV R8, R0 at the pc. -/
def thumbDemo : State :=
  (stateOf 0x8002 0x600000D3 [(0, 0x1001), (1, 0x1002), (2, 0x1004), (14, 0x8004)] twoWords).withFetchWord 16 0x4680

theorem armDemo_undisturbed : armDemo.Undisturbed :=
  ⟨by decide, by decide, .inl (by decide), .inr (by decide)⟩
theorem thumbDemo_undisturbed : thumbDemo.Undisturbed :=
  ⟨by decide, by decide, .inr (by decide), .inl (by decide)⟩
theorem armDemo_arm : armDemo.cpsr.t = false ∧ condPassed armDemo.cpsr .eq = true ∧
    condPassed armDemo.cpsr .ne = false ∧ condPassed armDemo.cpsr .al = true := by decide
theorem thumbDemo_thumb : thumbDemo.cpsr.t = true ∧ thumbDemo.pc.toNat % 2 = 0 ∧
    condPassed thumbDemo.cpsr .eq = true ∧ condPassed thumbDemo.cpsr .ne = false := by decide

theorem witness_DecodeOfEncodeIsIdentity : Instr.wellFormed (.tBcond .le 0xFF) = true ∧
    Instr.wellFormed (.tAddHi 7 8) = true ∧ Instr.wellFormed (.ldm .al .da true 15 0) = true := by decide
theorem witness_AcceptedWordIsItsEncoding : decode (.thumb 0xDDFF#16) = .ok (.tBcond .le 0xFF) ∧
    decode (.arm 0x07FFFFFF#32) = .ok (.undef .eq 0xFFFFF 0xF) := by decide
theorem witness_ArmRowsAreDisjoint : (armTable[0]'(by decide)).hits 0xE12FFF1E#32 = true ∧
    (armTable[31]'(by decide)).hits 0xE7F000F0#32 = true := by decide

theorem witness_StepRunsTheDecodedInstruction : armDemo.Undisturbed ∧
    armDemo.Fetches [0x01, 0x00, 0x50, 0xE1] ∧
    decodeBytes armDemo.platform.bigEndian armDemo.cpsr.t [0x01, 0x00, 0x50, 0xE1] = .ok (.cmpReg .al 0 1) :=
  ⟨armDemo_undisturbed, ⟨by decide, ⟨by decide, by decide, by decide⟩, by decide, by decide, by decide⟩, by decide⟩
theorem witness_StepRunsTheDecodedInstruction_thumb : thumbDemo.Undisturbed ∧
    thumbDemo.Fetches [0x80, 0x46] ∧
    decodeBytes thumbDemo.platform.bigEndian thumbDemo.cpsr.t [0x80, 0x46] = .ok (.tMovHi 8 0) :=
  ⟨thumbDemo_undisturbed, ⟨by decide, ⟨by decide, by decide, by decide⟩, by decide, by decide, by decide⟩, by decide⟩

def nvDemo : State := armDemo.withFetchWord 32 0xFFFFFFFF

/-- A coprocessor word and a THUMB shift, which no instruction of the subset encodes. -/
theorem coprocessor_unlisted (i : Instr) : encode i ≠ .arm 0xEE000000#32 := by
  intro h
  cases i <;> simp only [encode, reduceCtorEq, Code.arm.injEq] at h <;>
    · have h27 : BitVec.getLsbD _ 27 = BitVec.getLsbD _ 27 := congrArg (BitVec.getLsbD · 27) h
      have h26 : BitVec.getLsbD _ 26 = BitVec.getLsbD _ 26 := congrArg (BitVec.getLsbD · 26) h
      have h24 : BitVec.getLsbD _ 24 = BitVec.getLsbD _ 24 := congrArg (BitVec.getLsbD · 24) h
      simp only [encodeDpReg, encodeDpImm, encodeSingle, encodeBlock, encodeSwap, BitVec.getLsbD_append] at h27 h26 h24
      revert h27 h26 h24
      simp [bit]
theorem thumbShift_unlisted (i : Instr) : encode i ≠ .thumb 0x0000#16 := by
  intro h
  cases i <;> simp only [encode, reduceCtorEq, Code.thumb.injEq] at h <;>
    · have h14 : BitVec.getLsbD _ 14 = BitVec.getLsbD _ 14 := congrArg (BitVec.getLsbD · 14) h
      simp only [encodeHigh, BitVec.getLsbD_append] at h14
      revert h14
      simp

def coprocessorDemo : State := armDemo.withFetchWord 32 0xEE000000

def shiftDemo : State := thumbDemo.withFetchWord 16 0x0000

theorem witness_WordOutsideTheSubsetIsRefused : nvDemo.Undisturbed ∧ nvDemo.cpsr.t = false ∧
    nvDemo.Fetches (toBytes nvDemo.platform.bigEndian 4 0xFFFFFFFF#32) ∧
    (0xFFFFFFFF#32).extractLsb' 28 4 = 15#4 :=
  ⟨⟨by decide, by decide, .inl (by decide), .inl (by decide)⟩, by decide,
    ⟨by decide, ⟨by decide, by decide, by decide⟩, by decide, by decide, by decide⟩, by decide⟩
theorem witness_WordOutsideTheSubsetIsRefused_arm : coprocessorDemo.Undisturbed ∧ coprocessorDemo.cpsr.t = false ∧
    coprocessorDemo.Fetches (toBytes coprocessorDemo.platform.bigEndian 4 0xEE000000#32) ∧
    (0xEE000000#32).extractLsb' 28 4 ≠ 15#4 ∧ ∀ i : Instr, i.wellFormed = true → encode i ≠ .arm 0xEE000000#32 :=
  ⟨⟨by decide, by decide, .inl (by decide), .inl (by decide)⟩, by decide,
    ⟨by decide, ⟨by decide, by decide, by decide⟩, by decide, by decide, by decide⟩, by decide,
    fun i _ => coprocessor_unlisted i⟩
theorem witness_WordOutsideTheSubsetIsRefused_thumb : shiftDemo.Undisturbed ∧ shiftDemo.cpsr.t = true ∧
    shiftDemo.Fetches (toBytes shiftDemo.platform.bigEndian 2 ((0x0000#16).setWidth 32)) ∧
    ∀ i : Instr, i.wellFormed = true → encode i ≠ .thumb 0x0000#16 :=
  ⟨⟨by decide, by decide, .inr (by decide), .inl (by decide)⟩, by decide,
    ⟨by decide, ⟨by decide, by decide, by decide⟩, by decide, by decide, by decide⟩,
    fun i _ => thumbShift_unlisted i⟩

/-- FIQ and IRQ both asked for and enabled; IRQ alone; both asked for with FIQ disabled. -/
theorem witness_EnabledInterruptIsTaken :
    (∃ s : State, s.boundary.reset = false ∧ s.stuck = false ∧ s.boundary.nFIQ = false ∧ s.cpsr.f = false ∧
      s.boundary.nIRQ = false ∧ s.cpsr.i = false) ∧
    (∃ s : State, s.boundary.reset = false ∧ s.stuck = false ∧ s.boundary.nFIQ = true ∧ s.boundary.nIRQ = false ∧
      s.cpsr.i = false) ∧
    (∃ s : State, s.boundary.reset = false ∧ s.stuck = false ∧ s.boundary.nFIQ = false ∧ s.cpsr.f = true ∧
      s.boundary.nIRQ = false ∧ s.cpsr.i = false) :=
  ⟨⟨seeing userDemo [⟨false, false, false⟩], by decide⟩, ⟨seeing userDemo [⟨false, true, false⟩], by decide⟩,
    ⟨seeing (stateOf 0 0x50 [] []) [⟨false, false, false⟩], by decide⟩⟩
theorem witness_ResetIsTakenFromEveryState : (seeing armDemo [⟨true, false, true⟩]).boundary.reset = true ∧
    (seeing (stateOf 0 0 [] []) [⟨true, true, true⟩]).boundary.reset = true := by decide
theorem witness_StuckMachineIdlesUntilReset : (seeing (stateOf 4 0xC0 [] []) [⟨false, false, false⟩]).stuck = true ∧
    ∀ e ∈ (seeing (stateOf 4 0xC0 [] []) [⟨false, false, false⟩]).inputs.take 3, e.reset = false := by decide
theorem witness_FetchAbortTakesPrefetchAbort :
    (aborting armDemo 0x8000 4 .fetch).Undisturbed ∧ (aborting armDemo 0x8000 4 .fetch).pcWrapped = false ∧
    (aborting armDemo 0x8000 4 .fetch).Aborts .fetch 0x8000 4 :=
  ⟨⟨by decide, by decide, .inl (by decide), .inl (by decide)⟩, by decide, by decide, by decide⟩

def fiqDemo : State := seeing (aborting userDemo 0x1000 4 .read) [⟨false, false, true⟩]

/-- A data abort, of whatever instruction, in User mode with an FIQ at the next boundary. -/
theorem witness_FiqAtDataAbortResumesAbortHandler : fiqDemo.TakesDataAbort (fiqDemo.raise .dataAbort) ∧
    fiqDemo.cpsr.f = false ∧ (fiqDemo.raise .dataAbort).inputs = [⟨false, false, true⟩] :=
  ⟨State.raise_takes fiqDemo .dataAbort, by decide, by decide⟩
theorem witness_ReturnUndoesExceptionEntry : ExceptionKind.dataAbort ≠ .reset ∧ userDemo.stuck = false ∧
    userDemo.pcAligned = true ∧ thumbDemo.stuck = false ∧ thumbDemo.pcAligned = true := by decide

theorem witness_EveryStepKeepsWellKept : armDemo.Inv ∧ ∃ t, step armDemo = .next t :=
  ⟨⟨by decide, by decide, by decide⟩, _, rfl⟩
theorem witness_FailedConditionOnlyAdvances : Instr.cond? (.stm .ne .ia true 0 1) = some .ne ∧
    armDemo.cpsr.t = false ∧ condPassed armDemo.cpsr .ne = false := by decide

/-- The clauses of the rules of MOV, SUB and ADD: both outcomes of the condition, a destination R15 with
an aligned and a misaligned result, an SPSR with an illegal mode, in ARM and in THUMB state, none. -/
theorem witness_AluRule : armDemo.cpsr.t = false ∧ condPassed armDemo.cpsr .ne = false ∧
    condPassed armDemo.cpsr .al = true ∧ (armDemo.readReg 0).toNat % 4 = 0 ∧
    (armDemo.readReg 14).toNat % 4 ≠ 0 ∧ userDemo.bank = none ∧ armDemo.bank = some .svc ∧
    modeOf (armDemo.spsr.get .svc).m = none ∧
    modeOf ((withSpsr armDemo 0x10).spsr.get .svc).m ≠ none ∧
    ((withSpsr armDemo 0x10).spsr.get .svc).t = false ∧
    ((withSpsr armDemo 0x30).spsr.get .svc).t = true ∧ (armDemo.readReg 14).toNat % 2 ≠ 0 := by decide
theorem witness_ConditionsAfterCmpAreComparisons : armDemo.cpsr.t = false := by decide
theorem witness_OperandR15ReadsAhead : armDemo.cpsr.t = false ∧ thumbDemo.cpsr.t = true ∧ (14#4 : RegNum) ≠ 15#4 := by
  decide
theorem witness_ThumbHighRegisters : thumbDemo.cpsr.t = true := by decide
theorem witness_CmpFollowsItsRule : armDemo.cpsr.t = false ∧ condPassed armDemo.cpsr .al = true ∧
    condPassed armDemo.cpsr .ne = false := by decide
theorem witness_BranchesReachTheirTargets : armDemo.cpsr.t = false ∧ condPassed armDemo.cpsr .al = true := by
  decide
/-- Both outcomes of the condition. -/
theorem witness_ThumbConditionalBranch : thumbDemo.cpsr.t = true ∧ condPassed thumbDemo.cpsr .eq = true ∧
    condPassed thumbDemo.cpsr .ne = false := by decide
theorem witness_ThumbLongBranchCallsAndReturns : thumbDemo.cpsr.t = true ∧ thumbDemo.pc.toNat % 2 = 0 := by
  decide
theorem witness_RotatedImmediateBits : (31 : Nat) < 32 ∧ (0 : Nat) < 32 := by decide
/-- BX: bit 0 set, bit 1 set, neither, R15; in both states. -/
theorem witness_ExchangeFollowsOperandBits : thumbDemo.cpsr.t = true ∧ armDemo.cpsr.t = false ∧
    condPassed armDemo.cpsr .al = true ∧ (thumbDemo.readReg 0).getLsbD 0 = true ∧
    (thumbDemo.readReg 1).getLsbD 0 = false ∧ (thumbDemo.readReg 1).getLsbD 1 = true ∧
    (thumbDemo.readReg 2).getLsbD 0 = false ∧ (thumbDemo.readReg 2).getLsbD 1 = false ∧
    (armDemo.readReg 14).getLsbD 0 = true ∧ (armDemo.readReg 0).getLsbD 0 = false ∧
    (armDemo.readReg 0).getLsbD 1 = false := by decide
theorem witness_ThumbLongBranchSecondHalf : thumbDemo.cpsr.t = true ∧
    (thumbDemo.regs.get (physOf thumbDemo.bank 14)).getLsbD 0 = false ∧
    (thumbDemo.writeReg 14 0x8005).cpsr.t = true ∧
    ((thumbDemo.writeReg 14 0x8005).regs.get (physOf thumbDemo.bank 14)).getLsbD 0 = true := by decide

/-- MRS and MSR: with and without an SPSR, privileged and not, T set, a legal and an illegal mode. -/
theorem witness_PsrTransfers : armDemo.cpsr.t = false ∧ condPassed armDemo.cpsr .al = true ∧
    userDemo.cpsr.t = false ∧ condPassed userDemo.cpsr .al = true ∧ armDemo.bank = some .svc ∧ userDemo.bank = none ∧
    userDemo.cpsr.m = 0b10000#5 ∧ armDemo.cpsr.m ≠ 0b10000#5 ∧
    (immValue 0 0x33).getLsbD 5 = true ∧ (immValue 0 0xD2).getLsbD 5 = false ∧
    (immValue 0 0xD2).extractLsb' 0 5 = 0b10010#5 ∧ (immValue 0 0x00).extractLsb' 0 5 = 0#5 := by decide
theorem witness_ModeChangeSelectsTheBank : armDemo.cpsr.t = false ∧ armDemo.cpsr.m ≠ 0b10000#5 ∧
    (0xD1#8).extractLsb' 0 5 = Mode.fiq.bits ∧ (0xD1#8).getLsbD 5 = false := by decide

/-- The last word of the space, through each index form. -/
def topDemo : State := stateOf 0x8000 0xD3 [(0, 0xFFFFFFFC), (1, 5), (2, 0x1000)] [(0xFFFFFFFC, 0x00008001), (0x1000, 0x8000)]

theorem topDemo_arm : topDemo.cpsr.t = false ∧ condPassed topDemo.cpsr .al = true := by decide
theorem topDemo_access (k : AccessKind) : topDemo.Accessible k 0xFFFFFFFC 4 :=
  ⟨by decide, by cases k <;> decide, by decide⟩
theorem topDemo_byte (k : AccessKind) : topDemo.Accessible k 0xFFFFFFFC 1 :=
  ⟨by decide, by cases k <;> decide, by decide⟩
theorem allowed : Index.Allowed .pre 0 0 ∧ Index.Allowed .post 0 1 ∧ Index.Allowed .preWb 2 15 := by
  unfold Index.Allowed; decide
theorem witness_LdrFollowsItsRule : topDemo.cpsr.t = false ∧ condPassed topDemo.cpsr .al = true ∧
    Index.Allowed .pre 0 0 ∧ Index.Allowed .post 0 1 ∧ Index.Allowed .preWb 2 15 ∧
    topDemo.transferAddr .pre true 0 0 = 0xFFFFFFFC#32 ∧
    topDemo.transferAddr .post true 0 4 = 0xFFFFFFFC#32 ∧ topDemo.Holds 0xFFFFFFFC 4 0x00008001 ∧
    topDemo.transferAddr .preWb false 2 0 = 0x1000#32 ∧ topDemo.Holds 0x1000 4 0x00008000 ∧
    topDemo.Accessible .read 0xFFFFFFFC 4 ∧ topDemo.Accessible .read 0x1000 4 :=
  ⟨topDemo_arm.1, topDemo_arm.2, allowed.1, allowed.2.1, allowed.2.2, by decide, by decide, by decide, by decide,
    by decide, topDemo_access .read, by decide, by decide, by decide⟩
theorem witness_LdrbFollowsItsRule : topDemo.cpsr.t = false ∧ condPassed topDemo.cpsr .al = true ∧
    Index.Allowed .pre 0 0 ∧ topDemo.transferAddr .pre true 0 0 = 0xFFFFFFFC#32 ∧ topDemo.Accessible .read 0xFFFFFFFC 1 ∧
    topDemo.mem.read (0xFFFFFFFC#32).toNat = some 0x01 :=
  ⟨topDemo_arm.1, topDemo_arm.2, allowed.1, by decide, topDemo_byte .read, by decide⟩
theorem witness_StoreRule : topDemo.cpsr.t = false ∧ condPassed topDemo.cpsr .al = true ∧
    Index.Allowed .post 0 1 ∧ Index.Allowed .pre 0 0 ∧ topDemo.Accessible .write (topDemo.transferAddr .post false 0 4) 4 ∧
    topDemo.Accessible .write (topDemo.transferAddr .pre true 0 0) 1 ∧
    (topDemo.transferAddr .pre true 0 2).toNat % 4 ≠ 0 :=
  ⟨topDemo_arm.1, topDemo_arm.2, allowed.2.1, allowed.1, topDemo_access .write, topDemo_byte .write, by decide⟩
theorem witness_SingleTransferAddressing : Index.writesBack .preWb = true ∧ Index.writesBack .post = true ∧
    condPassed topDemo.cpsr .al = true ∧ topDemo.cpsr.t = false := by decide

/-- Memory at 0x1000 only, a device above it, nothing elsewhere; R3 is 0x1004, where the device is. -/
def holeDemo : State :=
  { topDemo.writeReg 3 0x1004 with
    platform := { topDemo.platform with regions := [⟨0x1000, 0x1003, .memory⟩, ⟨0x1004, 0x1007, .device⟩] } }

/-- The same with the pc where the device is. -/
def deviceDemo : State := { holeDemo with pc := 0x1004 }

theorem holeDemo_misses (k : AccessKind) : holeDemo.Misses k 0x1008 4 ∧ holeDemo.Misses k 0x1009 1 ∧
    holeDemo.Misses k (holeDemo.readReg 0) 4 :=
  ⟨⟨by decide, by cases k <;> decide, 0, by decide, by decide⟩, ⟨by decide, by cases k <;> decide, 0, by decide, by decide⟩,
    by decide, by cases k <;> decide, 3, by decide, by decide⟩
theorem holeDemo_reaches (k : AccessKind) : holeDemo.Reaches k 0x1000 4 ∧ holeDemo.Reaches k 0x1004 4 ∧
    holeDemo.Reaches k 0x1007 1 :=
  ⟨⟨by decide, by cases k <;> decide, by decide⟩, ⟨by decide, by cases k <;> decide, by decide⟩,
    by decide, by cases k <;> decide, by decide⟩
theorem holeDemo_readable (k : AccessKind) : holeDemo.Readable k 0x1000 4 ∧ holeDemo.Readable k 0x1004 4 ∧
    holeDemo.Readable k 0x1007 1 :=
  ⟨⟨(holeDemo_reaches k).1, by decide⟩, ⟨(holeDemo_reaches k).2.1, by decide⟩, (holeDemo_reaches k).2.2, by decide⟩

/-- A word and a byte where nothing is placed, a swap there, a block transfer of R0, R1 and R3 whose third
word lies there (after memory and the device), and a fetch from there. -/
theorem witness_AccessWhereNothingIsPlacedIsRefused : condPassed holeDemo.cpsr .al = true ∧
    Index.Allowed .pre 2 1 ∧ (holeDemo.transferAddr .pre true 2 2).toNat % 4 ≠ 0 ∧
    holeDemo.transferAddr .pre true 2 8 = 0x1008#32 ∧ holeDemo.transferAddr .pre true 2 9 = 0x1009#32 ∧
    (∀ k, holeDemo.Misses k 0x1008 4 ∧ holeDemo.Misses k 0x1009 1 ∧ holeDemo.Misses k (holeDemo.readReg 0) 4) ∧
    BlockAllowed holeDemo 2 0x000B#16 ∧ (0x000B#16).getLsbD (3#4).toNat = true ∧
    slotAddr (blockStart .ia (holeDemo.readReg 2) 0x000B#16) 0x000B#16 3 = 0x1008#32 ∧
    slotAddr (blockStart .ia (holeDemo.readReg 2) 0x000B#16) 0x000B#16 0 = 0x1000#32 ∧
    slotAddr (blockStart .ia (holeDemo.readReg 2) 0x000B#16) 0x000B#16 1 = 0x1004#32 ∧
    holeDemo.Undisturbed ∧ holeDemo.pcWrapped = false ∧ holeDemo.Misses .fetch holeDemo.pc holeDemo.fetchLen :=
  ⟨by decide, by unfold Index.Allowed; decide, by decide, by decide, by decide, holeDemo_misses,
    ⟨by decide, by decide, by decide⟩, by decide, by decide, by decide, by decide,
    ⟨by decide, by decide, .inl (by decide), .inl (by decide)⟩, by decide, by decide, by decide, 3, by decide, by decide⟩
/-- LDR and STR, LDRB and STRB, SWP, all on the device. -/
theorem witness_SingleDeviceAccessesComplete : holeDemo.cpsr.t = false ∧ condPassed holeDemo.cpsr .al = true ∧
    Index.Allowed .pre 2 1 ∧ holeDemo.transferAddr .pre true 2 4 = 0x1004#32 ∧
    holeDemo.transferAddr .pre true 2 7 = 0x1007#32 ∧ holeDemo.readReg 3 = 0x1004#32 ∧
    (∀ k, holeDemo.Readable k 0x1000 4 ∧ holeDemo.Readable k 0x1004 4 ∧ holeDemo.Readable k 0x1007 1) ∧
    ∀ k, holeDemo.Reaches k 0x1000 4 ∧ holeDemo.Reaches k 0x1004 4 ∧ holeDemo.Reaches k 0x1007 1 :=
  ⟨by decide, by decide, by unfold Index.Allowed; decide, by decide, by decide, by decide, holeDemo_readable, holeDemo_reaches⟩
/-- Block transfers of R0 and R1, and a load of R0 and R15, of one word of memory and one of the device. -/
theorem witness_BlockDeviceAccessesComplete : BlockAllowed holeDemo 2 0x0003#16 ∧ BlockAllowed holeDemo 2 0x8001#16 ∧
    (∀ r : RegNum, (0x0003#16).getLsbD r.toNat = true →
      holeDemo.Readable .read (slotAddr (blockStart .ia (holeDemo.readReg 2) 0x0003#16) 0x0003#16 r) 4 ∧
      holeDemo.Reaches .write (slotAddr (blockStart .ia (holeDemo.readReg 2) 0x0003#16) 0x0003#16 r) 4) ∧
    ∀ r : RegNum, (0x8001#16).getLsbD r.toNat = true →
      holeDemo.Readable .read (slotAddr (blockStart .ia (holeDemo.readReg 2) 0x8001#16) 0x8001#16 r) 4 := by
  refine ⟨⟨by decide, by decide, by decide⟩, ⟨by decide, by decide, by decide⟩, fun r hr => ?_, fun r hr => ?_⟩
  · have h : r = 0 ∨ r = 1 := by revert r; decide
    rcases h with rfl | rfl
    · exact ⟨(holeDemo_readable _).1, (holeDemo_reaches _).1⟩
    · exact ⟨(holeDemo_readable _).2.1, (holeDemo_reaches _).2.1⟩
  · have h : r = 0 ∨ r = 15 := by revert r; decide
    rcases h with rfl | rfl
    · exact (holeDemo_readable _).1
    · exact (holeDemo_readable _).2.1
theorem witness_BlockDeviceAccessesComplete_fetch : deviceDemo.Undisturbed ∧ deviceDemo.pcWrapped = false ∧
    deviceDemo.Readable .fetch deviceDemo.pc deviceDemo.fetchLen ∧
    ∀ k < deviceDemo.fetchLen, byteAddr deviceDemo.pc k ∉ deviceDemo.stored :=
  ⟨⟨by decide, by decide, .inl (by decide), .inl (by decide)⟩, by decide,
    ⟨⟨by decide, by decide, by decide⟩, by decide⟩, by decide⟩
/-- A device takes a store, and memory keeps what it held. -/
theorem test_store_to_device : leads (exec (.strPre .al true 2 1 4) holeDemo)
    (fun t => t.mem == holeDemo.mem && t.stored == [0x1004, 0x1005, 0x1006, 0x1007]) = true := by decide
/-- The first byte unwritten, and only the last. -/
theorem witness_UnwrittenByteFaults : condPassed topDemo.cpsr .al = true ∧ Index.Allowed .pre 0 0 ∧
    (topDemo.writeReg 0 0x2000).transferAddr .pre true 0 0 = 0x2000#32 ∧ topDemo.Accessible .read 0x2000 4 ∧
    topDemo.mem.read (byteAddr 0x2000 0) = none ∧
    ({ topDemo with mem := Memory.writeBytes [] 0x2000 [1, 2, 3] } : State).mem.read (byteAddr 0x2000 3) = none ∧
    ∀ j < 3, ({ topDemo with mem := Memory.writeBytes [] 0x2000 [1, 2, 3] } : State).mem.read (byteAddr 0x2000 j) ≠ none :=
  ⟨topDemo_arm.2, allowed.1, by decide, ⟨by decide, by decide, by decide⟩, by decide, by decide, by decide⟩
/-- R0 is 0xFFFFFFFC and R2 is 0x1000, the bases of these transfers. -/
theorem witness_SingleTransferAbort : topDemo.cpsr.t = false ∧ condPassed topDemo.cpsr .al = true ∧
    Index.Allowed .post 0 1 ∧ Index.Allowed .preWb 2 15 ∧ topDemo.transferAddr .post true 0 4 = 0xFFFFFFFC#32 ∧
    topDemo.transferAddr .preWb true 2 1 = 0x1001#32 ∧ topDemo.transferAddr .preWb true 2 3 = 0x1003#32 ∧
    (aborting topDemo 0xFFFFFFFC 4 .read).Aborts .read 0xFFFFFFFC 4 ∧
    (aborting topDemo 0xFFFFFFFC 4 .write).Aborts .write 0xFFFFFFFC 4 ∧
    (aborting topDemo 0x1001 1 .read).Aborts .read 0x1001 1 ∧
    (aborting topDemo 0x1003 1 .write).Aborts .write 0x1003 1 :=
  ⟨topDemo_arm.1, topDemo_arm.2, allowed.2.1, allowed.2.2, by decide, by decide, by decide, ⟨by decide, by decide⟩, ⟨by decide, by decide⟩, ⟨by decide, by decide⟩, ⟨by decide, by decide⟩⟩
theorem witness_ByteOfAStoredWord : topDemo.cpsr.t = false ∧ topDemo.Accessible .write (topDemo.offAddr true 2 0) 4 ∧
    topDemo.Accessible .read (topDemo.offAddr true 2 0) 1 ∧
    topDemo.Accessible .read (topDemo.offAddr true 2 3) 1 ∧
    (3#12).toNat < 4 ∧ (0xFFC#12).toNat + (3#12).toNat < 4096 :=
  ⟨topDemo_arm.1, ⟨by decide, by decide, by decide⟩, ⟨by decide, by decide, by decide⟩, ⟨by decide, by decide, by decide⟩,
    by decide, by decide⟩

/-- SWP and SWPB go through; their read or their write aborts; the refusals. -/
theorem witness_SwapFollowsItsRule : topDemo.cpsr.t = false ∧ condPassed topDemo.cpsr .al = true ∧ topDemo.Accessible .read (topDemo.readReg 2) 4 ∧
    topDemo.Accessible .write (topDemo.readReg 2) 4 ∧ topDemo.Holds (topDemo.readReg 2) 4 0x00008000 ∧
    topDemo.Accessible .read (topDemo.readReg 0) 1 ∧ topDemo.Accessible .write (topDemo.readReg 0) 1 ∧
    topDemo.Holds (topDemo.readReg 0) 1 1 ∧ (topDemo.readReg 1).toNat % 4 ≠ 0 :=
  ⟨topDemo_arm.1, topDemo_arm.2, ⟨by decide, by decide, by decide⟩, ⟨by decide, by decide, by decide⟩, by decide, topDemo_byte .read,
    topDemo_byte .write, by decide, by decide⟩
theorem witness_AbortedSwapChangesNothing : topDemo.cpsr.t = false ∧ condPassed topDemo.cpsr .al = true ∧
    (aborting topDemo 0x1000 4 .read).Aborts .read (topDemo.readReg 2) 4 ∧
    (aborting topDemo 0x1000 4 .write).Accessible .read (topDemo.readReg 2) 4 ∧
    (aborting topDemo 0x1000 4 .write).Holds (topDemo.readReg 2) 4 0x00008000 ∧
    (aborting topDemo 0x1000 4 .write).Aborts .write (topDemo.readReg 2) 4 :=
  ⟨topDemo_arm.1, topDemo_arm.2, ⟨by decide, by decide⟩, ⟨by decide, by decide, by decide⟩, by decide, by decide, by decide⟩

/-- R13 = 0x2000 with three words below it and three from it on. -/
def blockDemo : State :=
  stateOf 0x8000 0xD3 [(0, 1), (1, 2), (2, 3), (13, 0x2000)]
    [(0x2000, 0xA1), (0x2004, 0xA2), (0x2008, 0x104), (0x1FF4, 0), (0x1FF8, 0), (0x1FFC, 0)]

theorem blockDemo_arm : blockDemo.cpsr.t = false ∧ condPassed blockDemo.cpsr .al = true := by decide
theorem blockDemo_allowed (list : BitVec 16) (h : list ≠ 0#16) : BlockAllowed blockDemo 13 list :=
  ⟨h, by decide, by decide⟩
theorem witness_BlockTransferAddressing : condPassed blockDemo.cpsr .al = true ∧ (0x8001#16).getLsbD 15 = true ∧ (0x2001#16).getLsbD (13#4).toNat = true ∧
    slotOf 0x2001#16 (13#4).toNat ≠ 0 ∧ (blockDemo.readReg 2).toNat % 4 ≠ 0 ∧
    BlockAllowed blockDemo 13 0x2001#16 := ⟨blockDemo_arm.2, by decide, by decide, by decide, by decide, blockDemo_allowed _ (by decide)⟩

def blockVal : RegNum → Word
  | 0 => 0xA1
  | 1 => 0xA2
  | 15 => 0x104
  | _ => 0

/-- LDMIA R13, {R0, R1, PC}, with an aligned value for the PC. -/
theorem witness_LdmFollowsItsRule : blockDemo.cpsr.t = false ∧ condPassed blockDemo.cpsr .al = true ∧
    BlockAllowed blockDemo 13 0x8003#16 ∧
    (0x8003#16).getLsbD (13#4).toNat = false ∧
    (∀ r : RegNum, (0x8003#16).getLsbD r.toNat = true →
      blockDemo.Accessible .read (slotAddr (blockStart .ia (blockDemo.readReg 13) 0x8003#16) 0x8003#16 r) 4 ∧
      blockDemo.Holds (slotAddr (blockStart .ia (blockDemo.readReg 13) 0x8003#16) 0x8003#16 r) 4 (blockVal r)) := by
  refine ⟨blockDemo_arm.1, blockDemo_arm.2, blockDemo_allowed _ (by decide), by decide, fun r hr => ?_⟩
  have h : r = 0 ∨ r = 1 ∨ r = 15 := by revert r; decide
  rcases h with rfl | rfl | rfl
  · exact ⟨⟨by decide, by decide, by decide⟩, by decide⟩
  · exact ⟨⟨by decide, by decide, by decide⟩, by decide⟩
  · exact ⟨⟨by decide, by decide, by decide⟩, by decide⟩

/-- STMDB and LDMIA of {R0, R1, R2} on R13. -/
theorem witness_StmFollowsItsRule : blockDemo.cpsr.t = false ∧ condPassed blockDemo.cpsr .al = true ∧
    BlockAllowed blockDemo 13 0x0007#16 ∧ (0x0007#16).getLsbD 15 = false ∧
    (0x0007#16).getLsbD (13#4).toNat = false ∧
    (∀ r : RegNum, (0x0007#16).getLsbD r.toNat = true →
      blockDemo.Accessible .write (slotAddr (blockStart .db (blockDemo.readReg 13) 0x0007#16) 0x0007#16 r) 4 ∧
      blockDemo.Accessible .read (slotAddr (blockStart .db (blockDemo.readReg 13) 0x0007#16) 0x0007#16 r) 4) := by
  refine ⟨blockDemo_arm.1, blockDemo_arm.2, blockDemo_allowed _ (by decide), by decide, by decide, fun r hr => ?_⟩
  have h : r = 0 ∨ r = 1 ∨ r = 2 := by revert r; decide
  rcases h with rfl | rfl | rfl
  · exact ⟨⟨by decide, by decide, by decide⟩, ⟨by decide, by decide, by decide⟩⟩
  · exact ⟨⟨by decide, by decide, by decide⟩, ⟨by decide, by decide, by decide⟩⟩
  · exact ⟨⟨by decide, by decide, by decide⟩, ⟨by decide, by decide, by decide⟩⟩

/-- LDMIA R13, {R0, R1, R2} whose second read aborts, and STMIA R13, {R0, R1, R2} whose second write does. -/
theorem witness_AbortedBlockTransfers (k : AccessKind) (hk : k ≠ .fetch) :
    BlockAllowed (aborting blockDemo 0x2004 4 k) 13 0x0007#16 ∧ (aborting blockDemo 0x2004 4 k).cpsr.t = false ∧
    condPassed (aborting blockDemo 0x2004 4 k).cpsr .al = true ∧ (0x0007#16).getLsbD (13#4).toNat = false ∧
    (aborting blockDemo 0x2004 4 k).Aborts k (slotAddr (blockStart .ia (blockDemo.readReg 13) 0x0007#16) 0x0007#16 1) 4 ∧
    (aborting blockDemo 0x2004 4 k).Accessible k (slotAddr (blockStart .ia (blockDemo.readReg 13) 0x0007#16) 0x0007#16 0) 4 ∧
    (aborting blockDemo 0x2004 4 k).Holds (slotAddr (blockStart .ia (blockDemo.readReg 13) 0x0007#16) 0x0007#16 0) 4 0xA1 ∧
    (aborting blockDemo 0x2004 4 k).Accessible k (slotAddr (blockStart .ia (blockDemo.readReg 13) 0x0007#16) 0x0007#16 2) 4 := by
  cases k with
  | fetch => exact absurd rfl hk
  | read => exact ⟨⟨by decide, by decide, by decide⟩, by decide, by decide, by decide, ⟨by decide, by decide⟩, ⟨by decide, by decide, by decide⟩, by decide, ⟨by decide, by decide, by decide⟩⟩
  | write => exact ⟨⟨by decide, by decide, by decide⟩, by decide, by decide, by decide, ⟨by decide, by decide⟩, ⟨by decide, by decide, by decide⟩, by decide, ⟨by decide, by decide, by decide⟩⟩

theorem witness_SwiEntersSupervisorMode : armDemo.cpsr.t = false ∧ condPassed armDemo.cpsr .al = true ∧
    thumbDemo.cpsr.t = true := by decide

/-- A step in User mode that stays there, and one that takes an exception. -/
theorem witness_UserModeLeavesOnlyByException : userDemo.cpsr.m = 0b10000#5 ∧ userDemo.boundary.reset = false ∧
    (∃ t, step userDemo = .next t) ∧ ∃ t, step (userDemo.withFetchWord 32 0xEF000000) = .next t ∧
      t.cpsr.m = 0b10011#5 := ⟨by decide, by decide, ⟨_, rfl⟩, _, rfl, by decide⟩
theorem witness_OperatingStateChangesOnlyByNamedWays :
    ∃ t, exec (.bx .al 14) armDemo = .next t ∧ t.cpsr.t ≠ armDemo.cpsr.t := ⟨_, rfl, by decide⟩
theorem witness_FlagsChangeOnlyByListedInstructions :
    (∃ t, exec (.subReg .al false 0 0 1) armDemo = .next t) ∧ ¬ writesFlags (.subReg .al false 0 0 1) :=
  ⟨⟨_, rfl⟩, by simp [writesFlags]⟩
theorem witness_MemoryChangesOnlyByStores :
    (∃ t, exec (.ldrPre .al true 0 2 0) armDemo = .next t) ∧ ¬ writesMemory (.ldrPre .al true 0 2 0) :=
  ⟨⟨_, rfl⟩, id⟩

/-- STR R1, [PC, #-4] at 0x8000 stores to 0x8004, the address of the next instruction. -/
theorem witness_FetchAfterStoreIsRefused :
    armDemo.cpsr.t = false ∧ condPassed armDemo.cpsr .al = true ∧
    armDemo.Accessible .write (armDemo.transferAddr .pre false 15 4) 4 ∧
    armDemo.transferAddr .pre false 15 4 = armDemo.pc + 4#32 ∧
    ∃ t, exec (strOf .pre .al false 15 1 4) armDemo = .next t ∧ t.Undisturbed ∧ t.pcWrapped = false ∧
      t.Accessible .fetch t.pc 4 :=
  ⟨by decide, by decide, ⟨by decide, by decide, by decide⟩, by decide, _, rfl,
    ⟨by decide, by decide, .inl (by decide), .inl (by decide)⟩, by decide, ⟨by decide, by decide, by decide⟩⟩
/-- The second half of the next word, and the second byte of the next halfword, stored to. -/
theorem witness_FetchAfterStoreIsRefused_partial :
    (armDemo.store 0x8002 1 7).Undisturbed ∧ (armDemo.store 0x8002 1 7).Reaches .fetch 0x8000 4 ∧
    byteAddr 0x8000 2 ∈ (armDemo.store 0x8002 1 7).stored ∧ (2 : Nat) < (armDemo.store 0x8002 1 7).fetchLen ∧
    (thumbDemo.store 0x8003 1 7).Undisturbed ∧ (thumbDemo.store 0x8003 1 7).Reaches .fetch 0x8002 2 ∧
    byteAddr 0x8002 1 ∈ (thumbDemo.store 0x8003 1 7).stored ∧ (1 : Nat) < (thumbDemo.store 0x8003 1 7).fetchLen :=
  ⟨⟨by decide, by decide, .inl (by decide), .inl (by decide)⟩, ⟨by decide, by decide, by decide⟩, by decide, by decide,
    ⟨by decide, by decide, .inl (by decide), .inl (by decide)⟩, ⟨by decide, by decide, by decide⟩, by decide, by decide⟩

/-- CMP at the last word of the space, and THUMB MOV R0, R8 at its last halfword. -/
def lastArm : State := stateOf 0xFFFFFFFC 0xD3 [] []

def lastThumb : State := stateOf 0xFFFFFFFE 0xF3 [] []

theorem witness_FetchAfterWrapIsRefused :
    lastArm.cpsr.t = false ∧ lastArm.pc = 0xFFFFFFFC#32 ∧ lastThumb.cpsr.t = true ∧ lastThumb.pc = 0xFFFFFFFE#32 ∧
    (∃ t, exec (.cmpReg .al 0 1) lastArm = .next t ∧ t.stuck = false ∧ t.pcWrapped = true ∧ t.Undisturbed) ∧
    ∃ t, exec (.tMovHi 0 8) lastThumb = .next t ∧ t.stuck = false ∧ t.pcWrapped = true ∧ t.Undisturbed :=
  ⟨by decide, by decide, by decide, by decide,
    ⟨_, rfl, by decide, by decide, ⟨by decide, by decide, .inl (by decide), .inl (by decide)⟩⟩,
    _, rfl, by decide, by decide, ⟨by decide, by decide, .inl (by decide), .inl (by decide)⟩⟩

end Sys2Proof.Tests
end

section
/-! The statements about the state of the machine (10_state): the invariant of every step, the stuck
machine, the banks, the unwritten byte, the operating state, the flags, the mark of a wrap, operand R15. -/

namespace Sys2Proof.Machine

/-! ### What each operation does to the invariant -/

/-- The alignment of the pc depends on the pc and on the operating state only. -/
theorem State.pcAligned_congr {s t : State} (hp : t.pc = s.pc) (ht : t.cpsr.t = s.cpsr.t) :
    t.pcAligned = s.pcAligned := by
  unfold State.pcAligned; rw [hp, ht]

/-- An address aligned for ARM state is aligned for both states. -/
theorem State.pcAligned_of_mod4 {s : State} (h : s.pc.toNat % 4 = 0) : s.pcAligned = true := by
  cases ht : s.cpsr.t
  · exact (pcAligned_arm ht).2 h
  · exact (pcAligned_thumb ht).2 (by omega)

/-- The advance moves by the alignment of the operating state, also over the top of the space. -/
theorem State.advance_pcAligned {s : State} (h : s.pcAligned = true) : s.advance.pcAligned = true := by
  cases ht : s.cpsr.t
  · rw [pcAligned_arm ht] at h
    refine (pcAligned_arm (by simpa using ht)).2 ?_
    rw [State.advance_pc, State.instrLen_of_arm ht, BitVec.toNat_add, BitVec.toNat_ofNat]
    omega
  · rw [pcAligned_thumb ht] at h
    refine (pcAligned_thumb (by simpa using ht)).2 ?_
    rw [State.advance_pc, State.instrLen_of_thumb ht, BitVec.toNat_add, BitVec.toNat_ofNat]
    omega

theorem State.Inv.data {s u : State} {P : Prop} (h : s.Inv) (hu : s.Data P u) : u.Inv :=
  ⟨hu.memWf h.mem, hu.storedWf h.stored,
    (State.pcAligned_congr hu.pc (congrArg Psr.t hu.cpsr)).trans h.pc⟩

theorem State.Inv.nextInputs {s : State} (h : s.Inv) : s.nextInputs.Inv :=
  ⟨h.mem, h.stored, h.pc⟩

theorem State.Inv.advance {s : State} (h : s.Inv) : s.advance.Inv :=
  ⟨h.mem, h.stored, State.advance_pcAligned h.pc⟩

theorem State.Inv.setPc {s : State} {a : Word} (h : s.Inv) (ha : (s.setPc a).pcAligned = true) :
    (s.setPc a).Inv := ⟨h.mem, h.stored, ha⟩

theorem State.Inv.setCpsr {s : State} {p : Psr} (h : s.Inv) (ht : p.t = s.cpsr.t) :
    (s.setCpsr p).Inv where
  mem := h.mem
  stored := h.stored
  pc := (State.pcAligned_congr (s := s) (t := s.setCpsr p) rfl ht).trans h.pc

theorem State.Inv.raise {s : State} (h : s.Inv) (e : ExceptionKind) : (s.raise e).Inv :=
  ⟨h.mem, h.stored, State.pcAligned_of_mod4 e.vector_aligned⟩

theorem State.Inv.resetException {s : State} (h : s.Inv) : s.resetException.Inv :=
  ⟨h.mem, h.stored, State.pcAligned_of_mod4 rfl⟩

/-- BX goes to an address aligned for the operating state it selects. -/
theorem State.Inv.exchanged {s : State} (h : s.Inv) {b : Bool} {a : Word}
    (ha : a.toNat % (if b then 2 else 4) = 0) :
    ((s.setCpsr { s.cpsr with t := b }).setPc a).Inv := by
  refine ⟨h.mem, h.stored, ?_⟩
  cases b
  · exact pcAligned_setPc_arm rfl ha
  · exact pcAligned_setPc_thumb rfl ha

/-- A return keeps the invariant. One that leaves the machine stuck keeps the pc of the returning
instruction, which in ARM state is aligned for whatever T the SPSR holds. -/
theorem State.Inv.exceptionReturn {s t : State} {r : Word} (h : s.Inv) (ht : s.cpsr.t = false)
    (hr : s.exceptionReturn r = .next t) : t.Inv := by
  obtain ⟨e, -, ⟨-, rfl⟩ | ⟨-, ha, rfl⟩⟩ := State.exceptionReturn_next hr
  · exact ⟨h.mem, h.stored, State.pcAligned_of_mod4 ((pcAligned_arm ht).1 h.pc)⟩
  · refine ⟨h.mem, h.stored, ?_⟩
    cases hq : (s.spsr.get e).t <;> rw [hq] at ha
    · exact pcAligned_setPc_arm hq ha
    · exact pcAligned_setPc_thumb hq ha

/-- Only ARM instructions return from an exception. -/
theorem isThumb_of_isReturn {i : Instr} (h : isReturn i) : i.isThumb = false := by
  cases i with
  | movReg | movImm | subReg | subImm | addReg | addImm => rfl
  | _ => exact h.elim

/-- Whatever an instruction of the current operating state has done, it has kept the invariant. -/
theorem State.Effect.inv {i : Instr} {s t : State} (h : State.Effect i s t) (hs : s.Inv)
    (hi : i.isThumb = s.cpsr.t) : t.Inv := by
  cases h with
  | went u p hu hp => exact ((hs.data hu).setCpsr (by rw [hp.t, hu.cpsr])).advance
  | branched u a hu ha => exact (hs.data hu).setPc (ha hi hs.pc)
  | exchanged b a _ ha => exact hs.exchanged ha
  | took u e hu _ => exact (hs.data hu).raise e
  | returned r _ hret ht => exact hs.exceptionReturn (by rw [← hi, isThumb_of_isReturn hret]) ht
  | wroteControl p _ _ hp _ ht =>
    obtain ⟨rfl, -⟩ | rfl := ht
    · exact hs.setCpsr hp
    · exact (hs.setCpsr hp).advance
  | wroteSpsr e q _ => exact State.Inv.advance ⟨hs.mem, hs.stored, hs.pc⟩

/-- Settles O14: each of the four things a step can do keeps the invariant. -/
theorem everyStepKeepsWellKept : Obligations.EveryStepKeepsWellKept := by
  intro s t hs h
  obtain ⟨-, rfl⟩ | ⟨-, -, rfl⟩ | ⟨-, -, e, -, rfl⟩ | ⟨-, -, i, hi, h⟩ := step_next h
  · exact hs.nextInputs.resetException
  · exact hs.nextInputs
  · exact hs.nextInputs.raise e
  · exact (exec_effect h).inv (hs.nextInputs.data (State.seen_data _ _ _ False)) (by simpa using hi)

/-! ### The stuck machine (10_state R36) -/

/-- A stuck machine's step without a Reset only consumes the inputs of the boundary. -/
theorem step_stuck {s : State} (hs : s.stuck = true) (hr : s.boundary.reset = false) :
    step s = .next s.nextInputs := by
  unfold step State.stepAt
  rw [hr, State.nextInputs_stuck, hs]
  rfl

/-- A run goes on from where its first step leads. -/
theorem core_run_succ {s t : State} (n : Nat) (h : step s = .next t) :
    core.run (n + 1) s = core.run n t := by
  have hstep : core.step s = .next t := h
  simp only [Host.Core.run, hstep]

/-- No Reset among the listed boundaries is no Reset at this one. -/
theorem State.boundary_no_reset {s : State} {n : Nat}
    (h : ∀ e ∈ s.inputs.take (n + 1), e.reset = false) : s.boundary.reset = false := by
  unfold State.boundary
  cases hi : s.inputs with
  | nil => rfl
  | cons e es => exact h e (by simp [hi])

/-- Nor is one among those that follow. -/
theorem State.nextInputs_no_reset {s : State} {n : Nat}
    (h : ∀ e ∈ s.inputs.take (n + 1), e.reset = false) :
    ∀ e ∈ s.nextInputs.inputs.take n, e.reset = false := by
  intro e he
  rw [State.nextInputs_inputs] at he
  cases hi : s.inputs with
  | nil => simp [hi] at he
  | cons x xs =>
    rw [hi] at he
    exact h e (by rw [hi]; exact List.mem_cons_of_mem x he)

/-- Settles O9, by induction on the number of boundaries. -/
theorem stuckMachineIdlesUntilReset : Obligations.StuckMachineIdlesUntilReset := by
  intro n
  induction n with
  | zero => intro s _ _; rfl
  | succ n ih =>
    intro s hs hr
    rw [core_run_succ n (step_stuck hs (State.boundary_no_reset hr)),
      ih s.nextInputs (by simpa using hs) (State.nextInputs_no_reset hr),
      State.nextInputs_inputs, List.drop_tail]
    rfl

/-! ### Banks (10_state R22) -/

theorem physOf_low (b : Option ExcMode) (k : Fin 8) : physOf b (BitVec.ofNat 4 k) = .low k := by
  have hk : (BitVec.ofNat 4 k).toNat = k := by rw [BitVec.toNat_ofNat]; omega
  simp [physOf, hk]

theorem physOf_high (b : Option ExcMode) (k : Fin 5) :
    physOf b (BitVec.ofNat 4 (8 + k)) = if b = some .fiq then .highFiq k else .high k := by
  have hk : (BitVec.ofNat 4 (8 + k)).toNat = 8 + k := by rw [BitVec.toNat_ofNat]; omega
  have hlt : 8 + k.val < 13 := by omega
  simp [physOf, hk, hlt]

theorem Mode.exc_eq_fiq (m : Mode) : m.exc = some .fiq ↔ m = .fiq := by
  cases m <;> simp [Mode.exc]

/-- An operand other than R15, in a state whose M field names a mode. -/
theorem State.readReg_of_mode {s : State} {m : Mode} (hm : s.cpsr.m = m.bits) {r : RegNum}
    (hr : r ≠ 15#4) : s.readReg r = s.regs.get (physOf m.exc r) := by
  rw [State.readReg_of_ne s hr, State.bank_of_mode (m := m) (by rw [hm, modeOf_bits])]

/-- MSR of the mode bits, with T as it is: the mode is written and nothing else but I and F. -/
theorem State.writeCpsr_mode {s : State} {m : Mode} {w : Word} (hp : s.privileged = true)
    (hm : w.extractLsb' 0 5 = m.bits) (ht : w.getLsbD 5 = s.cpsr.t) :
    s.writeCpsr 1#4 w =
      .next (s.setCpsr { s.cpsr with i := w.getLsbD 7, f := w.getLsbD 6, m := m.bits }).advance := by
  have h0 : ((1#4).getLsbD 0 && s.privileged) = true := by rw [hp]; rfl
  have h3 : s.cpsr.maskedFlags 1#4 w = s.cpsr := if_neg (by decide)
  simp only [State.writeCpsr, h0, h3, ht, hm, modeOf_bits, bne_self_eq_false, Option.isNone_some,
    Bool.false_eq_true, if_true, if_false]

/-- An immediate that is not rotated. -/
theorem rotatedImm_zero (imm8 : BitVec 8) : rotatedImm 0#4 imm8 = imm8.setWidth 32 := by
  rw [rotatedImm, BitVec.toNat_zero, Nat.mul_zero]
  ext k hk
  simp [hk]

/-- Settles O34: the write leaves the registers alone, and the names follow the new mode's bank. -/
theorem modeChangeSelectsTheBank : Obligations.ModeChangeSelectsTheBank := by
  intro s m imm8 ht hu hm h5
  have hm' : (imm8.setWidth 32).extractLsb' 0 5 = m.bits := by
    rw [← hm]
    exact BitVec.extractLsb'_setWidth_of_le (by decide)
  have h5' : (imm8.setWidth 32).getLsbD 5 = s.cpsr.t := by simpa [ht] using h5
  have hrun : exec (.msrImm .al .cpsr 1#4 0#4 imm8) s = s.writeCpsr 1#4 (imm8.setWidth 32) := by
    rw [← rotatedImm_zero]; rfl
  refine ⟨_, hrun.trans (State.writeCpsr_mode ((State.privileged_iff s).2 hu) hm' h5'),
    fun _ => rfl, fun k => ?_, fun k => ?_, ?_, ?_⟩
  · rw [State.readReg_of_mode rfl (by revert k; decide), physOf_low]; rfl
  · rw [State.readReg_of_mode rfl (by revert k; decide), physOf_high]
    simp only [Mode.exc_eq_fiq]
    split_ifs <;> rfl
  · rw [State.readReg_of_mode rfl (by decide)]
    cases m <;> rfl
  · rw [State.readReg_of_mode rfl (by decide)]
    cases m <;> rfl

/-! ### A byte that nothing has written (log 2) -/

/-- The LDR of each form, by its shared operation. -/
theorem exec_ldrOf (ix : Index) (c : Cond) (up : Bool) (rn rd : RegNum) (imm : BitVec 12) (s : State) :
    exec (ldrOf ix c up rn rd imm) s = s.whenCond c (s.loadWord ix up rn rd imm) := by
  cases ix <;> rfl

/-- A LDR whose read faults stops with that fault. -/
theorem State.loadWord_fault {s : State} {ix : Index} {up : Bool} {rn rd : RegNum} {imm : BitVec 12}
    {f : Fault} (hx : ix.Allowed rn rd) (hf : s.memRead (s.transferAddr ix up rn imm) 4 = .fault f) :
    s.loadWord ix up rn rd imm = .fault f := by
  unfold State.loadWord
  rw [(Index.refusal_none_iff ix rn rd).2 hx]
  simp only [hf, Access.andThen_fault]

/-- Settles O42: the read faults at its first byte without a value, and LDR with it. -/
theorem unwrittenByteFaults : Obligations.UnwrittenByteFaults := by
  intro s ix c up rn rd imm k hc hx hk ha hn hb
  rw [exec_ldrOf, State.whenCond_pass _ hc,
    State.loadWord_fault hx (State.memRead_unwritten ha hk hn hb)]

/-! ### The operating state (10_state R14) -/

/-- Settles O56: the effects that can change T are the exchange, the return and the exception entry. -/
theorem operatingStateChangesOnlyByNamedWays : Obligations.OperatingStateChangesOnlyByNamedWays := by
  intro i s t h hne
  cases exec_effect h with
  | went u p _ hp => exact absurd hp.t hne
  | branched u a hu => exact absurd (congrArg Psr.t hu.cpsr) hne
  | exchanged b a hi => exact .inl hi
  | took u e => exact .inr (.inr ⟨e, rfl, rfl, rfl⟩)
  | returned r _ hi => exact .inr (.inl hi)
  | wroteControl p _ _ hp _ ht => obtain ⟨rfl, -⟩ | rfl := ht <;> exact absurd hp hne
  | wroteSpsr => exact absurd rfl hne

/-! ### The flags (10_state R40) -/

/-- The forms that return from an exception are among those that may write the flags. -/
theorem writesFlags_of_isReturn {i : Instr} (h : isReturn i) : writesFlags i := by
  cases i with
  | movReg | movImm | subReg | subImm | addReg | addImm => exact h.1
  | _ => exact h.elim

/-- Settles O57: an effect that changes a flag is one of a listed instruction. -/
theorem flagsChangeOnlyByListedInstructions : Obligations.FlagsChangeOnlyByListedInstructions := by
  refine ⟨fun i s t h hn => ?_, fun e s => (s.raise_takes e).flags⟩
  cases exec_effect h with
  | went u p _ hp => exact hp.nzcv hn
  | branched u a hu => simp [hu.cpsr]
  | exchanged => exact ⟨rfl, rfl, rfl, rfl⟩
  | took u e hu =>
    obtain ⟨hN, hZ, hC, hV⟩ := (u.raise_takes e).flags
    rw [← hu.cpsr]
    exact ⟨hN, hZ, hC, hV⟩
  | returned r _ hi => exact absurd (writesFlags_of_isReturn hi) hn
  | wroteControl p _ _ _ hf ht => obtain ⟨rfl, -⟩ | rfl := ht <;> exact hf hn
  | wroteSpsr => exact ⟨rfl, rfl, rfl, rfl⟩

/-! ### The mark of a wrap (10_state R27) -/

/-- The pc and the mark of a wrap after an advance past the top of the space. -/
theorem State.Advances.of_wrapped {s t : State} {len : Word} (h : s.Advances t len)
    (hw : t.pcWrapped = true) : t.pc = s.pc + len ∧ 2 ^ 32 ≤ s.pc.toNat + len.toNat :=
  ⟨h.pc, of_decide_eq_true (h.wrapped ▸ hw)⟩

/-- An effect that leaves the mark of a wrap, and the machine not stuck, is an advance. -/
theorem State.Effect.advances_of_wrapped {i : Instr} {s t : State} (h : State.Effect i s t)
    (hs : t.stuck = false) (hw : t.pcWrapped = true) : s.Advances t s.instrLen := by
  cases h with
  | went u p hu hp => exact State.advance_advances hu.pc hp.t
  | branched => cases hw
  | exchanged => cases hw
  | took => cases hw
  | returned r _ _ hr =>
    obtain ⟨e, -, ⟨hm, rfl⟩ | ⟨-, -, rfl⟩⟩ := State.exceptionReturn_next hr
    · rw [(State.stuck_iff _).2 hm] at hs; cases hs
    · cases hw
  | wroteControl p _ _ hp _ ht =>
    obtain ⟨rfl, hst⟩ | rfl := ht
    · rw [hst] at hs; cases hs
    · exact State.advance_advances rfl hp
  | wroteSpsr => exact State.advance_advances rfl rfl

/-- A step at an undisturbed boundary does not fetch after a wrap. -/
theorem step_wrapped {s : State} (h : s.Undisturbed) (hw : s.pcWrapped = true) :
    step s = .refused .fetchAfterWrap := by
  rw [step_undisturbed h]
  unfold State.fetchAndExec
  rw [State.nextInputs_fetch, State.fetch_wrapped hw, Access.andThen_refuse]

/-- The advance from the last instruction of the space goes on at 0 and leaves the mark. -/
theorem State.advance_at_top {s : State} {a len : Word} (hpc : s.pc = a) (hl : s.instrLen = len)
    (h : a + len = 0#32) (h0 : a ≠ 0#32) : s.advance.pc = 0#32 ∧ s.advance.pcWrapped = true := by
  subst hpc hl
  have hpos : 0 < s.pc.toNat := Nat.pos_of_ne_zero fun he => h0 (BitVec.eq_of_toNat_eq he)
  refine ⟨h, ?_⟩
  rw [State.advance_pcWrapped, h]
  exact decide_eq_true hpos

/-- Settles O60: the refusal by the fetch, the mark by the effects of an instruction and the fields of the
entries, the two examples by the advance from the top. -/
theorem fetchAfterWrapIsRefused : Obligations.FetchAfterWrapIsRefused := by
  refine ⟨fun s => step_wrapped, fun i s t h hs hw => ?_, fun s e => State.raise_pcWrapped s e,
    State.resetException_pcWrapped, fun s rn rm ht hpc => ?_, fun s rd rs ht hrd hpc => ?_⟩
  · exact ((exec_effect h).advances_of_wrapped hs hw).of_wrapped hw
  · exact ⟨_, rfl, State.advance_at_top hpc (State.instrLen_of_arm ht) (by decide) (by decide)⟩
  · have hrun : exec (.tMovHi rd rs) s = .next (s.writeReg rd (s.readReg rs)).advance := if_neg hrd
    exact ⟨_, hrun, State.advance_at_top ((State.writeReg_pc_of_ne s _ hrd).trans hpc)
      ((s.writeReg_instrLen _ _).trans (State.instrLen_of_thumb ht)) (by decide) (by decide)⟩

/-! ### Operand R15 (10_state R28) -/

/-- R0 is the same register in every bank. -/
theorem State.writeReg_r0_get (s : State) (v : Word) : (s.writeReg 0#4 v).regs.get (.low 0) = v := by
  rw [State.writeReg_get s v (by decide)]
  exact if_pos (physOf_low s.bank 0).symm

/-- Settles O22: MOV R0, PC in both states writes what `readReg` reads of R15. -/
theorem operandR15ReadsAhead : Obligations.OperandR15ReadsAhead := by
  intro s
  refine ⟨fun ht => ⟨_, rfl, ?_⟩, fun ht => ⟨_, rfl, ?_⟩, fun r hr => State.readReg_of_ne s hr⟩
  · exact (s.writeReg_r0_get _).trans (by rw [State.readReg_r15, ht]; rfl)
  · exact (s.writeReg_r0_get _).trans (by rw [State.readReg_r15, ht]; rfl)

end Sys2Proof.Machine
end

section
/-! The statements about memory (20_memory): what changes it, the refusals of an access where nothing is
placed and of a fetch after a store, the accesses that meet a device, a byte of a stored word. -/

namespace Sys2Proof.Machine

/-! ### What changes memory (20_memory R64, R70) -/

/-- A return from an exception leaves memory, its marks, the platform and the inputs alone. -/
theorem State.exceptionReturn_memory {s t : State} {r : Word} (h : s.exceptionReturn r = .next t) :
    (t.mem = s.mem ∧ t.stored = s.stored) ∧ t.platform = s.platform ∧ t.inputs = s.inputs := by
  obtain ⟨e, -, ⟨-, rfl⟩ | ⟨-, -, rfl⟩⟩ := State.exceptionReturn_next h
  · exact ⟨⟨rfl, rfl⟩, rfl, rfl⟩
  · exact ⟨⟨rfl, rfl⟩, rfl, rfl⟩

/-- An effect changes memory and its marks only by changing data, and the platform and the inputs never. -/
theorem State.Effect.memory {i : Instr} {s t : State} (h : State.Effect i s t) :
    (¬ writesMemory i → t.mem = s.mem ∧ t.stored = s.stored) ∧
      t.platform = s.platform ∧ t.inputs = s.inputs := by
  cases h with
  | went u p hu => exact ⟨hu.mem, hu.platform, hu.inputs⟩
  | branched u a hu => exact ⟨hu.mem, hu.platform, hu.inputs⟩
  | exchanged => exact ⟨fun _ => ⟨rfl, rfl⟩, rfl, rfl⟩
  | took u e hu => exact ⟨hu.mem, hu.platform, hu.inputs⟩
  | returned r _ _ hr =>
    obtain ⟨hm, hp, hi⟩ := State.exceptionReturn_memory hr
    exact ⟨fun _ => hm, hp, hi⟩
  | wroteControl p _ _ _ _ ht =>
    obtain ⟨rfl, -⟩ | rfl := ht <;> exact ⟨fun _ => ⟨rfl, rfl⟩, rfl, rfl⟩
  | wroteSpsr => exact ⟨fun _ => ⟨rfl, rfl⟩, rfl, rfl⟩

/-- Settles O58: whatever an instruction does to memory, it does as a change of data. -/
theorem memoryChangesOnlyByStores : Obligations.MemoryChangesOnlyByStores := by
  intro i s t h
  obtain ⟨hmem, hp, hi⟩ := (exec_effect h).memory
  refine ⟨fun hn => ?_, hp, hi⟩
  obtain ⟨hm, hs⟩ := hmem hn
  exact ⟨fun a => by rw [hm], hs⟩

/-! ### The step by what its fetch comes to (60_exceptions R235) -/

/-- A step at an undisturbed boundary stops where its fetch is refused. -/
theorem step_fetch_refused {s : State} {r : Refusal} (h : s.Undisturbed) (hf : s.fetch = .refuse r) :
    step s = .refused r := by
  rw [step_undisturbed h, State.fetchAndExec, State.nextInputs_fetch, hf, Access.andThen_refuse]

/-- A step at an undisturbed boundary runs what the bytes fetched decode to. -/
theorem step_fetch_decoded {s : State} {bs : List Byte} {i : Instr} (h : s.Undisturbed)
    (hf : s.fetch = .ok bs) (hi : decodeBytes s.platform.bigEndian s.cpsr.t bs = .ok i) :
    step s = exec i (s.nextInputs.seen s.pc s.fetchLen) := by
  rw [step_undisturbed h, State.fetchAndExec, State.nextInputs_fetch, hf, Access.andThen_ok]
  simp only [State.nextInputs_platform, State.nextInputs_cpsr, hi, State.nextInputs_pc,
    State.nextInputs_fetchLen]

/-- A step at an undisturbed boundary refuses by name the bytes that decode to nothing. -/
theorem step_fetch_rejected {s : State} {bs : List Byte} {e : Reject} (h : s.Undisturbed)
    (hf : s.fetch = .ok bs) (he : decodeBytes s.platform.bigEndian s.cpsr.t bs = .error e) :
    step s = .refused (rejectRefusal e) := by
  rw [step_undisturbed h, State.fetchAndExec, State.nextInputs_fetch, hf, Access.andThen_ok]
  simp only [State.nextInputs_platform, State.nextInputs_cpsr, he]

/-! ### Single transfers by their shared operations -/

/-- The LDRB of each form, by its shared operation. -/
theorem exec_ldrbOf (ix : Index) (c : Cond) (up : Bool) (rn rd : RegNum) (imm : BitVec 12) (s : State) :
    exec (ldrbOf ix c up rn rd imm) s = s.whenCond c (s.loadByte ix up rn rd imm) := by
  cases ix <;> rfl

/-- The STR of each form, by its shared operation. -/
theorem exec_strOf (ix : Index) (c : Cond) (up : Bool) (rn rd : RegNum) (imm : BitVec 12) (s : State) :
    exec (strOf ix c up rn rd imm) s = s.whenCond c (s.storeReg 4 .strOfR15 ix up rn rd imm) := by
  cases ix <;> rfl

/-- The STRB of each form, by its shared operation. -/
theorem exec_strbOf (ix : Index) (c : Cond) (up : Bool) (rn rd : RegNum) (imm : BitVec 12) (s : State) :
    exec (strbOf ix c up rn rd imm) s = s.whenCond c (s.storeReg 1 .strbOfR15 ix up rn rd imm) := by
  cases ix <;> rfl

/-! ### The write-back of a base -/

/-- The write-back of a single transfer is that of a block transfer with W set. -/
theorem State.writeBack_eq (s : State) (ix : Index) (rn : RegNum) (off : Word) :
    s.writeBack ix rn off = s.blockWriteBack ix.writesBack rn off := rfl

section
variable (s : State) (wb : Bool) (rn : RegNum) (v : Word)

@[simp] theorem State.blockWriteBack_mem : (s.blockWriteBack wb rn v).mem = s.mem := by
  cases wb <;> simp [State.blockWriteBack]
@[simp] theorem State.blockWriteBack_stored : (s.blockWriteBack wb rn v).stored = s.stored := by
  cases wb <;> simp [State.blockWriteBack]
@[simp] theorem State.blockWriteBack_cpsr : (s.blockWriteBack wb rn v).cpsr = s.cpsr := by
  cases wb <;> simp [State.blockWriteBack]
@[simp] theorem State.blockWriteBack_spsr : (s.blockWriteBack wb rn v).spsr = s.spsr := by
  cases wb <;> simp [State.blockWriteBack]
@[simp] theorem State.blockWriteBack_platform : (s.blockWriteBack wb rn v).platform = s.platform := by
  cases wb <;> simp [State.blockWriteBack]
@[simp] theorem State.blockWriteBack_inputs : (s.blockWriteBack wb rn v).inputs = s.inputs := by
  cases wb <;> simp [State.blockWriteBack]
@[simp] theorem State.blockWriteBack_bank : (s.blockWriteBack wb rn v).bank = s.bank := by
  cases wb <;> simp [State.blockWriteBack]

end

theorem State.blockWriteBack_pc (s : State) {wb : Bool} {rn : RegNum} (v : Word)
    (h : wb = true → rn ≠ 15#4) : (s.blockWriteBack wb rn v).pc = s.pc := by
  cases wb
  · rfl
  · exact s.writeReg_pc_of_ne v (h rfl)

/-- A write-back keeps everything but the base that it writes. -/
theorem State.blockWriteBack_keeps (s : State) {wb : Bool} {rn : RegNum} (v : Word)
    (h : wb = true → rn ≠ 15#4) : s.Keeps (s.blockWriteBack wb rn v) (wbRegs s wb rn) := by
  cases wb
  · exact .refl s _
  · exact s.writeReg_keeps v (h rfl)

/-- A base written back holds its value. -/
theorem State.blockWriteBack_base (s : State) {rn : RegNum} (v : Word) (h : rn ≠ 15#4) :
    (s.blockWriteBack true rn v).regs.get (physOf s.bank rn) = v :=
  (s.writeReg_get v h _).trans (if_pos rfl)

/-! ### A fetch after a store (20_memory R73) -/

/-- A store marks its own addresses. -/
theorem State.store_marks_own (s : State) (addr : Word) (n : Nat) (v : Word) {k : Nat} (hk : k < n) :
    byteAddr addr k ∈ (s.store addr n v).stored :=
  (s.store_marks addr n v _).2 (.inr fun h => h k hk rfl)

/-- A store of a register that does not abort marks its addresses and goes on to the next instruction. -/
theorem State.storeReg_next_reaches {s t : State} {n : Nat} {ofR15 : Refusal} {ix : Index} {up : Bool}
    {rn rd : RegNum} {imm : BitVec 12} (h : s.storeReg n ofR15 ix up rn rd imm = .next t)
    (hr : s.Reaches .write (s.transferAddr ix up rn imm) n) :
    t.pc = s.pc + s.instrLen ∧ t.cpsr = s.cpsr ∧
      ∀ k < n, byteAddr (s.transferAddr ix up rn imm) k ∈ t.stored := by
  obtain ⟨hx, -, ⟨-, rfl⟩ | ⟨ha, -⟩⟩ := State.storeReg_next h
  · have hrn := fun hw => ((Index.refusal_none_iff ix rn rd).1 hx hw).1
    rw [State.writeBack_eq]
    have hpc := State.blockWriteBack_pc (s.store (s.transferAddr ix up rn imm) n (s.readReg rd))
      (s.offAddr up rn imm) hrn
    refine ⟨(State.advance_advances (s := s) hpc (by simp)).pc, by simp, fun k hk => ?_⟩
    rw [State.advance_stored, State.blockWriteBack_stored]
    exact s.store_marks_own _ n _ hk
  · exact absurd ha.abort (by rw [hr.noAbort]; decide)

/-- Settles O59: the marked byte refuses the fetch; a STR over the next instruction marks its first byte. -/
theorem fetchAfterStoreIsRefused : Obligations.FetchAfterStoreIsRefused := by
  have refused (s : State) (k : Nat) (hu : s.Undisturbed) (hw : s.pcWrapped = false)
      (hr : s.Reaches .fetch s.pc s.fetchLen) (hk : k < s.fetchLen) (hs : byteAddr s.pc k ∈ s.stored) :
      step s = .refused .fetchAfterStore :=
    step_fetch_refused hu (State.fetch_stored hw hr hk hs)
  refine ⟨refused, fun s t ix c up rn rd imm ht hc hacc haddr hexec hu hw hf => ?_⟩
  rw [exec_strOf, State.whenCond_pass _ hc] at hexec
  obtain ⟨hpc, hcpsr, hmarks⟩ := State.storeReg_next_reaches hexec hacc.reaches
  rw [State.instrLen_of_arm ht, ← haddr] at hpc
  have hlen : t.fetchLen = 4 := State.fetchLen_of_arm (by rw [hcpsr]; exact ht)
  refine refused t 0 hu hw (by rw [hlen]; exact hf.reaches) (by rw [hlen]; decide) ?_
  rw [hpc]
  exact hmarks 0 (by decide)

/-! ### Single transfers and swaps that are refused -/

/-- A LDR whose read is refused is refused with it. -/
theorem State.loadWord_refused {s : State} {ix : Index} {up : Bool} {rn rd : RegNum} {imm : BitVec 12}
    {r : Refusal} (hx : ix.Allowed rn rd)
    (hr : s.memRead (s.transferAddr ix up rn imm) 4 = .refuse r) :
    s.loadWord ix up rn rd imm = .refused r := by
  unfold State.loadWord
  rw [(Index.refusal_none_iff ix rn rd).2 hx]
  simp only [hr, Access.andThen_refuse]

/-- A LDRB whose read is refused is refused with it. -/
theorem State.loadByte_refused {s : State} {ix : Index} {up : Bool} {rn rd : RegNum} {imm : BitVec 12}
    {r : Refusal} (hx : ix.Allowed rn rd) (hd : rd ≠ 15#4)
    (hr : s.memRead (s.transferAddr ix up rn imm) 1 = .refuse r) :
    s.loadByte ix up rn rd imm = .refused r := by
  unfold State.loadByte
  rw [(Index.refusal_none_iff ix rn rd).2 hx]
  simp only [if_neg hd, hr, Access.andThen_refuse]

/-- A STR or STRB whose write is refused is refused with it. -/
theorem State.storeReg_refused {s : State} {n : Nat} {ofR15 : Refusal} {ix : Index} {up : Bool}
    {rn rd : RegNum} {imm : BitVec 12} {r : Refusal} (hx : ix.Allowed rn rd) (hd : rd ≠ 15#4)
    (hr : s.memWrite (s.transferAddr ix up rn imm) n (s.readReg rd) = .refuse r) :
    s.storeReg n ofR15 ix up rn rd imm = .refused r := by
  unfold State.storeReg
  rw [(Index.refusal_none_iff ix rn rd).2 hx]
  simp only [if_neg hd, hr, Access.andThen_refuse]

/-- A SWP or SWPB whose read is refused is refused with it. -/
theorem State.swap_refused {s : State} {n : Nat} {rn rd rm : RegNum} {r : Refusal}
    (hx : swapRefusal rn rd rm = none) (hr : s.memRead (s.readReg rn) n = .refuse r) :
    s.swap n rn rd rm = .refused r := by
  unfold State.swap
  rw [hx]
  simp only [hr, Access.andThen_refuse]

/-- SWP and SWPB by their shared operation. -/
theorem exec_swap {c : Cond} {rn rd rm : RegNum} {i : Instr} {n : Nat} (s : State)
    (hi : (i, n) ∈ [(.swp c rn rd rm, 4), (.swpb c rn rd rm, 1)]) :
    exec i s = s.whenCond c (s.swap n rn rd rm) := by
  simp only [List.mem_cons, Prod.mk.injEq, List.not_mem_nil, or_false] at hi
  obtain ⟨rfl, rfl⟩ | ⟨rfl, rfl⟩ := hi <;> rfl

/-! ### Block transfers that are refused -/

/-- A list split at one of its registers: those before it are the listed registers below it. -/
theorem regList_split {list : BitVec 16} {r0 : RegNum} (h : list.getLsbD r0.toNat = true) :
    ∃ rs qs, regList list = rs ++ r0 :: qs ∧
      ∀ r ∈ rs, list.getLsbD r.toNat = true ∧ r.toNat < r0.toNat := by
  obtain ⟨rs, qs, hl⟩ := List.append_of_mem (mem_regList.2 h)
  refine ⟨rs, qs, hl, fun r hr => ⟨mem_regList.1 (by simp [hl, hr]), ?_⟩⟩
  have hs := regList_sorted list
  rw [hl, List.pairwise_append] at hs
  exact hs.2.2 r hr r0 (by simp)

/-- What a STM stores where: each listed register at its slot. -/
def State.slotStores (s : State) (start : Word) (list : BitVec 16) : List (Word × Word) :=
  (regList list).map fun r => (slotAddr start list r, s.readReg r)

theorem blockStores_eq (s : State) (mode : BlockMode) (base : Word) (list : BitVec 16) :
    (blockAddrs mode base list).zip ((regList list).map s.readReg) =
      s.slotStores (blockStart mode base list) list := by
  rw [blockAddrs_eq, List.zip_map', State.slotStores]

theorem BlockAllowed.refusal {s : State} {rn : RegNum} {list : BitVec 16} (h : BlockAllowed s rn list) :
    s.blockRefusal rn list = none :=
  (State.blockRefusal_none_iff s rn list).2 ⟨h.nonempty, h.base, h.aligned⟩

section
variable {s : State} {mode : BlockMode} {wb : Bool} {rn : RegNum} {list : BitVec 16}

/-- A LDM whose reads are refused is refused with them. -/
theorem State.loadMultiple_refused {r : Refusal} (h : BlockAllowed s rn list)
    (hw : wb = true → list.getLsbD rn.toNat = false)
    (hr : s.loadWords (blockAddrs mode (s.readReg rn) list) = .refuse r) :
    s.loadMultiple mode wb rn list = .refused r := by
  have hw' : (wb && list.getLsbD rn.toNat) = false := by simpa using hw
  unfold State.loadMultiple
  simp only [h.refusal, hw', Bool.false_eq_true, if_false, hr]

/-- STM does not refuse the list: R15 is not in it, and a base that is written back is first or not in it
(43_data_transfer R168). -/
theorem stmList_accepted (hw : wb = true → list.getLsbD rn.toNat = true → slotOf list rn.toNat = 0) :
    (wb && list.getLsbD rn.toNat && (regList list).head? != some rn) = false := by
  cases wb
  · rfl
  · cases hl : list.getLsbD rn.toNat
    · rfl
    · simpa using (head_regList_iff hl).2 (hw rfl hl)

/-- A STM whose stores are refused is refused with them. -/
theorem State.storeMultiple_refused {r : Refusal} (h : BlockAllowed s rn list)
    (h15 : list.getLsbD 15 = false)
    (hw : wb = true → list.getLsbD rn.toNat = true → slotOf list rn.toNat = 0)
    (hr : s.storeWords ((blockAddrs mode (s.readReg rn) list).zip ((regList list).map s.readReg)) =
      .refuse r) : s.storeMultiple mode wb rn list = .refused r := by
  unfold State.storeMultiple
  simp only [h.refusal, h15, stmList_accepted hw, Bool.false_eq_true, if_false, hr]

end

/-! ### Where nothing is placed (20_memory R60) -/

/-- A single transfer of which one byte is not placed is refused. -/
theorem singleTransfer_misses {s : State} {ix : Index} {c : Cond} {up : Bool} {rn rd : RegNum}
    {imm : BitVec 12} {i : Instr} {kind : AccessKind} {n : Nat} (hc : condPassed s.cpsr c = true)
    (hx : ix.Allowed rn rd)
    (hi : (i, kind, n) ∈ [(ldrOf ix c up rn rd imm, .read, 4), (ldrbOf ix c up rn rd imm, .read, 1),
      (strOf ix c up rn rd imm, .write, 4), (strbOf ix c up rn rd imm, .write, 1)])
    (hd : rd ≠ 15#4 ∨ i = ldrOf ix c up rn rd imm)
    (hm : s.Misses kind (s.transferAddr ix up rn imm) n) : exec i s = .refused .unmapped := by
  simp only [List.mem_cons, Prod.mk.injEq, List.not_mem_nil, or_false] at hi
  obtain ⟨rfl, rfl, rfl⟩ | ⟨rfl, rfl, rfl⟩ | ⟨rfl, rfl, rfl⟩ | ⟨rfl, rfl, rfl⟩ := hi
  · rw [exec_ldrOf, State.whenCond_pass _ hc, State.loadWord_refused hx (State.memRead_misses hm)]
  · rw [exec_ldrbOf, State.whenCond_pass _ hc, State.loadByte_refused hx
      (hd.resolve_right (by cases ix <;> simp [ldrOf, ldrbOf])) (State.memRead_misses hm)]
  · rw [exec_strOf, State.whenCond_pass _ hc, State.storeReg_refused hx
      (hd.resolve_right (by cases ix <;> simp [ldrOf, strOf])) (State.memWrite_misses _ hm)]
  · rw [exec_strbOf, State.whenCond_pass _ hc, State.storeReg_refused hx
      (hd.resolve_right (by cases ix <;> simp [ldrOf, strbOf])) (State.memWrite_misses _ hm)]

/-- A block transfer's reads of which the one of `r0` misses, those before it having values, are refused. -/
theorem State.blockReads_miss {s : State} {start : Word} {list : BitVec 16} {r0 : RegNum}
    (h0 : list.getLsbD r0.toNat = true)
    (hr : ∀ r : RegNum, list.getLsbD r.toNat = true → r.toNat < r0.toNat →
      s.Readable .read (slotAddr start list r) 4)
    (hm : s.Misses .read (slotAddr start list r0) 4) :
    s.loadWords ((regList list).map (slotAddr start list)) = .refuse .unmapped := by
  obtain ⟨rs, qs, hl, hrs⟩ := regList_split h0
  rw [hl, List.map_append, List.map_cons]
  refine State.loadWords_misses (fun a ha => ?_) hm
  obtain ⟨r, hmem, rfl⟩ := List.mem_map.1 ha
  exact hr r (hrs r hmem).1 (hrs r hmem).2

/-- A block transfer's stores of which the one of `r0` misses, those before it going through, are refused. -/
theorem State.blockStores_miss {s : State} {start : Word} {list : BitVec 16} {r0 : RegNum}
    (h0 : list.getLsbD r0.toNat = true)
    (hr : ∀ r : RegNum, list.getLsbD r.toNat = true → r.toNat < r0.toNat →
      s.Reaches .write (slotAddr start list r) 4)
    (hm : s.Misses .write (slotAddr start list r0) 4) :
    s.storeWords (s.slotStores start list) = .refuse .unmapped := by
  obtain ⟨rs, qs, hl, hrs⟩ := regList_split h0
  rw [State.slotStores, hl, List.map_append, List.map_cons]
  refine State.storeWords_misses (fun x hx => ?_) hm
  obtain ⟨r, hmem, rfl⟩ := List.mem_map.1 hx
  exact hr r (hrs r hmem).1 (hrs r hmem).2

/-- Settles O39: each access that misses is refused, and what makes the access with it. -/
theorem accessWhereNothingIsPlacedIsRefused : Obligations.AccessWhereNothingIsPlacedIsRefused := by
  refine ⟨fun s ix c up rn rd imm hc hx => ⟨fun hmis => ?_, fun i kind n hi hd hm =>
    singleTransfer_misses hc hx hi hd hm⟩, ?_, ?_, fun s hu hw hm =>
    step_fetch_refused hu (State.fetch_misses hw hm)⟩
  · rw [exec_ldrOf, State.whenCond_pass _ hc,
      State.loadWord_refused hx (State.memRead_misaligned hmis)]
  · intro s c rn rd rm i n hc hi hn hd hmr hnd hnm hm
    rw [exec_swap s hi, State.whenCond_pass _ hc, State.swap_refused
      ((swapRefusal_none_iff rn rd rm).2 ⟨hn, hd, hmr, hnd, hnm⟩) (State.memRead_misses hm)]
  · intro s c mode wb rn r0 list hc ha h0
    refine ⟨fun hw hr hm => ?_, fun h15 hw hr hm => ?_⟩
    · refine (State.whenCond_pass _ hc).trans (State.loadMultiple_refused ha hw ?_)
      rw [blockAddrs_eq]
      exact State.blockReads_miss h0 hr hm
    · refine (State.whenCond_pass _ hc).trans (State.storeMultiple_refused ha h15 hw ?_)
      rw [blockStores_eq]
      exact State.blockStores_miss h0 hr hm

/-! ### Single transfers and swaps that complete -/

/-- A LDR of a register other than R15 whose read gives a value writes it and goes on. -/
theorem State.loadWord_done {s : State} {ix : Index} {up : Bool} {rn rd : RegNum} {imm : BitVec 12}
    {v : Word} (hx : ix.Allowed rn rd) (hd : rd ≠ 15#4)
    (hv : s.memRead (s.transferAddr ix up rn imm) 4 = .ok v) :
    s.loadWord ix up rn rd imm =
      .next (((s.seen (s.transferAddr ix up rn imm) 4).blockWriteBack ix.writesBack rn
        (s.offAddr up rn imm)).writeReg rd v).advance := by
  unfold State.loadWord
  rw [(Index.refusal_none_iff ix rn rd).2 hx]
  simp only [hv, Access.andThen_ok, if_neg hd, State.writeBack_eq]

/-- A LDR of R15 whose read gives a value branches to it. -/
theorem State.loadWord_branches {s : State} {ix : Index} {up : Bool} {rn : RegNum} {imm : BitVec 12}
    {v : Word} (hx : ix.writesBack = true → rn ≠ 15#4)
    (hv : s.memRead (s.transferAddr ix up rn imm) 4 = .ok v) :
    s.loadWord ix up rn 15#4 imm =
      ((s.seen (s.transferAddr ix up rn imm) 4).blockWriteBack ix.writesBack rn
        (s.offAddr up rn imm)).branchArm v := by
  unfold State.loadWord
  rw [(Index.refusal_none_iff ix rn 15#4).2 fun hw => ⟨hx hw, hx hw⟩]
  simp only [hv, Access.andThen_ok, if_true, State.writeBack_eq]

/-- A LDRB whose read gives a value writes it and goes on. -/
theorem State.loadByte_done {s : State} {ix : Index} {up : Bool} {rn rd : RegNum} {imm : BitVec 12}
    {v : Word} (hx : ix.Allowed rn rd) (hd : rd ≠ 15#4)
    (hv : s.memRead (s.transferAddr ix up rn imm) 1 = .ok v) :
    s.loadByte ix up rn rd imm =
      .next (((s.seen (s.transferAddr ix up rn imm) 1).blockWriteBack ix.writesBack rn
        (s.offAddr up rn imm)).writeReg rd v).advance := by
  unfold State.loadByte
  rw [(Index.refusal_none_iff ix rn rd).2 hx]
  simp only [hv, Access.andThen_ok, if_neg hd, State.writeBack_eq]

/-- A STR or STRB whose write is made stores and goes on. -/
theorem State.storeReg_done {s : State} {n : Nat} {ofR15 : Refusal} {ix : Index} {up : Bool}
    {rn rd : RegNum} {imm : BitVec 12} (hx : ix.Allowed rn rd) (hd : rd ≠ 15#4)
    (hr : s.Reaches .write (s.transferAddr ix up rn imm) n) :
    s.storeReg n ofR15 ix up rn rd imm =
      .next ((s.store (s.transferAddr ix up rn imm) n (s.readReg rd)).blockWriteBack ix.writesBack rn
        (s.offAddr up rn imm)).advance := by
  unfold State.storeReg
  rw [(Index.refusal_none_iff ix rn rd).2 hx]
  simp only [if_neg hd, State.memWrite_ok.2 ⟨hr, rfl⟩, Access.andThen_ok, State.writeBack_eq]

/-- A SWP or SWPB whose read gives a value and whose write is made stores, writes the value and goes on. -/
theorem State.swap_done {s : State} {n : Nat} {rn rd rm : RegNum} {old : Word}
    (hx : swapRefusal rn rd rm = none) (hv : s.memRead (s.readReg rn) n = .ok old)
    (hr : s.Reaches .write (s.readReg rn) n) :
    s.swap n rn rd rm =
      .next (((s.seen (s.readReg rn) n).store (s.readReg rn) n (s.readReg rm)).writeReg rd
        old).advance := by
  have hw := State.memWrite_ok (v := s.readReg rm).2
    ⟨hr.congr (t := s.seen (s.readReg rn) n) (by simp) (by simp), rfl⟩
  unfold State.swap
  rw [hx]
  simp only [hv, hw, Access.andThen_ok]

/-! ### Frames of transfers -/

/-- The register written back depends on the bank only. -/
theorem wbRegs_congr {s t : State} (h : t.bank = s.bank) (wb : Bool) (rn : RegNum) :
    wbRegs t wb rn = wbRegs s wb rn := by unfold wbRegs; rw [h]

@[simp] theorem State.seen_wbRegs (s : State) (a : Word) (n : Nat) (wb : Bool) (rn : RegNum) :
    wbRegs (s.seen a n) wb rn = wbRegs s wb rn := wbRegs_congr (s.seen_bank a n) wb rn

/-- A read touches none of the fields that stores do not touch. -/
theorem State.seen_storesOnly (s : State) (a : Word) (n : Nat) : s.StoresOnly (s.seen a n) :=
  ⟨by simp, by simp, by simp, by simp, by simp, by simp, by simp⟩

/-- Reads and stores, then writes of the listed registers, then the advance: an ARM transfer. -/
theorem State.StoresOnly.movesOn {s u w : State} {l : List PhysReg} (h : s.StoresOnly u)
    (k : u.Keeps w l) (hc : w.cpsr = u.cpsr) (hp : w.pc = u.pc) (ht : s.cpsr.t = false) :
    s.MovesOn w.advance l where
  regs p hl := (k.regs p hl).trans (congrArg (·.get p) h.regs)
  cpsr := hc.trans h.cpsr
  spsr := k.spsr.trans h.spsr
  pc := State.instrLen_of_arm ht ▸
    State.advance_advances (hp.trans h.pc) (congrArg Psr.t (hc.trans h.cpsr))
  platform := k.platform.trans h.platform
  inputs := k.inputs.trans h.inputs

/-- The bank depends on the mode only. -/
theorem State.bank_congr {s t : State} (h : t.cpsr = s.cpsr) : t.bank = s.bank := by
  unfold State.bank; rw [h]

theorem State.StoresOnly.bank {s t : State} (h : s.StoresOnly t) : t.bank = s.bank :=
  State.bank_congr h.cpsr

/-- Stores, then the write-back of the base, move on from where they began. -/
theorem State.StoresOnly.writeBack_movesOn {s u : State} {wb : Bool} {rn : RegNum} (h : s.StoresOnly u)
    (off : Word) (hn : wb = true → rn ≠ 15#4) (ht : s.cpsr.t = false) :
    s.MovesOn (u.blockWriteBack wb rn off).advance (wbRegs s wb rn) ∧
      (wb = true → (u.blockWriteBack wb rn off).advance.regs.get (physOf s.bank rn) = off) := by
  have hk := u.blockWriteBack_keeps off hn
  rw [wbRegs_congr h.bank] at hk
  refine ⟨h.movesOn hk (by simp) (u.blockWriteBack_pc off hn) ht, fun hwb => ?_⟩
  subst hwb
  rw [← h.bank]
  exact u.blockWriteBack_base off (hn rfl)

/-- Bytes of the same memory with the same marks are kept. -/
theorem State.keepsByte_of_eq {s t : State} (hm : t.mem = s.mem) (hs : t.stored = s.stored) (a : Nat) :
    s.KeepsByte t a := ⟨by rw [hm], by rw [hs]⟩

/-- A store puts its bytes where memory is and marks its addresses (20_memory R61, R73). -/
theorem State.store_storesPlaced (s : State) (addr : Word) {n : Nat} (hn : n ≤ 2 ^ 32) (v : Word) :
    s.StoresPlaced (s.store addr n v) addr n v where
  memory _ hk hm := s.store_byte addr hn v hk hm
  device _ hd := s.store_read_device addr n v hd
  outside _ ho := s.store_read_outside v ho
  marks a := s.store_marks addr n v a

/-- What a store has placed is said of memory, the marks and the platform alone. -/
theorem State.StoresPlaced.congr {s s' t t' : State} {addr v : Word} {n : Nat}
    (h : s.StoresPlaced t addr n v) (hm : s'.mem = s.mem) (hs : s'.stored = s.stored)
    (hp : s'.platform = s.platform) (htm : t'.mem = t.mem) (hts : t'.stored = t.stored) :
    s'.StoresPlaced t' addr n v := by
  obtain ⟨memory, device, outside, marks⟩ := h
  constructor <;> simp only [hm, hs, hp, htm, hts] <;> assumption

/-! ### Single transfers and swaps that meet a device (20_memory R66) -/

/-- A load, with its base written back where `wb` says so, keeps memory and every other register. -/
theorem State.load_completes {s : State} {wb : Bool} {rn rd : RegNum} (addr : Word) (n : Nat)
    (off v : Word) (ht : s.cpsr.t = false) (hx : wb = true → rn ≠ 15#4 ∧ rn ≠ rd) (hd : rd ≠ 15#4) :
    let t := (((s.seen addr n).blockWriteBack wb rn off).writeReg rd v).advance
    s.MovesOn t (physOf s.bank rd :: wbRegs s wb rn) ∧
      (wb = true → t.regs.get (physOf s.bank rn) = off) ∧ ∀ a, s.KeepsByte t a := by
  intro t
  have hrn := fun hw => (hx hw).1
  have hbase := ((s.seen addr n).blockWriteBack_keeps off hrn).mono
    (l' := physOf s.bank rd :: wbRegs s wb rn) fun p hp =>
      List.mem_cons_of_mem _ (by simpa using hp)
  have hload := (((s.seen addr n).blockWriteBack wb rn off).writeReg_keeps v hd).mono
    (l' := physOf s.bank rd :: wbRegs s wb rn) (by simp)
  refine ⟨(s.seen_storesOnly addr n).movesOn (hbase.trans hload) (by simp) ?_ ht, fun hw => ?_,
    State.keepsByte_of_eq (by simp [t]) (by simp [t])⟩
  · rw [State.writeReg_pc_of_ne _ v hd, State.blockWriteBack_pc _ off hrn]
  · subst hw
    have hne := (physOf_inj (k := s.bank) (hrn rfl) hd).not.2 (hx rfl).2
    rw [State.advance_regs, State.writeReg_get _ v hd, State.blockWriteBack_bank, State.seen_bank,
      if_neg hne, ← s.seen_bank addr n, State.blockWriteBack_base _ off (hrn rfl)]

/-- A LDR of R15 whose read gives a value is refused by the value's alignment, or branches. -/
theorem State.loadR15_completes {s : State} {wb : Bool} {rn : RegNum} (addr : Word) (n : Nat)
    (off v : Word) (hx : wb = true → rn ≠ 15#4) :
    let u := (s.seen addr n).blockWriteBack wb rn off
    u.branchArm v = .refused .armTargetNotAligned ∨
      ∃ t, u.branchArm v = .next t ∧ (∃ w : Word, w.toNat % 4 = 0 ∧ t.Lands w) ∧ t.cpsr = s.cpsr ∧
        s.Keeps t (wbRegs s wb rn) ∧ (wb = true → t.regs.get (physOf s.bank rn) = off) := by
  intro u
  by_cases ha : v.toNat % 4 = 0
  · refine .inr ⟨_, u.branchArm_aligned ha, ⟨v, ha, u.setPc_lands v⟩, by simp [u], ?_, fun hw => ?_⟩
    · have hbase := (s.seen addr n).blockWriteBack_keeps off hx
      rw [State.seen_wbRegs] at hbase
      exact (((s.seen_keeps addr n).mono (by simp)).trans hbase).trans
        ((u.setPc_onlyBranches v).keeps.mono (by simp))
    · subst hw
      rw [State.setPc_regs, ← s.seen_bank addr n, State.blockWriteBack_base _ off (hx rfl)]
  · exact .inl (u.branchArm_misaligned ha)

/-- A store, with its base written back where `wb` says so, places its bytes and keeps every other
register. -/
theorem State.store_completes {s : State} {wb : Bool} {rn : RegNum} (addr : Word) {n : Nat}
    (off v : Word) (hn : n ≤ 2 ^ 32) (ht : s.cpsr.t = false) (hx : wb = true → rn ≠ 15#4) :
    let t := ((s.store addr n v).blockWriteBack wb rn off).advance
    s.MovesOn t (wbRegs s wb rn) ∧ (wb = true → t.regs.get (physOf s.bank rn) = off) ∧
      s.StoresPlaced t addr n v := by
  intro t
  obtain ⟨hmoves, hbase⟩ := (s.store_storesOnly addr n v).writeBack_movesOn off hx ht
  exact ⟨hmoves, hbase, (s.store_storesPlaced addr hn v).congr rfl rfl rfl (by simp [t]) (by simp [t])⟩

/-- A swap places its bytes and keeps every register but the one loaded. -/
theorem State.swap_completes {s : State} {rd : RegNum} (addr : Word) {n : Nat} (v old : Word)
    (hn : n ≤ 2 ^ 32) (ht : s.cpsr.t = false) (hd : rd ≠ 15#4) :
    let t := (((s.seen addr n).store addr n v).writeReg rd old).advance
    s.MovesOn t [physOf s.bank rd] ∧ s.StoresPlaced t addr n v := by
  intro t
  have hkeeps := ((s.seen addr n).store addr n v).writeReg_keeps old hd
  rw [State.store_bank, State.seen_bank] at hkeeps
  refine ⟨((s.seen_storesOnly addr n).trans (State.store_storesOnly _ addr n v)).movesOn hkeeps
    (by simp) (State.writeReg_pc_of_ne _ old hd) ht, ?_⟩
  exact ((s.seen addr n).store_storesPlaced addr hn v).congr (by simp) (by simp) (by simp) (by simp [t])
    (by simp [t])

/-- Settles O40: each access to a device or to memory is made, and its instruction completes. -/
theorem singleDeviceAccessesComplete : Obligations.SingleDeviceAccessesComplete := by
  refine ⟨fun s ix c up rn rd imm ht hc hx => ?_, ?_⟩
  · have hrn := fun hw => (hx hw).1
    refine ⟨fun i n hi hd hr => ?_, fun hr => ?_, fun i n hi hd hr => ?_⟩
    · obtain ⟨v, hv⟩ := State.memRead_readable hr
      simp only [List.mem_cons, Prod.mk.injEq, List.not_mem_nil, or_false] at hi
      obtain ⟨rfl, rfl⟩ | ⟨rfl, rfl⟩ := hi
      · exact ⟨_, (exec_ldrOf ..).trans ((State.whenCond_pass _ hc).trans
          (State.loadWord_done hx hd hv)), State.load_completes _ _ _ v ht hx hd⟩
      · exact ⟨_, (exec_ldrbOf ..).trans ((State.whenCond_pass _ hc).trans
          (State.loadByte_done hx hd hv)), State.load_completes _ _ _ v ht hx hd⟩
    · obtain ⟨v, hv⟩ := State.memRead_readable hr
      unfold RunsTo
      rw [exec_ldrOf, State.whenCond_pass _ hc, State.loadWord_branches hrn hv]
      exact State.loadR15_completes _ _ _ v hrn
    · simp only [List.mem_cons, Prod.mk.injEq, List.not_mem_nil, or_false] at hi
      obtain ⟨rfl, rfl⟩ | ⟨rfl, rfl⟩ := hi
      · exact ⟨_, (exec_strOf ..).trans ((State.whenCond_pass _ hc).trans
          (State.storeReg_done hx hd hr)), State.store_completes _ _ _ (by decide) ht hrn⟩
      · exact ⟨_, (exec_strbOf ..).trans ((State.whenCond_pass _ hc).trans
          (State.storeReg_done hx hd hr)), State.store_completes _ _ _ (by decide) ht hrn⟩
  · intro s c rn rd rm i n ht hc hi hn hd hm hnd hnm hr hw
    obtain ⟨old, hv⟩ := State.memRead_readable hr
    have hlen : n ≤ 2 ^ 32 := by
      simp only [List.mem_cons, Prod.mk.injEq, List.not_mem_nil, or_false] at hi
      omega
    exact ⟨_, (exec_swap s hi).trans ((State.whenCond_pass _ hc).trans (State.swap_done
      ((swapRefusal_none_iff rn rd rm).2 ⟨hn, hd, hm, hnd, hnm⟩) hv hw)),
      State.swap_completes _ _ old hlen ht hd⟩

/-! ### LDM that meets a device (20_memory R66) -/

/-- LDM whose reads all give values writes them, then branches or goes on. -/
theorem State.loadMultiple_done {s : State} {mode : BlockMode} {wb : Bool} {rn : RegNum}
    {list : BitVec 16} {vs : List Word} (h : BlockAllowed s rn list)
    (hw : wb = true → list.getLsbD rn.toNat = false)
    (hv : s.loadWords (blockAddrs mode (s.readReg rn) list) = .done vs) :
    s.loadMultiple mode wb rn list =
      let u := ((s.seenAll (blockAddrs mode (s.readReg rn) list)).blockWriteBack wb rn
        (blockEnd mode (s.readReg rn) list)).writeRegs ((regList list).zip vs)
      if list.getLsbD 15 then u.branchArm (vs.getLastD 0) else .next u.advance := by
  have hw' : (wb && list.getLsbD rn.toNat) = false := by simpa using hw
  unfold State.loadMultiple
  simp only [h.refusal, hw', Bool.false_eq_true, if_false, hv]

@[simp] theorem State.seenAll_bank (s : State) (as : List Word) : (s.seenAll as).bank = s.bank :=
  State.bank_congr (s.seenAll_data as False).cpsr

/-- The values of a LDM, whatever they are, go to the registers of its list, and the base that is not
among them keeps what was written back. -/
theorem State.writeRegs_loadsListed (s : State) (as : List Word) {wb : Bool} {rn : RegNum}
    {list : BitVec 16} (off : Word) (vs : List Word) (hn : rn ≠ 15#4)
    (hw : wb = true → list.getLsbD rn.toNat = false) :
    s.LoadsListed (((s.seenAll as).blockWriteBack wb rn off).writeRegs ((regList list).zip vs))
      wb rn list off := by
  have hdata := ((s.seenAll_data as False).trans (State.blockWriteBack_data _ wb off hn _)).trans
    (State.writeRegs_data _ ((regList list).zip vs) _)
  have hkeep (p : PhysReg)
      (hp : ∀ r : RegNum, list.getLsbD r.toNat = true → r ≠ 15#4 → p ≠ physOf s.bank r) :
      (((s.seenAll as).blockWriteBack wb rn off).writeRegs ((regList list).zip vs)).regs.get p =
        ((s.seenAll as).blockWriteBack wb rn off).regs.get p := by
    refine State.writeRegs_get_of_ne _ _ fun x hx h15 => ?_
    rw [State.blockWriteBack_bank, State.seenAll_bank]
    exact hp x.1 (mem_regList.1 (List.of_mem_zip hx).1) h15
  refine ⟨fun hwb => ?_, fun p hp hpw => ?_, hdata.cpsr, hdata.spsr, hdata.platform, hdata.inputs,
    State.keepsByte_of_eq (hdata.mem id).1 (hdata.mem id).2⟩
  · subst hwb
    rw [hkeep, ← s.seenAll_bank as, State.blockWriteBack_base _ off hn]
    intro r hr h15 he
    rw [(physOf_inj hn h15).1 he, hr] at hw
    exact absurd (hw rfl) (by decide)
  · rw [hkeep p hp, (State.blockWriteBack_keeps _ off fun _ => hn).regs p (by simpa [wbRegs] using hpw),
      State.seenAll_regs]

/-- What a LDM has loaded is said of no pc. -/
theorem State.LoadsListed.congr {s u t : State} {wb : Bool} {rn : RegNum} {list : BitVec 16}
    {off : Word} (h : s.LoadsListed u wb rn list off) (hr : t.regs = u.regs) (hc : t.cpsr = u.cpsr)
    (hq : t.spsr = u.spsr) (hp : t.platform = u.platform) (hi : t.inputs = u.inputs)
    (hm : t.mem = u.mem) (hs : t.stored = u.stored) : s.LoadsListed t wb rn list off := by
  obtain ⟨base, regs, cpsr, spsr, platform, inputs, bytes⟩ := h
  refine ⟨by rwa [hr], by rwa [hr], by rwa [hc], by rwa [hq], by rwa [hp], by rwa [hi], fun a => ?_⟩
  exact ⟨by rw [hm]; exact (bytes a).mem, by rw [hs]; exact (bytes a).mark⟩

/-- The pc does not move before the end of a LDM. -/
theorem State.writeRegs_advances {s : State} (as : List Word) (wb : Bool) {rn : RegNum} (off : Word)
    (xs : List (RegNum × Word)) (hn : rn ≠ 15#4) (ht : s.cpsr.t = false) :
    s.Advances (((s.seenAll as).blockWriteBack wb rn off).writeRegs xs).advance 4#32 := by
  have hdata := ((s.seenAll_data as False).trans (State.blockWriteBack_data _ wb off hn _)).trans
    (State.writeRegs_data _ xs _)
  exact State.instrLen_of_arm ht ▸ State.advance_advances hdata.pc (congrArg Psr.t hdata.cpsr)

/-- A LDM whose slots all have values completes, or is refused by the alignment of what R15 gets. -/
theorem ldm_readable_completes {s : State} {c : Cond} {mode : BlockMode} {wb : Bool} {rn : RegNum}
    {list : BitVec 16} (ht : s.cpsr.t = false) (hc : condPassed s.cpsr c = true)
    (ha : BlockAllowed s rn list) (hw : wb = true → list.getLsbD rn.toNat = false)
    (hr : ∀ r : RegNum, list.getLsbD r.toNat = true →
      s.Readable .read (slotAddr (blockStart mode (s.readReg rn) list) list r) 4) :
    if list.getLsbD 15 then
      exec (.ldm c mode wb rn list) s = .refused .armTargetNotAligned ∨
      RunsTo (.ldm c mode wb rn list) s fun t =>
        s.LoadsListed t wb rn list (blockEnd mode (s.readReg rn) list) ∧
        ∃ v : Word, v.toNat % 4 = 0 ∧ t.Lands v
    else RunsTo (.ldm c mode wb rn list) s fun t =>
      s.LoadsListed t wb rn list (blockEnd mode (s.readReg rn) list) ∧ s.Advances t 4#32 := by
  have hread : ∀ a ∈ blockAddrs mode (s.readReg rn) list, s.Readable .read a 4 := by
    rw [blockAddrs_eq]
    intro a hmem
    obtain ⟨r, hl, rfl⟩ := List.mem_map.1 hmem
    exact hr r (mem_regList.1 hl)
  obtain ⟨vs, hv, -⟩ := State.loadWords_readable hread
  have hrun : exec (.ldm c mode wb rn list) s = _ :=
    (State.whenCond_pass _ hc).trans (State.loadMultiple_done ha hw hv)
  have hlist := s.writeRegs_loadsListed (blockAddrs mode (s.readReg rn) list)
    (blockEnd mode (s.readReg rn) list) vs ha.base hw
  unfold RunsTo
  rw [hrun]
  cases h15 : list.getLsbD 15
  · simp only [Bool.false_eq_true, if_false]
    exact ⟨_, rfl, hlist.congr rfl rfl rfl rfl rfl rfl rfl, State.writeRegs_advances _ _ _ _ ha.base ht⟩
  · simp only [if_true]
    by_cases h4 : (vs.getLastD 0).toNat % 4 = 0
    · exact .inr ⟨_, State.branchArm_aligned _ h4, hlist.congr rfl rfl rfl rfl rfl rfl rfl, _, h4,
        State.setPc_lands _ _⟩
    · exact .inl (State.branchArm_misaligned _ h4)

/-! ### STM that meets a device -/

theorem State.mem_slotStores {s : State} {start : Word} {list : BitVec 16} {x : Word × Word} :
    x ∈ s.slotStores start list ↔
      ∃ r : RegNum, list.getLsbD r.toNat = true ∧ (slotAddr start list r, s.readReg r) = x := by
  simp only [State.slotStores, List.mem_map, mem_regList]

/-- The slots of a STM share no byte. -/
theorem State.slotStores_disjoint (s : State) (start : Word) (list : BitVec 16) :
    (s.slotStores start list).Pairwise
      fun x y => ∀ j < 4, ∀ k < 4, byteAddr x.1 j ≠ byteAddr y.1 k := by
  refine List.pairwise_map.2 ((regList_sorted list).imp_of_mem fun {a b} ha hb hlt j hj k hk => ?_)
  refine slotAddr_disjoint (mem_regList.1 ha) (mem_regList.1 hb) ?_ hj hk
  rintro rfl
  exact lt_irrefl _ hlt

/-- The stores of a STM mark every byte of a listed register's slot, and place those that go to memory. -/
theorem State.storeAll_slot {s : State} {start : Word} {list : BitVec 16} {r : RegNum}
    (hr : list.getLsbD r.toNat = true) {k : Nat} (hk : k < 4) :
    byteAddr (slotAddr start list r) k ∈ (s.storeAll (s.slotStores start list)).stored ∧
      (s.platform.kindAt (byteAddr (slotAddr start list r) k) = some .memory →
        (s.storeAll (s.slotStores start list)).mem.read (byteAddr (slotAddr start list r) k) =
          some (byteOf s.platform.bigEndian 4 (s.readReg r) k)) := by
  have hmem : (slotAddr start list r, s.readReg r) ∈ s.slotStores start list :=
    State.mem_slotStores.2 ⟨r, hr, rfl⟩
  exact ⟨(s.storeAll_marks _ _).2 (.inr ⟨_, hmem, fun h => h k hk rfl⟩),
    s.storeAll_byte _ (s.slotStores_disjoint start list) hmem hk⟩

/-- The stores of a STM keep every byte outside the slots of its list, and its mark. -/
theorem State.storeAll_keepsByte {s : State} {start : Word} {list : BitVec 16} {a : Nat}
    (h : ∀ r : RegNum, list.getLsbD r.toNat = true → Outside (slotAddr start list r) 4 a) :
    s.KeepsByte (s.storeAll (s.slotStores start list)) a := by
  have hout : ∀ x ∈ s.slotStores start list, Outside x.1 4 a := by
    intro x hx
    obtain ⟨r, hr, rfl⟩ := State.mem_slotStores.1 hx
    exact h r hr
  refine ⟨s.storeAll_read_outside _ hout, (s.storeAll_marks _ a).trans (or_iff_left ?_)⟩
  rintro ⟨x, hx, hn⟩
  exact hn (hout x hx)

/-- STM whose stores are all done writes its base back and goes on. -/
theorem State.storeMultiple_done {s : State} {mode : BlockMode} {wb : Bool} {rn : RegNum}
    {list : BitVec 16} (h : BlockAllowed s rn list) (h15 : list.getLsbD 15 = false)
    (hw : wb = true → list.getLsbD rn.toNat = true → slotOf list rn.toNat = 0)
    (hr : ∀ r : RegNum, list.getLsbD r.toNat = true →
      s.Reaches .write (slotAddr (blockStart mode (s.readReg rn) list) list r) 4) :
    s.storeMultiple mode wb rn list =
      .next ((s.storeAll (s.slotStores (blockStart mode (s.readReg rn) list) list)).blockWriteBack wb rn
        (blockEnd mode (s.readReg rn) list)).advance := by
  have hreach : ∀ x ∈ s.slotStores (blockStart mode (s.readReg rn) list) list,
      s.Reaches .write x.1 4 := by
    intro x hx
    obtain ⟨r, hl, rfl⟩ := State.mem_slotStores.1 hx
    exact hr r hl
  unfold State.storeMultiple
  simp only [h.refusal, h15, stmList_accepted hw, blockStores_eq, State.storeWords_done hreach,
    Bool.false_eq_true, if_false]

/-! ### A fetch that meets a device (20_memory R62) -/

/-- A fetch of which every byte has a value gives bytes, those of memory as memory holds them. -/
theorem State.fetch_readable {s : State} (hw : s.pcWrapped = false)
    (hr : s.Readable .fetch s.pc s.fetchLen) (hs : ∀ k < s.fetchLen, byteAddr s.pc k ∉ s.stored) :
    ∃ bs, s.fetch = .ok bs ∧ bs.length = s.fetchLen ∧
      ∀ k < s.fetchLen, s.platform.kindAt (byteAddr s.pc k) = some .memory →
        s.mem.read (byteAddr s.pc k) = bs[k]? := by
  obtain ⟨bs, hb, hl, hbytes⟩ := hr.readBytes
  exact ⟨bs, State.fetch_of_readBytes hw hr.reaches hs hb, hl,
    fun k hk hm => (State.byteAt_memory hm).symm.trans (hbytes k hk)⟩

/-- Settles O41: the reads give values and the stores are all done, whatever lies at the slots; the bytes
fetched are run or rejected. -/
theorem blockDeviceAccessesComplete : Obligations.BlockDeviceAccessesComplete := by
  refine ⟨fun s c mode wb rn list ht hc ha =>
    ⟨ldm_readable_completes ht hc ha, fun h15 hw hr => ?_⟩, fun s hu hw hr hs => ?_⟩
  · refine ⟨_, (State.whenCond_pass _ hc).trans (State.storeMultiple_done ha h15 hw hr), ?_⟩
    have honly := (s.storeAll_storesOnly
      (s.slotStores (blockStart mode (s.readReg rn) list) list)).1
    obtain ⟨hmoves, hbase⟩ := honly.writeBack_movesOn (wb := wb) (blockEnd mode (s.readReg rn) list)
      (fun _ => ha.base) ht
    refine ⟨hmoves, hbase, ?_⟩
    simp only [State.advance_mem, State.advance_stored, State.blockWriteBack_mem,
      State.blockWriteBack_stored]
    refine ⟨fun r hl k hk => State.storeAll_slot hl hk, fun a hd => s.storeAll_read_device _ hd,
      fun a ho => ?_⟩
    obtain ⟨hmem, hmark⟩ := s.storeAll_keepsByte ho
    exact ⟨by simpa using hmem, by simpa using hmark⟩
  · obtain ⟨bs, hf, hl, hbytes⟩ := State.fetch_readable hw hr hs
    refine ⟨bs, hl, hbytes, ?_⟩
    split
    next i hi =>
      obtain ⟨n, hn⟩ := s.nextInputs.seen_eq s.pc s.fetchLen
      exact ⟨n, by rw [step_fetch_decoded hu hf hi, hn]⟩
    next e he => exact step_fetch_rejected hu hf he

/-! ### A byte of a stored word (20_memory R53 to R55) -/

/-- A byte of a word, zero-extended, as a shift and a mask. -/
theorem setWidth_extractLsb'_byte (v : Word) (m : Nat) :
    (v.extractLsb' m 8).setWidth 32 = (v >>> m) &&& 0xFF#32 := by
  apply BitVec.eq_of_getLsbD_eq
  intro i hi
  have hmask : (0xFF#32).getLsbD i = decide (i < 8) := by
    revert i; decide
  rw [BitVec.getLsbD_setWidth, BitVec.getLsbD_extractLsb', BitVec.getLsbD_and,
    BitVec.getLsbD_ushiftRight, hmask]
  simp [hi, Bool.and_comm]

/-- Byte `k` of a stored word, zero-extended, by the byte order. -/
theorem setWidth_byteOf_word (big : Bool) (v : Word) {k : Nat} (hk : k < 4) :
    (byteOf big 4 v k).setWidth 32 =
      if big then (v >>> (24 - 8 * k)) &&& 0xFF#32 else (v >>> (8 * k)) &&& 0xFF#32 := by
  rw [byteOf, setWidth_extractLsb'_byte]
  cases big
  · rfl
  · simp only [if_true]
    rw [show 8 * (4 - 1 - k) = 24 - 8 * k by omega]

/-- The address `k` bytes further on, where the offset does not leave its 12 bits. -/
theorem State.offAddr_add (s : State) (rn : RegNum) {imm k : BitVec 12}
    (h : imm.toNat + k.toNat < 4096) :
    (s.offAddr true rn (imm + k)).toNat = byteAddr (s.offAddr true rn imm) k.toNat := by
  have hk : (imm + k).setWidth 32 = imm.setWidth 32 + BitVec.ofNat 32 k.toNat := by
    apply BitVec.eq_of_toNat_eq
    simp only [BitVec.toNat_setWidth, BitVec.toNat_add, BitVec.toNat_ofNat]
    omega
  simp only [byteAddr, State.offAddr, if_true, hk, BitVec.add_assoc]

/-- A transfer that does not write back is refused no registers (43_data_transfer R160). -/
theorem Index.allowed_pre (rn rd : RegNum) : Index.Allowed .pre rn rd := fun h => absurd h (by decide)

/-- Settles O44: the store puts byte `k` at the address the load reads. -/
theorem byteOfAStoredWord : Obligations.ByteOfAStoredWord := by
  intro s rn rv rd imm k ht hn hv hd hk himm hw hr
  have hstore : exec (.strPre .al true rn rv imm) s =
      .next (s.store (s.offAddr true rn imm) 4 (s.readReg rv)).advance :=
    State.storeReg_done (ix := .pre) (Index.allowed_pre rn rv) hv hw.reaches
  generalize hteq : (s.store (s.offAddr true rn imm) 4 (s.readReg rv)).advance = t at hstore
  have hbase : t.readReg rn = s.readReg rn := by
    subst hteq
    rw [State.readReg_of_ne _ hn, State.readReg_of_ne _ hn]; rfl
  have haddr : t.transferAddr .pre true rn (imm + k) = s.offAddr true rn (imm + k) := by
    simp only [State.transferAddr, State.offAddr, hbase]
  have hbyte : t.mem.read (s.offAddr true rn (imm + k)).toNat =
      some (byteOf s.platform.bigEndian 4 (s.readReg rv) k.toNat) := by
    subst hteq
    rw [s.offAddr_add rn himm]
    exact s.store_byte _ (by decide) _ hk (hw.mapped _ hk)
  have hload : t.loadByte .pre true rn rd (imm + k) = _ :=
    State.loadByte_done (Index.allowed_pre rn rd) hd (by
      rw [haddr]
      exact State.memRead_byte (hr.congr (by subst hteq; rfl) (by subst hteq; rfl)) hbyte)
  refine ⟨t, _, hstore, hload, ?_⟩
  rw [State.advance_regs, State.writeReg_get _ _ hd, if_pos, setWidth_byteOf_word _ _ hk]
  subst hteq
  simp

end Sys2Proof.Machine
end

section
/-! The statements about the encoding (30_encoding): the formats field by field, the two decode tables, the
decoder as the inverse of the encoder, what it rejects, the conditions, the rotated immediate. -/

namespace Sys2Proof

/-! ### Fields of a word -/

/-- A concatenation is a word when its parts are the word's fields. -/
theorem append_eq_iff_fields {m n : Nat} {x : BitVec m} {y : BitVec n} {w : BitVec (m + n)} :
    x ++ y = w ↔ x = w.extractLsb' n m ∧ y = w.extractLsb' 0 n := by
  constructor
  · rintro rfl
    exact ⟨BitVec.extractLsb'_append_eq_left.symm, BitVec.extractLsb'_append_eq_right.symm⟩
  · rintro ⟨rfl, rfl⟩
    exact BitVec.extractLsb'_append_extractLsb'

/-- A field of a field is a field of the word. -/
theorem extractLsb'_extractLsb' {n lo len lo' len' : Nat} (w : BitVec n) (h : lo' + len' ≤ len) :
    (w.extractLsb' lo len).extractLsb' lo' len' = w.extractLsb' (lo + lo') len' := by
  ext k hk
  have : lo' + k < len := by omega
  simp [this, Nat.add_assoc]

/-- A field of one bit. -/
theorem bit_eq_extractLsb' {n : Nat} {w : BitVec n} {k : Nat} {b : Bool} :
    bit b = w.extractLsb' k 1 ↔ b = w.getLsbD k := by
  constructor
  · intro h
    have := congrArg (BitVec.getLsbD · 0) h
    simpa [bit] using this
  · rintro rfl
    ext i hi
    obtain rfl : i = 0 := by omega
    simp [bit]

/-- A field of one bit that is set. -/
theorem one_eq_extractLsb' {n : Nat} {w : BitVec n} {k : Nat} :
    1#1 = w.extractLsb' k 1 ↔ true = w.getLsbD k := bit_eq_extractLsb' (b := true)

/-- A field of one bit that is clear. -/
theorem zero_eq_extractLsb' {n : Nat} {w : BitVec n} {k : Nat} :
    0#1 = w.extractLsb' k 1 ↔ false = w.getLsbD k := bit_eq_extractLsb' (b := false)

/-- The R bit names its PSR. -/
theorem eq_psrSelOf_iff {sel : PsrSel} {r : Bool} : sel = psrSelOf r ↔ sel.bit = r := by
  cases sel <;> cases r <;> simp [psrSelOf, PsrSel.bit]

/-- The P and U bits name their mode. -/
theorem eq_blockModeOf_iff {mode : BlockMode} {p u : Bool} :
    mode = blockModeOf p u ↔ mode.p = p ∧ mode.u = u := by
  cases mode <;> cases p <;> cases u <;> simp [blockModeOf, BlockMode.p, BlockMode.u]

/-! ### The formats (30_encoding R82), field by field -/

section
variable {c : Cond} {w : Word} {rn rd rm rotate : RegNum}

theorem encodeDpReg_eq_iff {op : BitVec 4} {S : Bool} :
    encodeDpReg c op S rn rd rm = w ↔ c.code = w.extractLsb' 28 4 ∧ 0b000#3 = w.extractLsb' 25 3 ∧
      op = w.extractLsb' 21 4 ∧ S = w.getLsbD 20 ∧ rn = w.extractLsb' 16 4 ∧
      rd = w.extractLsb' 12 4 ∧ 0x00#8 = w.extractLsb' 4 8 ∧ rm = w.extractLsb' 0 4 := by
  unfold encodeDpReg
  repeat rw [append_eq_iff_fields]
  simp (disch := omega) only [extractLsb'_extractLsb', bit_eq_extractLsb', and_assoc, Nat.reduceAdd]

theorem encodeDpImm_eq_iff {op : BitVec 4} {S : Bool} {imm8 : BitVec 8} :
    encodeDpImm c op S rn rd rotate imm8 = w ↔ c.code = w.extractLsb' 28 4 ∧
      0b001#3 = w.extractLsb' 25 3 ∧ op = w.extractLsb' 21 4 ∧ S = w.getLsbD 20 ∧
      rn = w.extractLsb' 16 4 ∧ rd = w.extractLsb' 12 4 ∧ rotate = w.extractLsb' 8 4 ∧
      imm8 = w.extractLsb' 0 8 := by
  unfold encodeDpImm
  repeat rw [append_eq_iff_fields]
  simp (disch := omega) only [extractLsb'_extractLsb', bit_eq_extractLsb', and_assoc, Nat.reduceAdd]

theorem encodeSingle_eq_iff {p u b wb l : Bool} {imm12 : BitVec 12} :
    encodeSingle c p u b wb l rn rd imm12 = w ↔ c.code = w.extractLsb' 28 4 ∧
      0b010#3 = w.extractLsb' 25 3 ∧ p = w.getLsbD 24 ∧ u = w.getLsbD 23 ∧ b = w.getLsbD 22 ∧
      wb = w.getLsbD 21 ∧ l = w.getLsbD 20 ∧ rn = w.extractLsb' 16 4 ∧ rd = w.extractLsb' 12 4 ∧
      imm12 = w.extractLsb' 0 12 := by
  unfold encodeSingle
  repeat rw [append_eq_iff_fields]
  simp (disch := omega) only [extractLsb'_extractLsb', bit_eq_extractLsb', and_assoc, Nat.reduceAdd]

theorem encodeBlock_eq_iff {mode : BlockMode} {wb l : Bool} {list : BitVec 16} :
    encodeBlock c mode wb l rn list = w ↔ c.code = w.extractLsb' 28 4 ∧
      0b100#3 = w.extractLsb' 25 3 ∧ mode.p = w.getLsbD 24 ∧ mode.u = w.getLsbD 23 ∧
      false = w.getLsbD 22 ∧ wb = w.getLsbD 21 ∧ l = w.getLsbD 20 ∧ rn = w.extractLsb' 16 4 ∧
      list = w.extractLsb' 0 16 := by
  unfold encodeBlock
  repeat rw [append_eq_iff_fields]
  simp (disch := omega) only [extractLsb'_extractLsb', bit_eq_extractLsb', and_assoc, Nat.reduceAdd]

theorem encodeSwap_eq_iff {b : Bool} :
    encodeSwap c b rn rd rm = w ↔ c.code = w.extractLsb' 28 4 ∧ 0b00010#5 = w.extractLsb' 23 5 ∧
      b = w.getLsbD 22 ∧ 0b00#2 = w.extractLsb' 20 2 ∧ rn = w.extractLsb' 16 4 ∧
      rd = w.extractLsb' 12 4 ∧ 0x09#8 = w.extractLsb' 4 8 ∧ rm = w.extractLsb' 0 4 := by
  unfold encodeSwap
  repeat rw [append_eq_iff_fields]
  simp (disch := omega) only [extractLsb'_extractLsb', bit_eq_extractLsb', and_assoc, Nat.reduceAdd]

end

/-! ### Rows and the fields they fix -/

/-- Whether bit `k` lies in one of the fields, each given by its lowest bit and its length. -/
def inFields (fs : List (Nat × Nat)) (k : Nat) : Bool := fs.any fun f => f.1 ≤ k && k < f.1 + f.2

/-- Two words agree under the mask of some fields when they agree in each of the fields. -/
theorem and_eq_and_iff_fields {n : Nat} {w p mask : BitVec n} {fs : List (Nat × Nat)}
    (hm : ∀ k < n, mask.getLsbD k = inFields fs k) :
    w &&& mask = p &&& mask ↔ ∀ f ∈ fs, p.extractLsb' f.1 f.2 = w.extractLsb' f.1 f.2 := by
  constructor
  · intro h f hf
    ext k hk
    simp only [BitVec.getElem_extractLsb']
    rcases lt_or_ge (f.1 + k) n with hn | hn
    · have hbit : mask.getLsbD (f.1 + k) = true := by
        rw [hm _ hn, inFields, List.any_eq_true]
        exact ⟨f, hf, by simp [hk]⟩
      simpa [hbit] using congrArg (BitVec.getLsbD · (f.1 + k)) h.symm
    · rw [BitVec.getLsbD_of_ge _ _ hn, BitVec.getLsbD_of_ge _ _ hn]
  · intro h
    apply BitVec.eq_of_getLsbD_eq
    intro k hk
    rw [BitVec.getLsbD_and, BitVec.getLsbD_and, hm k hk]
    cases hin : inFields fs k with
    | false => simp
    | true =>
      obtain ⟨f, hf, hlo⟩ := List.any_eq_true.1 hin
      obtain ⟨hlo, hhi⟩ : f.1 ≤ k ∧ k < f.1 + f.2 := by simpa using hlo
      have := congrArg (BitVec.getLsbD · (k - f.1)) (h f hf)
      simpa [show k - f.1 < f.2 by omega, show f.1 + (k - f.1) = k by omega] using this.symm

/-- The row is that of the instruction: a word is the instruction's encoding exactly when it has the
condition, meets the test of the row, and is read by it as the instruction. -/
def ArmRow.RowOf (r : ArmRow) (c : Cond) (i : Instr) : Prop :=
  ∀ w : Word, encode i = .arm w ↔ c.code = w.extractLsb' 28 4 ∧ r.hits w = true ∧ i = r.build w c

/-- A row by the fields it fixes, each given by its lowest bit and its length. -/
theorem ArmRow.RowOf.of_fields {mask pattern : Word} {build : Word → Cond → Instr} {c : Cond}
    {i : Instr} (fs : List (Nat × Nat)) (hm : ∀ k < 32, mask.getLsbD k = inFields fs k)
    (hp : pattern &&& mask = pattern)
    (h : ∀ w : Word, encode i = .arm w ↔ c.code = w.extractLsb' 28 4 ∧
      (∀ f ∈ fs, pattern.extractLsb' f.1 f.2 = w.extractLsb' f.1 f.2) ∧ i = build w c) :
    ArmRow.RowOf ⟨mask, pattern, build⟩ c i := by
  intro w
  rw [h, ← and_eq_and_iff_fields hm, hp, ArmRow.hits, beq_iff_eq]

/-- The rows of the ARM table stand in the order of the constructors of `Instr`. Each case names the fields that
the format fixes and the row tests; said field by field, both sides are the same conditions on the word. -/
theorem armTable_rowOf {i : Instr} {c : Cond} {j : Fin armTable.length} (hj : i.ctorIdx = j)
    (hc : i.cond? = some c) : armTable[j].RowOf c i := by
  obtain ⟨_, hlt⟩ := j
  subst hj
  cases i with
  | bx =>
    cases hc
    refine .of_fields [(4, 24)] (by decide) (by decide) fun w => ?_
    simp only [encode, Code.arm.injEq]
    repeat rw [append_eq_iff_fields]
    simp [extractLsb'_extractLsb', regAt]
    tauto
  | mrs =>
    cases hc
    refine .of_fields [(23, 5), (20, 2), (16, 4), (0, 12)] (by decide) (by decide) fun w => ?_
    simp only [encode, Code.arm.injEq]
    repeat rw [append_eq_iff_fields]
    simp [extractLsb'_extractLsb', regAt, bit_eq_extractLsb', eq_psrSelOf_iff]
    tauto
  | msrReg =>
    cases hc
    refine .of_fields [(23, 5), (20, 2), (12, 4), (4, 8)] (by decide) (by decide) fun w => ?_
    simp only [encode, Code.arm.injEq]
    repeat rw [append_eq_iff_fields]
    simp [extractLsb'_extractLsb', regAt, bit_eq_extractLsb', eq_psrSelOf_iff]
    tauto
  | msrImm =>
    cases hc
    refine .of_fields [(23, 5), (20, 2), (12, 4)] (by decide) (by decide) fun w => ?_
    simp only [encode, Code.arm.injEq]
    repeat rw [append_eq_iff_fields]
    simp [extractLsb'_extractLsb', regAt, bit_eq_extractLsb', eq_psrSelOf_iff]
    tauto
  | swp | swpb =>
    cases hc
    refine .of_fields [(23, 5), (22, 1), (20, 2), (4, 8)] (by decide) (by decide) fun w => ?_
    simp [encode, encodeSwap_eq_iff, regAt, one_eq_extractLsb', zero_eq_extractLsb']
    tauto
  | movReg =>
    cases hc
    refine .of_fields [(25, 3), (21, 4), (16, 4), (4, 8)] (by decide) (by decide) fun w => ?_
    simp [encode, encodeDpReg_eq_iff, regAt]
    tauto
  | movImm =>
    cases hc
    refine .of_fields [(25, 3), (21, 4), (16, 4)] (by decide) (by decide) fun w => ?_
    simp [encode, encodeDpImm_eq_iff, regAt]
    tauto
  | subReg | addReg =>
    cases hc
    refine .of_fields [(25, 3), (21, 4), (4, 8)] (by decide) (by decide) fun w => ?_
    simp [encode, encodeDpReg_eq_iff, regAt]
    tauto
  | subImm | addImm =>
    cases hc
    refine .of_fields [(25, 3), (21, 4)] (by decide) (by decide) fun w => ?_
    simp [encode, encodeDpImm_eq_iff, regAt]
    tauto
  | cmpReg =>
    cases hc
    refine .of_fields [(25, 3), (21, 4), (20, 1), (12, 4), (4, 8)] (by decide) (by decide) fun w => ?_
    simp [encode, encodeDpReg_eq_iff, regAt, one_eq_extractLsb']
    tauto
  | cmpImm =>
    cases hc
    refine .of_fields [(25, 3), (21, 4), (20, 1), (12, 4)] (by decide) (by decide) fun w => ?_
    simp [encode, encodeDpImm_eq_iff, regAt, one_eq_extractLsb']
    tauto
  | ldrPre | ldrPreWb | ldrPost | strPre | strPreWb | strPost | ldrbPre | ldrbPreWb | ldrbPost
  | strbPre | strbPreWb | strbPost =>
    cases hc
    refine .of_fields [(25, 3), (24, 1), (22, 1), (21, 1), (20, 1)] (by decide) (by decide)
      fun w => ?_
    simp [encode, encodeSingle_eq_iff, regAt, one_eq_extractLsb', zero_eq_extractLsb']
    tauto
  | ldm | stm =>
    cases hc
    refine .of_fields [(25, 3), (22, 1), (20, 1)] (by decide) (by decide) fun w => ?_
    simp [encode, encodeBlock_eq_iff, regAt, one_eq_extractLsb', zero_eq_extractLsb',
      eq_blockModeOf_iff]
    tauto
  | b | bl =>
    cases hc
    refine .of_fields [(25, 3), (24, 1)] (by decide) (by decide) fun w => ?_
    simp only [encode, Code.arm.injEq]
    repeat rw [append_eq_iff_fields]
    simp [extractLsb'_extractLsb', bit_eq_extractLsb', one_eq_extractLsb', zero_eq_extractLsb']
    tauto
  | swi =>
    cases hc
    refine .of_fields [(24, 4)] (by decide) (by decide) fun w => ?_
    simp only [encode, Code.arm.injEq]
    repeat rw [append_eq_iff_fields]
    simp [extractLsb'_extractLsb']
    tauto
  | undef =>
    cases hc
    refine .of_fields [(25, 3), (4, 1)] (by decide) (by decide) fun w => ?_
    simp only [encode, Code.arm.injEq]
    repeat rw [append_eq_iff_fields]
    simp [extractLsb'_extractLsb']
    tauto
  | _ => cases hc

/-- A row builds its own instruction, with the condition it is given. -/
theorem armTable_build (j : Fin armTable.length) (w : Word) (c : Cond) :
    (armTable[j].build w c).ctorIdx = j ∧ (armTable[j].build w c).cond? = some c := by
  fin_cases j <;> exact ⟨rfl, rfl⟩

/-- An ARM instruction has its row in the table. -/
theorem ctorIdx_lt_armTable {i : Instr} {c : Cond} (h : i.cond? = some c) :
    i.ctorIdx < armTable.length := by
  cases i with
  | tBx | tAddHi | tCmpHi | tMovHi | tSwi | tUndef | tBcond | tBlFirst | tBlSecond => cases h
  | _ => exact Nat.le_of_ble_eq_true rfl

/-- What is encoded as a word is an ARM instruction. -/
theorem cond?_of_encode_arm {i : Instr} {w : Word} (h : encode i = .arm w) :
    ∃ c, i.cond? = some c := by
  cases i with
  | tBx | tAddHi | tCmpHi | tMovHi | tSwi | tUndef | tBcond | tBlFirst | tBlSecond => cases h
  | _ => exact ⟨_, rfl⟩

/-- A word that meets two tests makes their patterns agree where both masks look. -/
theorem and_mask_comm {n : Nat} {w m₁ m₂ p₁ p₂ : BitVec n} (h₁ : w &&& m₁ = p₁)
    (h₂ : w &&& m₂ = p₂) :
    p₁ &&& m₂ = p₂ &&& m₁ := by
  rw [← h₁, ← h₂, BitVec.and_assoc, BitVec.and_comm m₁, ← BitVec.and_assoc]

/-- 30_encoding R90: two rows differ in a bit that both test. -/
theorem armTable_conflict : ∀ j k : Fin armTable.length,
    armTable[j].pattern &&& armTable[k].mask = armTable[k].pattern &&& armTable[j].mask → j = k := by
  decide

/-- Settles O3: a word that meets two rows makes their patterns agree, and no two do. -/
theorem armRowsAreDisjoint : Obligations.ArmRowsAreDisjoint := fun _ j k hj hk =>
  armTable_conflict j k (and_mask_comm (beq_iff_eq.1 hj) (beq_iff_eq.1 hk))

/-- A condition is found by its code. -/
theorem condOf_eq_some_iff {k : BitVec 4} {c : Cond} : condOf k = some c ↔ c.code = k := by
  revert k
  cases c <;> decide

/-- 30_encoding R93: only the code 1111 stands for no condition. -/
theorem condOf_eq_none_iff {k : BitVec 4} : condOf k = none ↔ k = 15#4 := by
  revert k
  decide

/-- As the rows are disjoint, the first row that matches is any row that matches. -/
theorem find?_armTable_iff {w : Word} {r : ArmRow} :
    armTable.find? (·.hits w) = some r ↔
      ∃ j : Fin armTable.length, armTable[j] = r ∧ r.hits w = true := by
  rw [List.find?_eq_some_iff_getElem]
  constructor
  · rintro ⟨hr, j, hj, he, -⟩
    exact ⟨⟨j, hj⟩, he, hr⟩
  · rintro ⟨j, rfl, hr⟩
    refine ⟨hr, j, j.isLt, rfl, fun k hk => ?_⟩
    rw [Bool.not_eq_true', ← Bool.not_eq_true]
    intro hk'
    exact hk.ne (congrArg Fin.val (armRowsAreDisjoint w ⟨k, hk.trans j.isLt⟩ j hk' hr))

/-- What the ARM table answers. -/
theorem decodeArm_eq_ok_iff_row {w : Word} {i : Instr} :
    decodeArm w = .ok i ↔ ∃ (c : Cond) (j : Fin armTable.length),
      c.code = w.extractLsb' 28 4 ∧ armTable[j].hits w = true ∧ i = armTable[j].build w c := by
  unfold decodeArm
  constructor
  · intro h
    split at h
    · cases h
    · rename_i c hc
      split at h
      · rename_i r hr
        cases h
        obtain ⟨j, rfl, hw⟩ := find?_armTable_iff.1 hr
        exact ⟨c, j, condOf_eq_some_iff.1 hc, hw, rfl⟩
      · cases h
  · rintro ⟨c, j, hc, hw, rfl⟩
    rw [condOf_eq_some_iff.2 hc, find?_armTable_iff.2 ⟨j, rfl, hw⟩]

/-- The ARM decoder inverts the encoder. -/
theorem decodeArm_eq_ok_iff {w : Word} {i : Instr} : decodeArm w = .ok i ↔ encode i = .arm w := by
  rw [decodeArm_eq_ok_iff_row]
  constructor
  · rintro ⟨c, j, hc, hw, rfl⟩
    obtain ⟨hj, hcond⟩ := armTable_build j w c
    exact (armTable_rowOf hj hcond w).2 ⟨hc, hw, rfl⟩
  · intro h
    obtain ⟨c, hc⟩ := cond?_of_encode_arm h
    exact ⟨c, ⟨i.ctorIdx, ctorIdx_lt_armTable hc⟩, (armTable_rowOf rfl hc w).1 h⟩

/-! ### The THUMB table -/

/-- The row is that of the THUMB instruction: a halfword is the encoding of it, well-formed, exactly when
it meets the test of the row and is read by it as the instruction. -/
def ThumbRow.RowOf (r : ThumbRow) (i : Instr) : Prop :=
  ∀ h : Half, encode i = .thumb h ∧ i.wellFormed = true ↔
    r.hits h = true ∧ some i = r.build h ∧ i.wellFormed = true

/-- The test of a THUMB row by the fields it fixes. -/
theorem ThumbRow.hits_iff_fields {mask pattern : Half} {build : Half → Option Instr}
    (fs : List (Nat × Nat)) (hm : ∀ k < 16, mask.getLsbD k = inFields fs k)
    (hp : pattern &&& mask = pattern) {h : Half} :
    (ThumbRow.mk mask pattern build).hits h = true ↔
      ∀ f ∈ fs, pattern.extractLsb' f.1 f.2 = h.extractLsb' f.1 f.2 := by
  rw [← and_eq_and_iff_fields hm, hp, ThumbRow.hits, beq_iff_eq]

/-- A THUMB row by the fields it fixes. -/
theorem ThumbRow.RowOf.of_fields {mask pattern : Half} {build : Half → Option Instr} {i : Instr}
    (fs : List (Nat × Nat)) (hm : ∀ k < 16, mask.getLsbD k = inFields fs k)
    (hp : pattern &&& mask = pattern)
    (h : ∀ h : Half, encode i = .thumb h ∧ i.wellFormed = true ↔
      (∀ f ∈ fs, pattern.extractLsb' f.1 f.2 = h.extractLsb' f.1 f.2) ∧ some i = build h ∧
        i.wellFormed = true) :
    ThumbRow.RowOf ⟨mask, pattern, build⟩ i := by
  intro w
  rw [h, ThumbRow.hits_iff_fields fs hm hp]

/-- The destination number `H1 : Rd`, field by field. -/
theorem eq_thumbD_iff {rd : RegNum} {h : Half} :
    rd = thumbD h ↔ rd.extractLsb' 3 1 = h.extractLsb' 7 1 ∧ rd.extractLsb' 0 3 = h.extractLsb' 0 3 := by
  unfold thumbD
  rw [eq_comm, append_eq_iff_fields, eq_comm, eq_comm (b := rd.extractLsb' 0 3)]

/-- The high-register format (30_encoding R83), field by field. -/
theorem encodeHigh_eq_iff {op : BitVec 2} {rd rs : RegNum} {h : Half} :
    encodeHigh op rd rs = h ↔ 0b010001#6 = h.extractLsb' 10 6 ∧ op = h.extractLsb' 8 2 ∧
      rd = thumbD h ∧ rs = thumbS h := by
  unfold encodeHigh
  repeat rw [append_eq_iff_fields]
  simp (disch := omega) only [extractLsb'_extractLsb', eq_thumbD_iff, thumbS, and_assoc, Nat.reduceAdd]
  tauto

/-- 30_encoding R91: a high register is named exactly when bits 7:6 are not 00. -/
theorem someHigh_thumb (h : Half) :
    someHigh (thumbD h) (thumbS h) = true ↔ h.extractLsb' 6 2 ≠ 0#2 := by
  have h6 : h.extractLsb' 6 2 = bit (h.getLsbD 7) ++ bit (h.getLsbD 6) := by
    rw [eq_comm, append_eq_iff_fields]
    simp [extractLsb'_extractLsb', bit_eq_extractLsb']
  have hd : (thumbD h).getLsbD 3 = h.getLsbD 7 := by
    rw [thumbD, BitVec.getLsbD_append]
    simp
  have hs : (thumbS h).getLsbD 3 = h.getLsbD 6 := by simp [thumbS]
  rw [h6, someHigh, hd, hs]
  cases h.getLsbD 7 <;> cases h.getLsbD 6 <;> decide

/-- A high-register row builds only forms that name a high register. -/
theorem some_eq_highForm_iff {build : RegNum → RegNum → Instr} {h : Half} {i : Instr} :
    some i = highForm build h ↔
      i = build (thumbD h) (thumbS h) ∧ someHigh (thumbD h) (thumbS h) = true := by
  rw [someHigh_thumb]
  unfold highForm
  split_ifs with h0
  · simp [h0]
  · simp [h0]

/-- The rows of the THUMB table stand in the order of the constructors after those of ARM. -/
theorem thumbTable_rowOf {i : Instr} {j : Fin thumbTable.length}
    (hj : i.ctorIdx = armTable.length + j) : thumbTable[j].RowOf i := by
  obtain ⟨_, hlt⟩ := j
  obtain rfl := Nat.eq_sub_of_add_eq' hj.symm
  cases i with
  | tBx =>
    refine .of_fields [(10, 6), (8, 2), (7, 1), (0, 3)] (by decide) (by decide) fun h => ?_
    simp only [encode, Code.thumb.injEq]
    repeat rw [append_eq_iff_fields]
    simp [extractLsb'_extractLsb', Instr.wellFormed, thumbS]
    tauto
  | tAddHi | tCmpHi | tMovHi =>
    refine .of_fields [(10, 6), (8, 2)] (by decide) (by decide) fun h => ?_
    simp [encode, encodeHigh_eq_iff, Instr.wellFormed, some_eq_highForm_iff]
    grind
  | tSwi | tUndef =>
    refine .of_fields [(8, 8)] (by decide) (by decide) fun h => ?_
    simp only [encode, Code.thumb.injEq]
    rw [append_eq_iff_fields]
    simp [Instr.wellFormed]
  | tBcond =>
    refine .of_fields [(12, 4)] (by decide) (by decide) fun h => ?_
    simp only [encode, Code.thumb.injEq]
    repeat rw [append_eq_iff_fields]
    simp [extractLsb'_extractLsb', Instr.wellFormed, eq_comm (a := some _), condOf_eq_some_iff]
    grind
  | tBlFirst | tBlSecond =>
    refine .of_fields [(12, 4), (11, 1)] (by decide) (by decide) fun h => ?_
    simp only [encode, Code.thumb.injEq]
    repeat rw [append_eq_iff_fields]
    simp [extractLsb'_extractLsb', Instr.wellFormed]
    tauto
  | _ => exact absurd hj (Nat.ne_of_lt (Nat.lt_add_right _ (Nat.le_of_ble_eq_true rfl)))

/-- What is encoded as a halfword has its row in the THUMB table. -/
theorem ctorIdx_of_encode_thumb {i : Instr} {h : Half} (he : encode i = .thumb h) :
    ∃ j : Fin thumbTable.length, i.ctorIdx = armTable.length + j := by
  cases i with
  | tBx | tAddHi | tCmpHi | tMovHi | tSwi | tUndef | tBcond | tBlFirst | tBlSecond =>
    exact ⟨⟨_, Nat.le_of_ble_eq_true rfl⟩, (Nat.add_sub_of_le (Nat.le_of_ble_eq_true rfl)).symm⟩
  | _ => cases he

/-- Only the row of the conditional branch shares halfwords with earlier rows: those of SWI and of the
undefined pattern. -/
theorem thumbTable_conflict : ∀ j k : Fin thumbTable.length, k < j →
    thumbTable[j].pattern &&& thumbTable[k].mask = thumbTable[k].pattern &&& thumbTable[j].mask →
      j.val = 6 ∧ (k.val = 4 ∨ k.val = 5) := by
  decide

theorem thumbSwi_hits {h : Half} :
    thumbTable[4].hits h = true ↔ 0xD#4 = h.extractLsb' 12 4 ∧ 0xF#4 = h.extractLsb' 8 4 :=
  (ThumbRow.hits_iff_fields [(12, 4), (8, 4)] (by decide) (by decide)).trans (by simp)

theorem thumbUndef_hits {h : Half} :
    thumbTable[5].hits h = true ↔ 0xD#4 = h.extractLsb' 12 4 ∧ 0xE#4 = h.extractLsb' 8 4 :=
  (ThumbRow.hits_iff_fields [(12, 4), (8, 4)] (by decide) (by decide)).trans (by simp)

theorem thumbBcond_hits {h : Half} :
    thumbTable[6].hits h = true ↔ 0xD#4 = h.extractLsb' 12 4 :=
  (ThumbRow.hits_iff_fields [(12, 4)] (by decide) (by decide)).trans (by simp)

/-- The row of the conditional branch. -/
theorem thumbBcond_build {h : Half} {i : Instr} (hb : thumbTable[6].build h = some i) :
    ∃ c : Cond, c.code = h.extractLsb' 8 4 ∧ i = .tBcond c (h.extractLsb' 0 8) := by
  obtain ⟨c, hc, rfl⟩ := Option.map_eq_some_iff.1 hb
  exact ⟨c, condOf_eq_some_iff.1 hc, rfl⟩

/-- A row builds its own instruction, well-formed but for the conditional branch. -/
theorem thumbTable_build {j : Fin thumbTable.length} {h : Half} {i : Instr}
    (hb : thumbTable[j].build h = some i) :
    i.ctorIdx = armTable.length + j ∧ (j.val ≠ 6 → i.wellFormed = true) := by
  match j, hb with
  | ⟨1, _⟩, hb | ⟨2, _⟩, hb | ⟨3, _⟩, hb =>
    obtain ⟨rfl, hw⟩ := some_eq_highForm_iff.1 hb.symm
    exact ⟨rfl, fun _ => hw⟩
  | ⟨6, _⟩, hb =>
    obtain ⟨c, -, rfl⟩ := thumbBcond_build hb
    exact ⟨rfl, fun h6 => absurd rfl h6⟩
  | ⟨0, _⟩, hb | ⟨4, _⟩, hb | ⟨5, _⟩, hb | ⟨7, _⟩, hb | ⟨8, _⟩, hb =>
    cases hb
    exact ⟨rfl, fun _ => rfl⟩
  | ⟨n + 9, hn⟩, _ => exact absurd hn (Nat.not_lt.2 (Nat.le_add_left 9 n))

/-- No condition has the code 1111. -/
theorem Cond.code_ne (c : Cond) : c.code ≠ 0xF#4 := by cases c <;> decide

/-- The conditions of the THUMB branch are those with another code than 1110. -/
theorem thumbCond_iff {c : Cond} : thumbCond c = true ↔ c.code ≠ 0xE#4 := by cases c <;> decide

/-- 30_encoding R91: the order of the rows matters for the conditional branch only. A row that matches is the
first that does exactly when what it builds is well-formed. -/
theorem thumbTable_first_iff {j : Fin thumbTable.length} {h : Half} {i : Instr}
    (hj : thumbTable[j].hits h = true) (hb : thumbTable[j].build h = some i) :
    (∀ k < j, thumbTable[k].hits h = false) ↔ i.wellFormed = true := by
  have hearlier (k : Fin thumbTable.length) (hk : k < j) (hk' : thumbTable[k].hits h = true) :
      j.val = 6 ∧ (k.val = 4 ∨ k.val = 5) :=
    thumbTable_conflict j k hk (and_mask_comm (beq_iff_eq.1 hj) (beq_iff_eq.1 hk'))
  simp only [← Bool.not_eq_true]
  by_cases h6 : j.val = 6
  · obtain rfl : j = ⟨6, by decide⟩ := Fin.ext h6
    obtain ⟨c, hc, rfl⟩ := thumbBcond_build hb
    have hD := thumbBcond_hits.1 hj
    rw [Instr.wellFormed, thumbCond_iff, hc]
    constructor
    · exact fun hall he => hall ⟨5, by decide⟩ (by decide) (thumbUndef_hits.2 ⟨hD, he.symm⟩)
    · intro hne k hk hk'
      obtain ⟨-, h4 | h5⟩ := hearlier k hk hk'
      · obtain rfl : k = ⟨4, by decide⟩ := Fin.ext h4
        exact c.code_ne (hc.trans (thumbSwi_hits.1 hk').2.symm)
      · obtain rfl : k = ⟨5, by decide⟩ := Fin.ext h5
        exact hne (thumbUndef_hits.1 hk').2.symm
  · exact iff_of_true (fun k hk hk' => h6 (hearlier k hk hk').1) ((thumbTable_build hb).2 h6)

/-- The first row that matches. -/
theorem find?_thumbTable_iff {h : Half} {r : ThumbRow} :
    thumbTable.find? (·.hits h) = some r ↔ ∃ j : Fin thumbTable.length, thumbTable[j] = r ∧
      r.hits h = true ∧ ∀ k < j, thumbTable[k].hits h = false := by
  rw [List.find?_eq_some_iff_getElem]
  constructor
  · rintro ⟨hr, j, hj, he, hall⟩
    exact ⟨⟨j, hj⟩, he, hr, fun k hk => by simpa using hall k hk⟩
  · rintro ⟨j, he, hr, hall⟩
    exact ⟨hr, j, j.isLt, he, fun k hk => by simpa using hall ⟨k, hk.trans j.isLt⟩ hk⟩

/-- What the THUMB table answers. -/
theorem decodeThumb_eq_ok_iff_row {h : Half} {i : Instr} :
    decodeThumb h = .ok i ↔ ∃ j : Fin thumbTable.length,
      thumbTable[j].hits h = true ∧ some i = thumbTable[j].build h ∧ i.wellFormed = true := by
  have hd : decodeThumb h = .ok i ↔
      (thumbTable.find? (·.hits h)).bind (·.build h) = some i := by
    unfold decodeThumb
    split
    next k hk => rw [hk]; simp
    next hn => simp [hn]
  rw [hd, Option.bind_eq_some_iff]
  constructor
  · rintro ⟨r, hr, hb⟩
    obtain ⟨j, rfl, hj, hall⟩ := find?_thumbTable_iff.1 hr
    exact ⟨j, hj, hb.symm, (thumbTable_first_iff hj hb).1 hall⟩
  · rintro ⟨j, hj, hb, hw⟩
    exact ⟨_, find?_thumbTable_iff.2 ⟨j, rfl, hj, (thumbTable_first_iff hj hb.symm).2 hw⟩, hb.symm⟩

/-- The THUMB decoder inverts the encoder on well-formed instructions. -/
theorem decodeThumb_eq_ok_iff {h : Half} {i : Instr} :
    decodeThumb h = .ok i ↔ encode i = .thumb h ∧ i.wellFormed = true := by
  rw [decodeThumb_eq_ok_iff_row]
  constructor
  · rintro ⟨j, hj⟩
    exact (thumbTable_rowOf (thumbTable_build hj.2.1.symm).1 h).2 hj
  · intro he
    obtain ⟨j, hj⟩ := ctorIdx_of_encode_thumb he.1
    exact ⟨j, (thumbTable_rowOf hj h).1 he⟩

/-! ### Both tables -/

/-- An ARM instruction is well-formed whatever its operands. -/
theorem wellFormed_of_encode_arm {i : Instr} {w : Word} (h : encode i = .arm w) :
    i.wellFormed = true := by
  cases i with
  | tBx | tAddHi | tCmpHi | tMovHi | tSwi | tUndef | tBcond | tBlFirst | tBlSecond => cases h
  | _ => rfl

/-- The decoder accepts exactly the encodings of well-formed instructions, and inverts the encoder on them. -/
theorem decode_eq_ok_iff {x : Code} {i : Instr} :
    decode x = .ok i ↔ encode i = x ∧ i.wellFormed = true := by
  cases x with
  | arm w => exact decodeArm_eq_ok_iff.trans (iff_self_and.2 wellFormed_of_encode_arm)
  | thumb h => exact decodeThumb_eq_ok_iff

/-- The operating state that a word or halfword belongs to. -/
def Code.isThumb : Code → Bool
  | .arm _ => false
  | .thumb _ => true

/-- An instruction is encoded for its own operating state. -/
theorem encode_isThumb (i : Instr) : (encode i).isThumb = i.isThumb := by cases i <;> rfl

/-- The bytes of a word or halfword decode as it does, in either byte order (20_memory R55, R58). -/
theorem decodeBytes_bytes (big : Bool) (x : Code) : decodeBytes big x.isThumb (x.bytes big) = decode x := by
  cases x with
  | arm w => simp [decodeBytes, Code.bytes, Code.isThumb, ofBytes_toBytes_word, decode]
  | thumb h => simp [decodeBytes, Code.bytes, Code.isThumb, ofBytes_toBytes_half, decode]

/-- Settles O1: one direction of `decode_eq_ok_iff`, and the bytes by the byte order alone. -/
theorem decodeOfEncodeIsIdentity : Obligations.DecodeOfEncodeIsIdentity := by
  intro i hw
  have hd : decode (encode i) = .ok i := decode_eq_ok_iff.2 ⟨rfl, hw⟩
  exact ⟨hd, fun big => by rw [← encode_isThumb, Instr.bytes, decodeBytes_bytes, hd]⟩

/-- Settles O2: the other direction of `decode_eq_ok_iff`. -/
theorem acceptedWordIsItsEncoding : Obligations.AcceptedWordIsItsEncoding := fun _ _ =>
  decode_eq_ok_iff.1

/-- Settles O4. -/
theorem sampleWordsDecode : Obligations.SampleWordsDecode := by
  unfold Obligations.SampleWordsDecode
  decide

/-! ### What the decoder rejects -/

/-- 30_encoding R93, R96: why the ARM decoder rejects a word. -/
theorem decodeArm_error {w : Word} (h : ∀ i, decodeArm w ≠ .ok i) :
    decodeArm w = .error (if w.extractLsb' 28 4 = 15#4 then .conditionNV else .unmodelled) := by
  unfold decodeArm at h ⊢
  split
  next hc => rw [if_pos (condOf_eq_none_iff.1 hc)]
  next c hc =>
    have hne : w.extractLsb' 28 4 ≠ 15#4 := fun he => by
      rw [condOf_eq_none_iff.2 he] at hc
      cases hc
    rw [if_neg hne]
    split
    next r hr => exact absurd (by rw [hc, hr]) (h (r.build w c))
    next => rfl

/-- 30_encoding R96: why the THUMB decoder rejects a halfword. -/
theorem decodeThumb_error {h : Half} (hn : ∀ i, decodeThumb h ≠ .ok i) :
    decodeThumb h = .error .unmodelled := by
  unfold decodeThumb at hn ⊢
  split
  next i hi => exact absurd (by rw [hi]) (hn i)
  next => rfl

/-- 30_encoding R93: condition 1111 is looked at before the table. -/
theorem decodeArm_conditionNV {w : Word} (h : w.extractLsb' 28 4 = 15#4) :
    decodeArm w = .error .conditionNV := by
  rw [decodeArm, condOf_eq_none_iff.2 h]

namespace Machine

/-! ### The step on a rejected word (30_encoding R93, R96) -/

/-- A step that fetches the bytes of a rejected word or halfword is refused. -/
theorem step_fetch_code_rejected {s : State} {x : Code} {e : Reject} (hu : s.Undisturbed)
    (ht : s.cpsr.t = x.isThumb) (hf : s.Fetches (x.bytes s.platform.bigEndian))
    (he : decode x = .error e) : step s = .refused (rejectRefusal e) :=
  step_fetch_rejected hu (State.fetch_of_fetches hf) (by rw [ht, decodeBytes_bytes, he])

/-- What no well-formed instruction encodes, the decoder does not accept. -/
theorem decode_ne_ok {x : Code} (h : ∀ i : Instr, i.wellFormed = true → encode i ≠ x) (i : Instr) :
    decode x ≠ .ok i := fun hd => h i (decode_eq_ok_iff.1 hd).2 (decode_eq_ok_iff.1 hd).1

/-- Settles O6: the decoder rejects by condition or by table what is no encoding, and the step refuses it. -/
theorem wordOutsideTheSubsetIsRefused : Obligations.WordOutsideTheSubsetIsRefused := by
  intro s hu
  refine ⟨fun w ht hf => ⟨fun hc => ?_, fun hc hn => ?_⟩, fun h ht hf hn => ?_⟩
  · exact step_fetch_code_rejected (x := .arm w) hu ht hf (decodeArm_conditionNV hc)
  · have he := decodeArm_error (w := w) (decode_ne_ok hn)
    rw [if_neg hc] at he
    exact step_fetch_code_rejected (x := .arm w) hu ht hf he
  · exact step_fetch_code_rejected (x := .thumb h) hu ht hf (decodeThumb_error (decode_ne_ok hn))

/-! ### The condition guard (30_encoding R85) -/

/-- Every ARM instruction is guarded by its condition (30_encoding R85). -/
theorem exec_eq_whenCond {i : Instr} {c : Cond} (s : State) (h : i.cond? = some c) :
    ∃ body, exec i s = s.whenCond c body := by
  cases i with
  | tBx | tAddHi | tCmpHi | tMovHi | tSwi | tUndef | tBcond | tBlFirst | tBlSecond => cases h
  | _ =>
    cases h
    exact ⟨_, rfl⟩

/-- Settles O17: the guard of a failed condition is the advance. -/
theorem failedConditionOnlyAdvances : Obligations.FailedConditionOnlyAdvances := by
  intro s i c ht hi hc
  obtain ⟨body, hb⟩ := exec_eq_whenCond s hi
  exact ⟨s.advance, by rw [hb, State.whenCond_fail _ hc], s.advance_onlyAdvances,
    by rw [State.advance_pc, State.instrLen_of_arm ht]⟩

/-! ### Rotated immediates (30_encoding R87) -/

/-- A bit of a rotation comes from as many places up, modulo the width. -/
theorem getLsbD_rotateRight_mod {n : Nat} {x : BitVec n} {r k : Nat} (hr : r < n) (hk : k < n) :
    (x.rotateRight r).getLsbD k = x.getLsbD ((k + r) % n) := by
  rw [BitVec.getLsbD_rotateRight, Nat.mod_eq_of_lt hr]
  by_cases h : k < n - r
  · rw [decide_eq_true h, cond_true, Nat.mod_eq_of_lt (by omega), Nat.add_comm]
  · rw [decide_eq_false h, cond_false, decide_eq_true hk, Bool.true_and,
      Nat.mod_eq_sub_mod (by omega), Nat.mod_eq_of_lt (by omega)]
    congr 1
    omega

/-- Settles O23: the zero-extended value rotated by less than its width. -/
theorem rotatedImmediateBits : Obligations.RotatedImmediateBits := by
  intro rotate imm8 k hk
  have hr : 2 * rotate.toNat < 32 := by have := rotate.isLt; omega
  rw [rotatedImm, getLsbD_rotateRight_mod hr hk, BitVec.getLsbD_setWidth,
    decide_eq_true (Nat.mod_lt _ (by decide)), Bool.true_and]

/-! ### The flags of CMP (41_data_processing R126, R130) -/

/-- The sign of a difference is wrong exactly on overflow, so set against V it says which of the signed numbers is
less. -/
theorem msb_bne_subOverflow (a b : Word) :
    ((a - b).msb != subOverflow a b) = decide (a.toInt < b.toInt) := by
  have hs := BitVec.toNat_sub a b
  simp only [subOverflow, BitVec.msb_eq_decide, BitVec.toInt_eq_toNat_cond]
  have := a.isLt
  have := b.isLt
  grind

section
variable (p : Psr) (a b : Word)

/-- Z says that the operands are equal. -/
theorem withSub_z : (p.withSub a b).z = decide (a = b) := by
  rw [Bool.eq_iff_iff, decide_eq_true_iff]
  exact beq_iff_eq.trans sub_eq_zero

/-- C says that no borrow occurred. -/
theorem withSub_c : (p.withSub a b).c = decide (b.toNat ≤ a.toNat) := rfl

/-- N differs from V exactly when the first operand is less, as signed numbers. -/
theorem withSub_n_bne_v : ((p.withSub a b).n != (p.withSub a b).v) = decide (a.toInt < b.toInt) :=
  msb_bne_subOverflow a b

/-- N equals V exactly when the first operand is not less, as signed numbers. -/
theorem withSub_n_beq_v : ((p.withSub a b).n == (p.withSub a b).v) = decide (b.toInt ≤ a.toInt) := by
  rw [← Bool.not_not (_ == _), ← bne, withSub_n_bne_v, ← decide_not, decide_eq_decide, not_lt]

end

/-- Settles O16: Z, C and N against V are comparisons, and every condition is made of these. -/
theorem conditionsAfterCmpAreComparisons : Obligations.ConditionsAfterCmpAreComparisons := by
  intro s rn rm _
  refine ⟨_, rfl, ?_⟩
  simp only [State.advance_cpsr, State.setCpsr_cpsr]
  generalize s.readReg rn = a
  generalize s.readReg rm = b
  have hnat : a = b ↔ a.toNat = b.toNat := BitVec.toNat_inj.symm
  have hint : a.toNat = b.toNat ↔ a.toInt = b.toInt := hnat.symm.trans BitVec.toInt_inj.symm
  simp only [condPassed, withSub_z, withSub_c, withSub_n_bne_v, withSub_n_beq_v, ← decide_not,
    ← Bool.decide_and, ← Bool.decide_or, decide_eq_decide, hnat, ne_eq]
  grind

end Machine
end Sys2Proof

end

section
/-! The statements about branches (40_branch_and_exchange): B and BL, BX in both states, the THUMB conditional
branch, the two halves of the THUMB BL and the return from it. -/

namespace Sys2Proof.Machine

/-! ### Branch targets as integers (30_encoding R87, R88) -/

/-- A sign-extended offset, shifted and added, is the sum of the integers modulo 2^32. -/
theorem add_signExtend_shiftLeft {n : Nat} (a : Word) (k j : Nat) (off : BitVec n) :
    a + BitVec.ofNat 32 k + (off.signExtend 32 <<< j) =
      BitVec.ofInt 32 (a.toInt + (k : Int) + ((2 ^ j : Nat) : Int) * off.toInt) := by
  have hj : BitVec.twoPow 32 j = BitVec.ofNat 32 (2 ^ j) := BitVec.eq_of_toNat_eq (by simp)
  rw [BitVec.ofInt_add, BitVec.ofInt_add, BitVec.ofInt_mul, BitVec.ofInt_toInt, BitVec.ofInt_natCast,
    BitVec.ofInt_natCast, BitVec.shiftLeft_eq_mul_twoPow, hj, BitVec.mul_comm, BitVec.signExtend]

theorem branchTarget_eq (a : Word) (off : BitVec 24) :
    branchTarget a off = BitVec.ofInt 32 (a.toInt + 8 + 4 * off.toInt) :=
  add_signExtend_shiftLeft a 8 2 off

theorem thumbBranchTarget_eq (a : Word) (off : BitVec 8) :
    thumbBranchTarget a off = BitVec.ofInt 32 (a.toInt + 4 + 2 * off.toInt) :=
  add_signExtend_shiftLeft a 4 1 off

theorem thumbLinkHigh_eq (a : Word) (hi : BitVec 11) :
    thumbLinkHigh a hi = BitVec.ofInt 32 (a.toInt + 4 + 4096 * hi.toInt) :=
  add_signExtend_shiftLeft a 4 12 hi

theorem thumbLinkHigh_mod2 (a : Word) (hi : BitVec 11) :
    (thumbLinkHigh a hi).toNat % 2 = a.toNat % 2 := by
  simp only [thumbLinkHigh, BitVec.toNat_add, BitVec.toNat_shiftLeft, Nat.shiftLeft_eq,
    BitVec.toNat_ofNat]
  omega

theorem thumbLinkTarget_eq (link : Word) (lo : BitVec 11) :
    thumbLinkTarget link lo = link + BitVec.ofNat 32 (2 * lo.toNat) := by
  have h : lo.setWidth 32 <<< 1 = BitVec.ofNat 32 (2 * lo.toNat) := by
    rw [BitVec.shiftLeft_eq_mul_twoPow, Nat.mul_comm, BitVec.ofNat_mul, BitVec.ofNat_toNat]
    rfl
  rw [thumbLinkTarget, h]

/-- The offset of the second halfword is even, so the target is odd exactly if R14 is. -/
theorem thumbLinkTarget_getLsbD_zero (link : Word) (lo : BitVec 11) :
    (thumbLinkTarget link lo).getLsbD 0 = link.getLsbD 0 := by
  rw [Bool.eq_iff_iff, getLsbD_zero_iff, getLsbD_zero_iff, thumbLinkTarget_eq, BitVec.toNat_add,
    BitVec.toNat_ofNat]
  omega

/-- The halves of the THUMB BL make one signed 22-bit offset, of which the first is the high part. -/
theorem thumbLinkTarget_thumbLinkHigh (a : Word) (hi lo : BitVec 11) :
    thumbLinkTarget (thumbLinkHigh a hi) lo =
      BitVec.ofInt 32 (a.toInt + 4 + 2 * (hi ++ lo).toInt) := by
  have happ : (hi ++ lo).toInt = 2048 * hi.toInt + lo.toNat := BitVec.toInt_append
  rw [thumbLinkTarget_eq, thumbLinkHigh_eq, ← BitVec.ofInt_natCast, ← BitVec.ofInt_add, happ]
  congr 1
  push_cast
  ring

/-! ### Bit 0 of an address (40_branch_and_exchange R113, R116) -/

/-- Bit 0 of an odd word cleared is one less. -/
theorem clearBit0_of_odd {v : Word} (h : v.getLsbD 0 = true) :
    (v &&& 0xFFFFFFFE#32).toNat = v.toNat - 1 := by
  rw [getLsbD_zero_iff] at h
  rw [clearBit0_toNat]
  omega

/-- Bit 0 of an even word set is one more. -/
theorem or_one_of_even {v : Word} (h : v.toNat % 2 = 0) : v ||| 1#32 = v + 1#32 := by
  have h0 : v.getLsbD 0 = false := by
    rw [← Bool.not_eq_true, getLsbD_zero_iff]; omega
  refine (BitVec.add_eq_or_of_and_eq_zero v 1#32 ?_).symm
  rw [BitVec.and_one_eq_setWidth_ofBool_getLsbD, h0]
  rfl

/-- Setting bit 0 of an even word and clearing it again gives the word back. -/
theorem clearBit0_add_one {v : Word} (h : v.toNat % 2 = 0) : (v + 1#32) &&& 0xFFFFFFFE#32 = v := by
  apply BitVec.eq_of_toNat_eq
  rw [clearBit0_toNat, BitVec.toNat_add, BitVec.toNat_ofNat]
  omega

/-! ### Frames of a link -/

/-- A write of the pc keeps whatever was kept before it. -/
theorem State.Keeps.setPc {s t : State} {l : List PhysReg} (h : s.Keeps t l) (a : Word) :
    s.Keeps (t.setPc a) l := ⟨h.regs, h.spsr, h.mem, h.stored, h.platform, h.inputs⟩

/-- The advance keeps whatever was kept before it. -/
theorem State.Keeps.advance {s t : State} {l : List PhysReg} (h : s.Keeps t l) :
    s.Keeps t.advance l := ⟨h.regs, h.spsr, h.mem, h.stored, h.platform, h.inputs⟩

/-- The register written holds the value. -/
theorem State.writeReg_get_self (s : State) {r : RegNum} (v : Word) (h : r ≠ 15#4) :
    (s.writeReg r v).regs.get (physOf s.bank r) = v := by
  rw [State.writeReg_get s v h, if_pos rfl]

/-- A branch with link: the pc and R14 of the current mode are written and nothing else. -/
theorem State.writeLink_setPc (s : State) (link a : Word) :
    ((s.writeReg 14#4 link).setPc a).Lands a ∧
      ((s.writeReg 14#4 link).setPc a).regs.get (physOf s.bank 14#4) = link ∧
      s.Keeps ((s.writeReg 14#4 link).setPc a) [physOf s.bank 14#4] ∧
      ((s.writeReg 14#4 link).setPc a).cpsr = s.cpsr ∧
      ((s.writeReg 14#4 link).setPc a).draws = s.draws :=
  ⟨State.setPc_lands _ a, s.writeReg_get_self link (by decide),
    (s.writeReg_keeps link (by decide)).setPc a, by simp, by simp⟩

/-! ### B and BL (40_branch_and_exchange R110, R111) -/

/-- Settles O26: both branch to the same target, by the integer value of the offset. -/
theorem branchesReachTheirTargets : Obligations.BranchesReachTheirTargets := by
  intro s c off _ hc
  rw [← branchTarget_eq]
  exact ⟨⟨_, State.whenCond_pass _ hc, s.setPc_onlyBranches _⟩,
    ⟨_, State.whenCond_pass _ hc, s.writeLink_setPc _ _⟩⟩

/-! ### BX (40_branch_and_exchange R112, R113) -/

/-- The exchange to an odd operand enters THUMB state. -/
theorem State.exchange_thumb {s : State} {v : Word} (h : v.getLsbD 0 = true) :
    s.exchange v = .next ((s.setCpsr { s.cpsr with t := true }).setPc (v &&& 0xFFFFFFFE#32)) :=
  if_pos h

/-- The exchange to an operand with bits [1:0] = 10 is refused. -/
theorem State.exchange_refused {s : State} {v : Word} (h0 : ¬ v.getLsbD 0 = true)
    (h1 : v.getLsbD 1 = true) : s.exchange v = .refused .armTargetNotAligned :=
  (if_neg h0).trans (if_pos h1)

/-- The exchange to a word-aligned operand enters ARM state. -/
theorem State.exchange_arm {s : State} {v : Word} (h0 : ¬ v.getLsbD 0 = true)
    (h1 : ¬ v.getLsbD 1 = true) :
    s.exchange v = .next ((s.setCpsr { s.cpsr with t := false }).setPc v) :=
  (if_neg h0).trans (if_neg h1)

/-- A write of the CPSR keeps the rest of the state. -/
theorem State.setCpsr_keeps (s : State) (p : Psr) : s.Keeps (s.setCpsr p) [] :=
  ⟨fun _ _ => rfl, rfl, fun _ => rfl, rfl, rfl, rfl⟩

/-- BX of either state is the exchange, but for R15 in ARM state, which is refused. -/
theorem exec_bx {s : State} {i : Instr} {r : RegNum}
    (hi : (∃ c, i = .bx c r ∧ s.cpsr.t = false ∧ condPassed s.cpsr c = true) ∨
      (i = .tBx r ∧ s.cpsr.t = true)) :
    exec i s = if s.cpsr.t = false ∧ r = 15#4 then .refused .bxR15 else s.exchange (s.readReg r) := by
  obtain ⟨c, rfl, ht, hc⟩ | ⟨rfl, ht⟩ := hi
  · simp only [ht, true_and]
    exact State.whenCond_pass _ hc
  · rw [if_neg (by simp [ht])]
    rfl

/-- Settles O27: BX is the exchange, which splits on the two low bits of its operand. -/
theorem exchangeFollowsOperandBits : Obligations.ExchangeFollowsOperandBits := by
  intro s i r hi
  have hrun := exec_bx hi
  split_ifs at hrun ⊢ with hr h0 h1
  · exact hrun
  · exact ⟨_, hrun.trans (State.exchange_thumb h0), (s.setCpsr_keeps _).setPc _, rfl,
      clearBit0_of_odd h0, rfl, rfl⟩
  · exact hrun.trans (State.exchange_refused h0 h1)
  · exact ⟨_, hrun.trans (State.exchange_arm h0 h1), (s.setCpsr_keeps _).setPc _, rfl,
      State.setPc_lands _ _, rfl⟩

/-! ### THUMB B<cond> (40_branch_and_exchange R114) -/

/-- Settles O28: the branch or the advance, by the condition. -/
theorem thumbConditionalBranch : Obligations.ThumbConditionalBranch := by
  intro s c off ht
  rw [← thumbBranchTarget_eq]
  by_cases hc : condPassed s.cpsr c = true
  · refine ⟨_, if_pos hc, ?_⟩
    simpa only [if_pos hc] using s.setPc_onlyBranches _
  · refine ⟨_, if_neg hc, ?_⟩
    have hpc : s.advance.pc = s.pc + 2#32 := by rw [State.advance_pc, State.instrLen_of_thumb ht]
    simpa only [if_neg hc] using ⟨s.advance_onlyAdvances, hpc⟩

/-! ### The THUMB BL (40_branch_and_exchange R115, R116) -/

/-- The second halfword is refused if R14 is odd. -/
theorem exec_tBlSecond_odd {s : State} (lo : BitVec 11)
    (h : (s.regs.get (physOf s.bank 14#4)).getLsbD 0 = true) :
    exec (.tBlSecond lo) s = .refused .thumbTargetNotAligned :=
  if_pos ((thumbLinkTarget_getLsbD_zero (s.readReg 14#4) lo).trans h)

/-- The second halfword is a branch with link if R14 is even. -/
theorem exec_tBlSecond_even {s : State} (lo : BitVec 11)
    (h : ¬ (s.regs.get (physOf s.bank 14#4)).getLsbD 0 = true) :
    RunsTo (.tBlSecond lo) s fun t =>
      t.Lands (thumbLinkTarget (s.regs.get (physOf s.bank 14#4)) lo) ∧
      t.regs.get (physOf s.bank 14#4) = (s.pc + 2#32) ||| 1#32 ∧
      s.Keeps t [physOf s.bank 14#4] ∧ t.cpsr = s.cpsr ∧ t.draws = s.draws :=
  ⟨_, if_neg fun ht => h ((thumbLinkTarget_getLsbD_zero (s.readReg 14#4) lo).symm.trans ht),
    s.writeLink_setPc _ _⟩

/-- Settles O30: the target is odd exactly if R14 is. -/
theorem thumbLongBranchSecondHalf : Obligations.ThumbLongBranchSecondHalf := by
  intro s lo _
  split_ifs with h
  · exact exec_tBlSecond_odd lo h
  · rw [← thumbLinkTarget_eq]
    exact exec_tBlSecond_even lo h

/-- The first halfword writes R14 and advances. -/
theorem exec_tBlFirst {s : State} (hi : BitVec 11) (ht : s.cpsr.t = true) :
    RunsTo (.tBlFirst hi) s fun t => s.Advances t 2#32 ∧
      t.regs.get (physOf s.bank 14#4) = thumbLinkHigh s.pc hi ∧
      s.Keeps t [physOf s.bank 14#4] ∧ t.cpsr = s.cpsr := by
  have hne : 14#4 ≠ 15#4 := by decide
  have hadv := State.advance_advances (s.writeReg_pc_of_ne (thumbLinkHigh s.pc hi) hne)
    (congrArg Psr.t (s.writeReg_cpsr 14#4 _))
  rw [State.instrLen_of_thumb ht] at hadv
  exact ⟨_, rfl, hadv, s.writeReg_get_self _ hne, (s.writeReg_keeps _ hne).advance, by simp⟩

theorem add_four_even {a : Word} (h : a.toNat % 2 = 0) : (a + 4#32).toNat % 2 = 0 := by
  rw [BitVec.toNat_add, BitVec.toNat_ofNat]
  omega

/-- The link value of the pair: the address after it with bit 0 set. -/
theorem thumbLink_eq {a : Word} (h : a.toNat % 2 = 0) : (a + 2#32 + 2#32) ||| 1#32 = a + 5#32 := by
  have hsum : a + 2#32 + 2#32 = a + 4#32 := BitVec.add_assoc a 2#32 2#32
  rw [hsum, or_one_of_even (add_four_even h), BitVec.add_assoc]
  rfl

/-- The link value of the pair with bit 0 cleared: the address after it. -/
theorem clearBit0_thumbLink {a : Word} (h : a.toNat % 2 = 0) :
    (a + 5#32) &&& 0xFFFFFFFE#32 = a + 4#32 := by
  rw [← clearBit0_add_one (add_four_even h), BitVec.add_assoc]
  rfl

/-- MOV PC, LR in THUMB state goes to R14 with bit 0 cleared (41_data_processing R142). -/
theorem exec_tMovHi_pc_lr (s : State) :
    exec (.tMovHi 15#4 14#4) s =
      .next (s.setPc (s.regs.get (physOf s.bank 14#4) &&& 0xFFFFFFFE#32)) := rfl

/-- Settles O29: the second half runs on what the first leaves, with R14 as even as the address is. -/
theorem thumbLongBranchCallsAndReturns : Obligations.ThumbLongBranchCallsAndReturns := by
  intro s hi lo hthumb heven
  obtain ⟨t, ht, htpc, htlink, htkeeps, htcpsr⟩ := exec_tBlFirst hi hthumb
  have htbank : t.bank = s.bank := State.bank_congr htcpsr
  have hlow : ¬ (t.regs.get (physOf t.bank 14#4)).getLsbD 0 = true := by
    rw [htbank, htlink, getLsbD_zero_iff, thumbLinkHigh_mod2]
    omega
  obtain ⟨u, hu, hupc, hulink, hukeeps, hucpsr, -⟩ := exec_tBlSecond_even lo hlow
  rw [htbank, htlink, thumbLinkTarget_thumbLinkHigh] at hupc
  rw [htbank, htpc.pc, thumbLink_eq heven] at hulink
  rw [htbank] at hukeeps
  have hv := exec_tMovHi_pc_lr u
  rw [State.bank_congr hucpsr, htbank, hulink, clearBit0_thumbLink heven] at hv
  exact ⟨t, u, _, ht, htpc, thumbLinkHigh_eq s.pc hi ▸ htlink, htkeeps, htcpsr, hu, hupc,
    hulink, htkeeps.trans hukeeps, hucpsr.trans htcpsr, hv, u.setPc_lands _, hucpsr.trans htcpsr⟩

end Sys2Proof.Machine
end

section
/-! The statements about data processing (41_data_processing): what the flags say, how ARM MOV, SUB, ADD and CMP
follow their rules in both operand forms, and the THUMB high-register ADD, MOV and CMP. -/

namespace Sys2Proof.Machine

/-! ### What the flags say (41_data_processing R126, R143) -/

/-- V of an addition: the exact signed sum does not fit 32 bits. -/
theorem addOverflow_eq (a b : Word) :
    addOverflow a b = decide (a.toInt + b.toInt < -(2 ^ 31) ∨ a.toInt + b.toInt ≥ 2 ^ 31) := by
  have h : addOverflow a b = a.saddOverflow b := (BitVec.saddOverflow_eq a b).symm
  rw [h, BitVec.saddOverflow, Bool.or_comm, Bool.decide_or]

/-- V of a subtraction: the exact signed difference does not fit 32 bits. -/
theorem subOverflow_eq (a b : Word) :
    subOverflow a b = decide (a.toInt - b.toInt < -(2 ^ 31) ∨ a.toInt - b.toInt ≥ 2 ^ 31) := by
  have h : subOverflow a b = a.ssubOverflow b := by
    rw [BitVec.ssubOverflow_eq, subOverflow]
    cases a.msb <;> cases b.msb <;> simp
  rw [h, BitVec.ssubOverflow, Bool.or_comm, Bool.decide_or]

/-- C of a subtraction: the difference of the unsigned numbers is the result, there is no borrow. -/
theorem subCarry_eq (a b : Word) :
    subCarry a b = decide ((a - b).toNat = a.toNat - b.toNat ∧ b.toNat ≤ a.toNat) :=
  decide_eq_decide.2 ⟨fun h => ⟨BitVec.toNat_sub_of_le h, h⟩, And.right⟩

/-- C of an addition: the unsigned sum wraps, so that the result is below the operand. -/
theorem addCarry_eq (a b : Word) : addCarry a b = decide ((a + b).toNat < a.toNat) := by
  rw [addCarry, decide_eq_decide, BitVec.toNat_add]
  omega

/-- Z of an addition says that the operands are opposite. -/
theorem withAdd_z (p : Psr) (a b : Word) : (p.withAdd a b).z = decide (a = -b) := by
  rw [Bool.eq_iff_iff, decide_eq_true_iff]
  exact beq_iff_eq.trans eq_neg_iff_add_eq_zero.symm

/-- Settles O15: each flag by the lemma that says it of the exact result. -/
theorem flagsSayWhatArithmeticDid : Obligations.FlagsSayWhatArithmeticDid := fun p a b =>
  ⟨⟨subOverflow_eq a b, BitVec.msb_eq_toInt (x := a - b), subCarry_eq a b, withSub_z p a b⟩,
    ⟨addOverflow_eq a b, BitVec.msb_eq_toInt (x := a + b), addCarry_eq a b, withAdd_z p a b⟩⟩

/-! ### The flags in the terms of the statements (41_data_processing R125 to R127) -/

/-- The sign of a word is its bit 31. -/
theorem msb_eq_getLsbD_31 (v : Word) : v.msb = v.getLsbD 31 := v.msb_eq_getLsbD_last

/-- N and Z of the model are those of the statements. -/
theorem Psr.withNZ_eq (p : Psr) (r : Word) :
    p.withNZ r = { p with n := r.getLsbD 31, z := decide (r = 0#32) } := by
  rw [Psr.withNZ, msb_eq_getLsbD_31]
  rfl

/-- The flags of MOV. -/
theorem Psr.withMov_eq (p : Psr) (r : Word) (carry : Bool) :
    p.withMov r carry = movFlags p r carry := by
  rw [Psr.withMov, Psr.withNZ_eq]
  rfl

/-- The flags of SUB and CMP. -/
theorem Psr.withSub_eq (p : Psr) (a b : Word) : p.withSub a b = subFlags p a b := by
  have hv : subOverflow a b = (subFlags p a b).v := by
    simp only [subOverflow, subFlags, msb_eq_getLsbD_31, bne, beq_eq_decide, decide_not, ne_eq]
  rw [Psr.withSub, Psr.withNZ_eq, hv]
  rfl

/-- The flags of ADD. -/
theorem Psr.withAdd_eq (p : Psr) (a b : Word) : p.withAdd a b = addFlags p a b := by
  have hv : addOverflow a b = (addFlags p a b).v := by
    simp only [addOverflow, addFlags, msb_eq_getLsbD_31, bne, beq_eq_decide, decide_not, ne_eq]
  rw [Psr.withAdd, Psr.withNZ_eq, hv]
  rfl

/-- The shifter carry-out of an immediate operand. -/
theorem immCarry_eq (p : Psr) (rotate : BitVec 4) (imm8 : BitVec 8) :
    immCarry p rotate imm8 =
      if rotate = 0#4 then p.c else (immValue rotate imm8).getLsbD 31 := by
  rw [immCarry, msb_eq_getLsbD_31]
  rfl

/-! ### How a result is written -/

/-- A write of the CPSR keeps whatever was kept before it. -/
theorem State.Keeps.setCpsr {s t : State} {l : List PhysReg} (h : s.Keeps t l) (p : Psr) :
    s.Keeps (t.setCpsr p) l := ⟨h.regs, h.spsr, h.mem, h.stored, h.platform, h.inputs⟩

/-- The CPSR written, with T as it is, and the advance. -/
theorem State.setCpsr_advance_setsCpsr (s : State) {p : Psr} (ht : p.t = s.cpsr.t) :
    s.SetsCpsr (s.setCpsr p).advance p :=
  ⟨(s.setCpsr_keeps p).advance, rfl, State.advance_advances rfl ht, rfl⟩

/-- A register other than R15 and the CPSR written, with T as it is, and the advance. -/
theorem State.writeReg_setCpsr_advance_writes (s : State) {rd : RegNum} (v : Word) {p : Psr}
    (hrd : rd ≠ 15#4) (ht : p.t = s.cpsr.t) :
    s.Writes ((s.writeReg rd v).setCpsr p).advance rd v p where
  value := s.writeReg_get_self v hrd
  keeps := ((s.writeReg_keeps v hrd).setCpsr p).advance
  cpsr := rfl
  pc := State.advance_advances (s.writeReg_pc_of_ne v hrd) ht
  draws := s.writeReg_draws rd v

/-- A register other than R15 written and the advance. -/
theorem State.writeReg_advance_writes (s : State) {rd : RegNum} (v : Word) (hrd : rd ≠ 15#4) :
    s.Writes (s.writeReg rd v).advance rd v s.cpsr := by
  have h : (s.writeReg rd v).setCpsr s.cpsr = s.writeReg rd v :=
    congrArg (State.setCpsr _) (s.writeReg_cpsr rd v).symm
  rw [← h]
  exact s.writeReg_setCpsr_advance_writes v hrd rfl

/-! ### The rule shared by MOV, SUB and ADD (41_data_processing R127 to R132) -/

/-- A return to an address aligned for the restored state restores the CPSR, goes there and keeps the rest. -/
theorem runsTo_of_exec_exceptionReturn {i : Instr} {s : State} {r : Word} {e : ExcMode}
    (h : exec i s = s.exceptionReturn r) (hb : s.bank = some e) (hm : modeOf (s.spsr.get e).m ≠ none)
    (ha : r.toNat % (if (s.spsr.get e).t then 2 else 4) = 0) :
    RunsTo i s fun t => s.Keeps t [] ∧ t.cpsr = s.spsr.get e ∧ t.Lands r ∧ t.draws = s.draws :=
  ⟨_, h.trans (State.exceptionReturn_done hb hm ha), (s.setCpsr_keeps _).setPc r, rfl,
    State.setPc_lands _ r, rfl⟩

/-- An instruction that returns from an exception follows the rule of the return (R132). -/
theorem returnRule_of_exec {i : Instr} {s : State} {r : Word} (h : exec i s = s.exceptionReturn r) :
    ReturnRule i s r := by
  refine ⟨fun hb => h.trans (State.exceptionReturn_noSpsr r hb), fun e hb =>
    ⟨fun hm => ?_, fun hm ht => ?_, fun hm ht => ?_⟩⟩
  · exact ⟨_, h.trans (State.exceptionReturn_stuck r hb hm), (State.stuck_iff _).2 hm⟩
  · split_ifs with ha
    · exact runsTo_of_exec_exceptionReturn h hb hm (by simpa [ht] using ha)
    · exact h.trans (State.exceptionReturn_arm_misaligned hb hm ht ha)
  · split_ifs with ha
    · exact runsTo_of_exec_exceptionReturn h hb hm (by simpa [ht] using ha)
    · exact h.trans (State.exceptionReturn_thumb_misaligned hb hm ht ha)

/-- An instruction that writes its result under its condition follows the rule of MOV, SUB and ADD. -/
theorem aluRule_of_exec {i : Instr} {s : State} {c : Cond} {S : Bool} {rd : RegNum} {r : Word} {p : Psr}
    (h : exec i s = s.whenCond c (s.writeResult S rd r p)) (ht : p.t = s.cpsr.t) :
    AluRule i s c S rd r p := by
  refine ⟨fun hc => ?_, fun hc hrd => ?_, fun hc hrd hS => ?_, fun hc hrd hS => ?_⟩
  · exact ⟨_, h.trans (State.whenCond_fail _ hc), s.advance_onlyAdvances⟩
  all_goals rw [State.whenCond_pass _ hc] at h
  · have htS : (if S then p else s.cpsr).t = s.cpsr.t := by split_ifs; exacts [ht, rfl]
    exact ⟨_, h.trans (State.writeResult_reg s S r p hrd),
      s.writeReg_setCpsr_advance_writes r hrd htS⟩
  all_goals
    subst hrd hS
    rw [State.writeResult_r15] at h
  · split_ifs with ha
    · exact ⟨_, h.trans (State.branchArm_aligned s ha), s.setPc_onlyBranches r⟩
    · exact h.trans (State.branchArm_misaligned s ha)
  · exact returnRule_of_exec h

/-- Settles O18: both operand forms end in the write of the result, with the flags of MOV. -/
theorem movFollowsItsRule : Obligations.MovFollowsItsRule := by
  intro s c S rd rm rotate imm8 _
  rw [← immCarry_eq, ← Psr.withMov_eq, ← Psr.withMov_eq]
  exact ⟨aluRule_of_exec rfl rfl, aluRule_of_exec rfl rfl⟩

/-- Settles O19: both operand forms end in the write of the difference, with the flags of SUB. -/
theorem subFollowsItsRule : Obligations.SubFollowsItsRule := by
  intro s c S rn rd rm rotate imm8 _
  rw [← Psr.withSub_eq, ← Psr.withSub_eq]
  exact ⟨aluRule_of_exec rfl rfl, aluRule_of_exec rfl rfl⟩

/-- Settles O20: both operand forms end in the write of the sum, with the flags of ADD. -/
theorem addFollowsItsRule : Obligations.AddFollowsItsRule := by
  intro s c S rn rd rm rotate imm8 _
  rw [← Psr.withAdd_eq, ← Psr.withAdd_eq]
  exact ⟨aluRule_of_exec rfl rfl, aluRule_of_exec rfl rfl⟩

/-! ### CMP (41_data_processing R130, R141) -/

/-- An instruction that compares sets the flags of the subtraction and writes no register. -/
theorem runsTo_of_exec_compare {i : Instr} {s : State} {a b : Word} (h : exec i s = s.compare a b) :
    RunsTo i s fun t => s.SetsCpsr t (subFlags s.cpsr a b) :=
  ⟨_, h, Psr.withSub_eq s.cpsr a b ▸ s.setCpsr_advance_setsCpsr rfl⟩

/-- Settles O21: the comparison or the advance, by the condition. -/
theorem cmpFollowsItsRule : Obligations.CmpFollowsItsRule := by
  intro s c rn rm rotate imm8 _
  split_ifs with hc
  · exact ⟨runsTo_of_exec_compare (State.whenCond_pass _ hc),
      runsTo_of_exec_compare (State.whenCond_pass _ hc)⟩
  · have hf := Bool.eq_false_iff.2 hc
    exact ⟨⟨_, State.whenCond_fail _ hf, s.advance_onlyAdvances⟩,
      ⟨_, State.whenCond_fail _ hf, s.advance_onlyAdvances⟩⟩

/-! ### The THUMB high-register forms (41_data_processing R140 to R142) -/

/-- Bit 0 cleared is twice the half. -/
theorem two_mul_shiftRight_one (v : Word) : 2#32 * (v >>> 1) = v &&& 0xFFFFFFFE#32 := by
  apply BitVec.eq_of_toNat_eq
  rw [clearBit0_toNat, BitVec.toNat_mul, BitVec.toNat_ushiftRight, BitVec.toNat_ofNat,
    Nat.shiftRight_eq_div_pow]
  have := v.isLt
  omega

/-- The high-register ADD and MOV to R15 branch to the result with bit 0 cleared. -/
theorem runsTo_of_exec_writeHigh_r15 {i : Instr} {s : State} {r : Word}
    (h : exec i s = s.writeHigh 15#4 r) :
    RunsTo i s fun t => s.OnlyBranches t (2#32 * (r >>> 1)) :=
  ⟨_, h, two_mul_shiftRight_one r ▸ s.setPc_onlyBranches _⟩

/-- The high-register ADD and MOV to another register write it and go on by 2. -/
theorem runsTo_of_exec_writeHigh {i : Instr} {s : State} {rd : RegNum} {r : Word}
    (h : exec i s = s.writeHigh rd r) (hrd : rd ≠ 15#4) (ht : s.cpsr.t = true) :
    RunsTo i s fun t => s.Writes t rd r s.cpsr ∧ t.pc = s.pc + 2#32 := by
  have hw := s.writeReg_advance_writes r hrd
  exact ⟨_, h.trans (if_neg hrd), hw, State.instrLen_of_thumb ht ▸ hw.pc.pc⟩

/-- Settles O24: both end in the write of a high register, which splits on R15. -/
theorem thumbHighAddAndMovFollowTheirRules : Obligations.ThumbHighAddAndMovFollowTheirRules := by
  intro s rd rs ht
  split_ifs with hrd
  · subst hrd
    exact ⟨runsTo_of_exec_writeHigh_r15 rfl, runsTo_of_exec_writeHigh_r15 rfl⟩
  · exact ⟨runsTo_of_exec_writeHigh rfl hrd ht, runsTo_of_exec_writeHigh rfl hrd ht⟩

/-- Settles O25: the refusal of R15, or the comparison, which goes on by 2. -/
theorem thumbHighCmpFollowsItsRule : Obligations.ThumbHighCmpFollowsItsRule := by
  intro s rd rs ht
  split_ifs with hrd
  · exact if_pos hrd
  · obtain ⟨t, hrun, hset⟩ := runsTo_of_exec_compare (i := .tCmpHi rd rs) (if_neg hrd)
    exact ⟨t, hrun, hset, State.instrLen_of_thumb ht ▸ hset.pc.pc⟩

end Sys2Proof.Machine
end

section
/-! The statements about the transfers of status registers (42_psr_transfer): MRS, MSR to the CPSR, MSR to the
SPSR of the current mode. -/

namespace Sys2Proof.Machine

/-! ### MRS (42_psr_transfer R150) -/

/-- A draw of a free value keeps whatever was kept before it. -/
theorem State.Keeps.drawn {s t : State} {l : List PhysReg} (h : s.Keeps t l) :
    s.Keeps t.drawn l := ⟨h.regs, h.spsr, h.mem, h.stored, h.platform, h.inputs⟩

section
variable {s : State} {c : Cond} (sel : PsrSel)

/-- MRS to R15 is refused. -/
theorem exec_mrs_r15 (hc : condPassed s.cpsr c = true) :
    exec (.mrs c sel 15#4) s = .refused .mrsToR15 :=
  State.whenCond_pass _ hc

/-- MRS of an SPSR is refused where the mode has none. -/
theorem exec_mrs_noSpsr {rd : RegNum} (hc : condPassed s.cpsr c = true) (hrd : rd ≠ 15#4)
    (hb : s.bank = none) : exec (.mrs c .spsr rd) s = .refused .noSpsr := by
  have hp : s.selectedPsr .spsr = none := by rw [State.selectedPsr, hb]; rfl
  refine (State.whenCond_pass _ hc).trans ((if_neg hrd).trans ?_)
  rw [hp]

/-- MRS of a PSR that the mode has writes its word, with a free value in bits 27:8, and advances. -/
theorem exec_mrs {rd : RegNum} {p : Psr} (hc : condPassed s.cpsr c = true) (hrd : rd ≠ 15#4)
    (hp : s.selectedPsr sel = some p) : exec (.mrs c sel rd) s =
      .next (s.writeReg rd (p.toWord (Config.freeReserved s.draws))).drawn.advance := by
  refine (State.whenCond_pass _ hc).trans ((if_neg hrd).trans ?_)
  rw [hp]

/-- MRS of a PSR that the mode has: the fields of the word written are that PSR, and nothing else changes. -/
theorem runsTo_mrs {rd : RegNum} {p : Psr} (ht : s.cpsr.t = false) (hc : condPassed s.cpsr c = true)
    (hrd : rd ≠ 15#4) (hp : s.selectedPsr sel = some p) :
    RunsTo (.mrs c sel rd) s fun t =>
      s.Keeps t [physOf s.bank rd] ∧ t.cpsr = s.cpsr ∧ s.Advances t 4#32 ∧
      Psr.ofWord (t.regs.get (physOf s.bank rd)) = p := by
  refine ⟨_, exec_mrs sel hc hrd hp, (s.writeReg_keeps _ hrd).drawn.advance, s.writeReg_cpsr rd _,
    ?_, ?_⟩
  · rw [← State.instrLen_of_arm ht]
    exact State.advance_advances (s.writeReg_pc_of_ne _ hrd) (congrArg Psr.t (s.writeReg_cpsr rd _))
  · exact (congrArg Psr.ofWord (s.writeReg_get_self _ hrd)).trans (p.ofWord_toWord _)

end

/-- Settles O31: the PSR named is the CPSR, or the SPSR of the bank if there is one. -/
theorem mrsFollowsItsRule : Obligations.MrsFollowsItsRule := by
  intro s c sel rd ht hc
  split_ifs with hrd
  · subst hrd
    exact exec_mrs_r15 sel hc
  · split
    next hb => exact exec_mrs_noSpsr hc hrd hb
    next => exact runsTo_mrs .cpsr ht hc hrd rfl
    next e hb => exact runsTo_mrs .spsr ht hc hrd (congrArg (Option.map s.spsr.get) hb)

/-! ### MSR (42_psr_transfer R151 to R153) -/

/-- The instruction is MSR in one of its operand forms, with `w` as the operand. -/
def IsMsr (s : State) (i : Instr) (c : Cond) (sel : PsrSel) (mask : BitVec 4) (w : Word) : Prop :=
  (∃ rm, i = .msrReg c sel mask rm ∧ w = s.readReg rm) ∨
    ∃ rotate imm8, i = .msrImm c sel mask rotate imm8 ∧ w = immValue rotate imm8

/-- MSR of either operand form is the write of the PSR, but for R15 as source, which is refused. -/
theorem exec_msr {s : State} {i : Instr} {c : Cond} {sel : PsrSel} {mask : BitVec 4} {w : Word}
    (hc : condPassed s.cpsr c = true) (hi : IsMsr s i c sel mask w) :
    exec i s = if i = .msrReg c sel mask 15#4 then .refused .msrFromR15 else s.writePsr sel mask w := by
  obtain ⟨rm, rfl, rfl⟩ | ⟨rotate, imm8, rfl, rfl⟩ := hi
  · simp only [Instr.msrReg.injEq, true_and]
    exact State.whenCond_pass _ hc
  · rw [if_neg Instr.noConfusion]
    exact State.whenCond_pass _ hc

/-- The flags field of the model is that of the statements. -/
theorem Psr.maskedFlags_eq (p : Psr) (mask : BitVec 4) (w : Word) :
    p.maskedFlags mask w = flagsFrom p mask w := rfl

/-! ### The write of the CPSR (42_psr_transfer R153 to R155) -/

/-- The seven values of 10_state R35 are those that name a mode. -/
theorem mem_modeBits_iff {b : BitVec 5} :
    b ∈ [0b10000#5, 0b10001#5, 0b10010#5, 0b10011#5, 0b10111#5, 0b11011#5, 0b11111#5] ↔
      modeOf b ≠ none := by
  revert b
  decide

section
variable {s : State} {mask : BitVec 4} {w : Word}

/-- Without the control field, or in User mode, the flags alone are written. -/
theorem State.writeCpsr_flags (h : ¬ (mask.getLsbD 0 = true ∧ s.cpsr.m ≠ 0b10000#5)) :
    s.writeCpsr mask w = .next (s.setCpsr (flagsFrom s.cpsr mask w)).advance := by
  rw [← State.privileged_iff, ← Bool.and_eq_true] at h
  rw [← Psr.maskedFlags_eq]
  exact if_neg h

/-- The control field in a privileged mode: a change of T is refused. -/
theorem State.writeCpsr_changesT (h : mask.getLsbD 0 = true ∧ s.cpsr.m ≠ 0b10000#5)
    (ht : w.getLsbD 5 ≠ s.cpsr.t) : s.writeCpsr mask w = .refused .softwareChangeOfT := by
  rw [← State.privileged_iff, ← Bool.and_eq_true] at h
  exact (if_pos h).trans (if_pos (bne_iff_ne.2 ht))

/-- The control field in a privileged mode, with T as it is and an illegal mode, which sticks. -/
theorem State.writeCpsr_illegal (h : mask.getLsbD 0 = true ∧ s.cpsr.m ≠ 0b10000#5)
    (ht : w.getLsbD 5 = s.cpsr.t) (hm : modeOf (w.extractLsb' 0 5) = none) :
    s.writeCpsr mask w =
      .next (s.setCpsr { flagsFrom s.cpsr mask w with m := w.extractLsb' 0 5 }) := by
  rw [← State.privileged_iff, ← Bool.and_eq_true] at h
  rw [← Psr.maskedFlags_eq]
  exact (if_pos h).trans ((if_neg (mt bne_iff_ne.1 (not_not.2 ht))).trans
    (if_pos (Option.isNone_iff_eq_none.2 hm)))

/-- The control field in a privileged mode, with T as it is and a legal mode: I, F and M are written. -/
theorem State.writeCpsr_legal (h : mask.getLsbD 0 = true ∧ s.cpsr.m ≠ 0b10000#5)
    (ht : w.getLsbD 5 = s.cpsr.t) (hm : modeOf (w.extractLsb' 0 5) ≠ none) :
    s.writeCpsr mask w = .next (s.setCpsr { flagsFrom s.cpsr mask w with
      i := w.getLsbD 7, f := w.getLsbD 6, m := w.extractLsb' 0 5 }).advance := by
  rw [← State.privileged_iff, ← Bool.and_eq_true] at h
  rw [← Psr.maskedFlags_eq]
  exact (if_pos h).trans ((if_neg (mt bne_iff_ne.1 (not_not.2 ht))).trans
    (if_neg (mt Option.isNone_iff_eq_none.1 hm)))

end

/-- The flags field leaves T alone. -/
theorem flagsFrom_t (p : Psr) (mask : BitVec 4) (w : Word) : (flagsFrom p mask w).t = p.t := by
  obtain ⟨-, -, ht, -⟩ := Psr.maskedFlags_ift p mask w
  rw [← Psr.maskedFlags_eq, ht]

/-- Settles O32: the write of the CPSR, by the fields it writes and the checks of the control field. -/
theorem msrToCpsrFollowsItsRule : Obligations.MsrToCpsrFollowsItsRule := by
  intro s i c mask w ht hc hi
  split_ifs with hr15 hctl h5 hm
  · exact (exec_msr hc hi).trans (if_pos hr15)
  all_goals have hrun : exec i s = s.writeCpsr mask w := (exec_msr hc hi).trans (if_neg hr15)
  · exact hrun.trans (State.writeCpsr_changesT hctl (by rw [h5, ht]; decide))
  · have hT : w.getLsbD 5 = s.cpsr.t := by rw [ht, eq_false_of_ne_true h5]
    exact ⟨_, hrun.trans (State.writeCpsr_legal hctl hT (mem_modeBits_iff.1 hm)),
      s.setCpsr_advance_setsCpsr (flagsFrom_t _ _ _)⟩
  · have hT : w.getLsbD 5 = s.cpsr.t := by rw [ht, eq_false_of_ne_true h5]
    have hnone : modeOf (w.extractLsb' 0 5) = none := not_not.1 (mt mem_modeBits_iff.2 hm)
    exact ⟨_, hrun.trans (State.writeCpsr_illegal hctl hT hnone), (State.stuck_iff _).2 hnone, rfl⟩
  · exact ⟨_, hrun.trans (State.writeCpsr_flags hctl),
      s.setCpsr_advance_setsCpsr (flagsFrom_t _ _ _)⟩

/-! ### The write of the SPSR (42_psr_transfer R153) -/

/-- A mode without an SPSR refuses the write of it. -/
theorem State.writePsr_noSpsr {s : State} (mask : BitVec 4) (w : Word) (hb : s.bank = none) :
    s.writePsr .spsr mask w = .refused .noSpsr := by
  rw [State.writePsr, hb]

/-- The write of the SPSR of the current mode. -/
theorem State.writePsr_spsr {s : State} {e : ExcMode} (mask : BitVec 4) (w : Word)
    (hb : s.bank = some e) :
    s.writePsr .spsr mask w = .next (s.setSpsr e ((s.spsr.get e).maskedSaved mask w)).advance := by
  rw [State.writePsr, hb]

/-- Settles O33: the write of the SPSR of the bank, if there is one. -/
theorem msrToSpsrFollowsItsRule : Obligations.MsrToSpsrFollowsItsRule := by
  intro s i c mask w ht hc hi
  by_cases hr15 : i = .msrReg c .spsr mask 15#4
  · rw [if_pos hr15]
    exact (exec_msr hc hi).trans (if_pos hr15)
  rw [if_neg hr15]
  have hrun : exec i s = s.writePsr .spsr mask w := (exec_msr hc hi).trans (if_neg hr15)
  split
  next hb => exact hrun.trans (State.writePsr_noSpsr mask w hb)
  next e hb =>
    have hadv (p : Psr) : s.Advances (s.setSpsr e p).advance s.instrLen :=
      State.advance_advances rfl rfl
    exact ⟨_, hrun.trans (State.writePsr_spsr mask w hb), SavedPsrs.get_set_self s.spsr e _,
      fun x hx => SavedPsrs.get_set_ne s.spsr _ hx, fun _ => rfl, fun _ => rfl, rfl,
      State.instrLen_of_arm ht ▸ hadv _, rfl, rfl, rfl, rfl⟩

end Sys2Proof.Machine
end

section
/-! The statements about single transfers and swaps (43_data_transfer R160 to R164, R170 to R173): how
LDR, LDRB, STR, STRB, SWP and SWPB follow their rules on memory, what they refuse, and what a data abort
leaves behind. -/

namespace Sys2Proof.Machine

/-! ### Reads and write-backs -/

@[simp] theorem State.blockWriteBack_draws (s : State) (wb : Bool) (rn : RegNum) (v : Word) :
    (s.blockWriteBack wb rn v).draws = s.draws := by
  cases wb <;> simp [State.blockWriteBack]

/-- A byte or a word that memory holds is read back. -/
theorem State.memRead_holds {s : State} {addr v : Word} {n : Nat} (hn : n = 4 ∨ n = 1)
    (ha : s.Accessible .read addr n) (hv : s.Holds addr n v) (hlt : v.toNat < 2 ^ (8 * n)) :
    s.memRead addr n = .ok v := by
  obtain rfl | rfl := hn
  · exact State.memRead_word ha hv
  · have hbyte : (v.extractLsb' 0 8).setWidth 32 = v := by
      apply BitVec.eq_of_toNat_eq
      simp only [BitVec.toNat_setWidth, BitVec.extractLsb'_toNat, Nat.shiftRight_zero]
      omega
    rw [State.memRead_ok (bs := toBytes s.platform.bigEndian 1 v) ha (by simp)
      fun k hk => by rw [hv k hk, toBytes_getElem _ _ _ hk], ofBytes_toBytes_byte, hbyte]

/-- Bytes that memory holds have a value. -/
theorem State.Accessible.readable {s : State} {addr v : Word} {n : Nat} (ha : s.Accessible .read addr n)
    (hv : s.Holds addr n v) : s.Readable .read addr n :=
  ⟨ha.reaches, fun k hk _ => by simp [hv k hk]⟩

/-- What an instruction that moves on has placed in memory alone, it has stored. -/
theorem State.StoresPlaced.stores {s t : State} {addr v : Word} {n : Nat} {l : List PhysReg}
    (h : s.StoresPlaced t addr n v) (hmoves : s.MovesOn t l)
    (hm : ∀ k < n, s.platform.kindAt (byteAddr addr k) = some .memory) (hd : t.draws = s.draws) :
    s.Stores t addr n v l where
  holds k hk := by rw [hmoves.platform]; exact h.memory k hk (hm k hk)
  outside := h.outside
  marks := h.marks
  regs := hmoves.regs
  cpsr := hmoves.cpsr
  spsr := hmoves.spsr
  platform := hmoves.platform
  inputs := hmoves.inputs
  draws := hd

/-! ### Single transfers whose condition passes -/

section
variable {s : State} {ix : Index} {c : Cond} {up : Bool} {rn rd : RegNum} {imm : BitVec 12}

theorem exec_ldrOf_pass (hc : condPassed s.cpsr c = true) :
    exec (ldrOf ix c up rn rd imm) s = s.loadWord ix up rn rd imm :=
  (exec_ldrOf ..).trans (State.whenCond_pass _ hc)

theorem exec_ldrbOf_pass (hc : condPassed s.cpsr c = true) :
    exec (ldrbOf ix c up rn rd imm) s = s.loadByte ix up rn rd imm :=
  (exec_ldrbOf ..).trans (State.whenCond_pass _ hc)

theorem exec_strOf_pass (hc : condPassed s.cpsr c = true) :
    exec (strOf ix c up rn rd imm) s = s.storeReg 4 .strOfR15 ix up rn rd imm :=
  (exec_strOf ..).trans (State.whenCond_pass _ hc)

theorem exec_strbOf_pass (hc : condPassed s.cpsr c = true) :
    exec (strbOf ix c up rn rd imm) s = s.storeReg 1 .strbOfR15 ix up rn rd imm :=
  (exec_strbOf ..).trans (State.whenCond_pass _ hc)

/-! ### Addresses and refusals of a write-back (43_data_transfer R160) -/

/-- The refusals of R160, by name. -/
theorem Index.refusal_writeBack (hw : ix.writesBack = true) (h : rn = 15#4 ∨ rn = rd) :
    ix.refusal rn rd = some (if rn = 15#4 then .writebackToR15 else .writebackBaseIsTransfer) := by
  unfold Index.refusal
  by_cases h15 : rn = 15#4
  · simp [hw, h15]
  · obtain rfl := h.resolve_left h15
    simp [hw, h15]

theorem State.loadWord_notAllowed {r : Refusal} (h : ix.refusal rn rd = some r) :
    s.loadWord ix up rn rd imm = .refused r := by
  simp only [State.loadWord, h]

theorem State.loadByte_notAllowed {r : Refusal} (h : ix.refusal rn rd = some r) :
    s.loadByte ix up rn rd imm = .refused r := by
  simp only [State.loadByte, h]

theorem State.storeReg_notAllowed {n : Nat} {ofR15 r : Refusal} (h : ix.refusal rn rd = some r) :
    s.storeReg n ofR15 ix up rn rd imm = .refused r := by
  simp only [State.storeReg, h]

theorem State.offAddr_eq (s : State) (up : Bool) (rn : RegNum) (imm : BitVec 12) :
    s.offAddr up rn imm = if up then s.readReg rn + BitVec.ofNat 32 imm.toNat
      else s.readReg rn - BitVec.ofNat 32 imm.toNat := by
  rw [State.offAddr, BitVec.ofNat_toNat]

theorem State.transferAddr_eq (s : State) (ix : Index) (up : Bool) (rn : RegNum) (imm : BitVec 12) :
    s.transferAddr ix up rn imm = if ix = .post then s.readReg rn else s.offAddr up rn imm := by
  cases ix <;> rfl

/-! ### LDR and LDRB from memory (43_data_transfer R161, R163) -/

/-- What a load from memory leaves, with its base written back where `wb` says so. -/
theorem State.load_loads {wb : Bool} {addr : Word} {n : Nat} (off v : Word) (hm : s.seen addr n = s)
    (ht : s.cpsr.t = false) (hx : wb = true → rn ≠ 15#4 ∧ rn ≠ rd) (hd : rd ≠ 15#4) :
    s.Loads (((s.seen addr n).blockWriteBack wb rn off).writeReg rd v).advance wb rn rd off v := by
  obtain ⟨hmoves, hbase, -⟩ := State.load_completes addr n off v ht hx hd
  refine ⟨?_, hbase, ⟨hmoves.regs, hmoves.spsr, fun a => by simp, by simp, hmoves.platform,
    hmoves.inputs⟩, hmoves.cpsr, hmoves.pc, by simp [hm]⟩
  have hbank : ((s.seen addr n).blockWriteBack wb rn off).bank = s.bank := by simp
  rw [State.advance_regs, ← hbank, State.writeReg_get_self _ v hd]

/-- What a branch leaves, with a base written back before it where `wb` says so. -/
theorem State.writeBack_setPc_lands {wb : Bool} (off a : Word) (hx : wb = true → rn ≠ 15#4) :
    ((s.blockWriteBack wb rn off).setPc a).Lands a ∧
      ((s.blockWriteBack wb rn off).setPc a).cpsr = s.cpsr ∧
      s.Keeps ((s.blockWriteBack wb rn off).setPc a) (wbRegs s wb rn) ∧
      (wb = true → ((s.blockWriteBack wb rn off).setPc a).regs.get (physOf s.bank rn) = off) := by
  refine ⟨State.setPc_lands _ a, by simp, (s.blockWriteBack_keeps off hx).setPc a, fun hw => ?_⟩
  subst hw
  exact s.blockWriteBack_base off (hx rfl)

/-- LDRB of R15 is refused, unless R160 refuses it first. -/
theorem State.loadByte_r15 (hx : ix.Allowed rn 15#4) :
    s.loadByte ix up rn 15#4 imm = .refused .ldrbToR15 := by
  simp only [State.loadByte, (Index.refusal_none_iff ix rn 15#4).2 hx, if_true]

/-! ### STR and STRB to memory (43_data_transfer R162, R164) -/

/-- A store of R15 is refused by the name its rule gives, unless R160 refuses it first. -/
theorem State.storeReg_r15 {n : Nat} {ofR15 : Refusal} (hx : ix.Allowed rn 15#4) :
    s.storeReg n ofR15 ix up rn 15#4 imm = .refused ofR15 := by
  simp only [State.storeReg, (Index.refusal_none_iff ix rn 15#4).2 hx, if_true]

/-- An instruction that stores the low `n` bytes of a register follows the rule of the stores. -/
theorem storeRule_of_exec {i : Instr} {n : Nat} {ofR15 : Refusal}
    (h : exec i s = s.storeReg n ofR15 ix up rn rd imm) (hn : n ≤ 2 ^ 32) (ht : s.cpsr.t = false)
    (hx : ix.Allowed rn rd) : StoreRule i s ix up rn rd imm n ofR15 := by
  refine ⟨fun hd => ?_, fun hd hmis => ?_, fun hd ha => ?_⟩
  · subst hd
    rw [h, State.storeReg_r15 hx]
  · rw [h, State.storeReg_refused hx hd (State.memWrite_misaligned _ hmis)]
  · obtain ⟨hmoves, hbase, hplaced⟩ := State.store_completes (s.transferAddr ix up rn imm)
      (s.offAddr up rn imm) (s.readReg rd) hn ht fun hw => (hx hw).1
    exact ⟨_, h.trans (State.storeReg_done hx hd ha.reaches),
      hplaced.stores hmoves ha.mapped (by simp), hbase, hmoves.pc⟩

/-! ### Data aborts of single transfers (43_data_transfer R172) -/

/-- The entry of a data abort, in the words of the statements. -/
theorem State.raise_takesDataAbort (s : State) : s.TakesDataAbort (s.raise .dataAbort) :=
  s.raise_takes .dataAbort

/-- What an aborted single transfer does: the base as the abort model has it, then the exception. -/
theorem State.abortTransfer_baseOnly (off : Word) (hx : ix.writesBack = true → rn ≠ 15#4) :
    ∃ t, s.abortTransfer ix rn off = .next t ∧ ∃ u : State,
      s.BaseOnly u (ix.writesBack && s.platform.abortModel == .baseUpdated) rn off ∧
        u.TakesDataAbort t := by
  have heq : s.abortTransfer ix rn off = .next ((s.blockWriteBack
      (ix.writesBack && s.platform.abortModel == .baseUpdated) rn off).raise .dataAbort) := by
    rw [State.abortTransfer_eq, State.writeBack_eq]
    cases s.platform.abortModel <;> simp [State.blockWriteBack]
  have hrn : (ix.writesBack && s.platform.abortModel == .baseUpdated) = true → rn ≠ 15#4 :=
    fun h => hx (Bool.and_eq_true_iff.1 h).1
  refine ⟨_, heq, _, ⟨fun hw => ?_, s.blockWriteBack_keeps off hrn, by simp,
    s.blockWriteBack_pc off hrn, by simp⟩, State.raise_takesDataAbort _⟩
  rw [hw]
  exact s.blockWriteBack_base off (hrn hw)

/-- A LDR whose read aborts is an aborted transfer. -/
theorem State.loadWord_aborted (hx : ix.Allowed rn rd)
    (ha : s.memRead (s.transferAddr ix up rn imm) 4 = .abort) :
    s.loadWord ix up rn rd imm = s.abortTransfer ix rn (s.offAddr up rn imm) := by
  simp only [State.loadWord, (Index.refusal_none_iff ix rn rd).2 hx, ha, Access.andThen_abort]

/-- A LDRB whose read aborts is an aborted transfer. -/
theorem State.loadByte_aborted (hx : ix.Allowed rn rd) (hd : rd ≠ 15#4)
    (ha : s.memRead (s.transferAddr ix up rn imm) 1 = .abort) :
    s.loadByte ix up rn rd imm = s.abortTransfer ix rn (s.offAddr up rn imm) := by
  simp only [State.loadByte, (Index.refusal_none_iff ix rn rd).2 hx, if_neg hd, ha, Access.andThen_abort]

/-- A STR or STRB whose write aborts is an aborted transfer. -/
theorem State.storeReg_aborted {n : Nat} {ofR15 : Refusal} (hx : ix.Allowed rn rd) (hd : rd ≠ 15#4)
    (ha : s.Aborts .write (s.transferAddr ix up rn imm) n) :
    s.storeReg n ofR15 ix up rn rd imm = s.abortTransfer ix rn (s.offAddr up rn imm) := by
  simp only [State.storeReg, (Index.refusal_none_iff ix rn rd).2 hx, if_neg hd,
    State.memWrite_abort.2 ha, Access.andThen_abort]

end

/-! ### The statements about single transfers -/

/-- Settles O38: all four instructions look at the refusals of their form first. -/
theorem singleTransferAddressing : Obligations.SingleTransferAddressing := by
  intro s ix c up rn rd imm hc
  refine ⟨fun ht hn => ?_, s.offAddr_eq up rn imm, s.transferAddr_eq ix up rn imm, fun hw h i hi => ?_⟩
  · rw [hn, State.readReg_r15, ht]; rfl
  · have hr := Index.refusal_writeBack hw h
    simp only [List.mem_cons, List.not_mem_nil, or_false] at hi
    obtain rfl | rfl | rfl | rfl := hi
    · rw [exec_ldrOf_pass hc, State.loadWord_notAllowed hr]
    · rw [exec_ldrbOf_pass hc, State.loadByte_notAllowed hr]
    · rw [exec_strOf_pass hc, State.storeReg_notAllowed hr]
    · rw [exec_strbOf_pass hc, State.storeReg_notAllowed hr]

/-- Settles O35: the read gives the word, which is written, branched to, or refused by its alignment. -/
theorem ldrFollowsItsRule : Obligations.LdrFollowsItsRule := by
  intro s ix c up rn rd imm v ht hc hx ha hv
  have hread := State.memRead_word ha hv
  have hseen := State.seen_of_memory ha.mapped
  split_ifs with hd h4
  · exact ⟨_, (exec_ldrOf_pass hc).trans (State.loadWord_done hx hd hread),
      State.load_loads _ _ hseen ht hx hd⟩
  · obtain rfl := not_not.1 hd
    have hload := State.loadWord_branches (fun hw => (hx hw).1) hread
    rw [hseen, State.branchArm_aligned _ h4] at hload
    exact ⟨_, (exec_ldrOf_pass hc).trans hload, State.writeBack_setPc_lands _ _ fun hw => (hx hw).1⟩
  · obtain rfl := not_not.1 hd
    rw [exec_ldrOf_pass hc, State.loadWord_branches (fun hw => (hx hw).1) hread,
      State.branchArm_misaligned _ h4]

/-- Settles O36: R15 is refused before the read, which gives the byte zero-extended. -/
theorem ldrbFollowsItsRule : Obligations.LdrbFollowsItsRule := by
  intro s ix c up rn rd imm b ht hc hx
  split_ifs with hd
  · subst hd
    rw [exec_ldrbOf_pass hc, State.loadByte_r15 hx]
  · intro ha hb
    exact ⟨_, (exec_ldrbOf_pass hc).trans (State.loadByte_done hx hd (State.memRead_byte ha hb)),
      State.load_loads _ _ (State.seen_of_memory ha.mapped) ht hx hd⟩

/-- Settles O37: STR and STRB are the store of 4 bytes and of 1. -/
theorem storesFollowTheirRules : Obligations.StoresFollowTheirRules :=
  fun _ _ _ _ _ _ _ ht hc hx => ⟨storeRule_of_exec (exec_strOf_pass hc) (by decide) ht hx,
    storeRule_of_exec (exec_strbOf_pass hc) (by decide) ht hx⟩

/-- Settles O43: each of the four is an aborted transfer, which updates the base by the abort model. -/
theorem singleTransferAbort : Obligations.SingleTransferAbort := by
  intro s ix c up rn rd imm i kind n _ hc hx hd hi ha
  obtain ⟨t, ht, hu⟩ := State.abortTransfer_baseOnly (s := s) (s.offAddr up rn imm) fun hw => (hx hw).1
  refine ⟨t, Eq.trans ?_ ht, hu⟩
  simp only [List.mem_cons, Prod.mk.injEq, List.not_mem_nil, or_false] at hi
  obtain ⟨rfl, rfl, rfl⟩ | ⟨rfl, rfl, rfl⟩ | ⟨rfl, rfl, rfl⟩ | ⟨rfl, rfl, rfl⟩ := hi
  · rw [exec_ldrOf_pass hc, State.loadWord_aborted hx (State.memRead_abort ha)]
  · rw [exec_ldrbOf_pass hc, State.loadByte_aborted hx
      (hd.resolve_right (by cases ix <;> simp [ldrOf, ldrbOf])) (State.memRead_abort ha)]
  · rw [exec_strOf_pass hc, State.storeReg_aborted hx
      (hd.resolve_right (by cases ix <;> simp [ldrOf, strOf])) ha]
  · rw [exec_strbOf_pass hc, State.storeReg_aborted hx
      (hd.resolve_right (by cases ix <;> simp [ldrOf, strbOf])) ha]

/-! ### SWP and SWPB (43_data_transfer R170, R171, R173) -/

section
variable {s : State} {c : Cond} {rn rd rm : RegNum} {i : Instr} {n : Nat}

theorem exec_swap_pass (hc : condPassed s.cpsr c = true)
    (hi : (i, n) ∈ [(.swp c rn rd rm, 4), (.swpb c rn rd rm, 1)]) :
    exec i s = s.swap n rn rd rm := (exec_swap s hi).trans (State.whenCond_pass _ hc)

/-- A swap is of a word or of a byte. -/
theorem swapLen_cases (hi : (i, n) ∈ [(.swp c rn rd rm, 4), (.swpb c rn rd rm, 1)]) : n = 4 ∨ n = 1 := by
  simp only [List.mem_cons, Prod.mk.injEq, List.not_mem_nil, or_false] at hi
  omega

theorem State.swap_notAllowed {r : Refusal} (h : swapRefusal rn rd rm = some r) :
    s.swap n rn rd rm = .refused r := by
  simp only [State.swap, h]

/-- A SWP or SWPB whose read aborts takes the exception and does nothing else. -/
theorem State.swap_readAborts (hx : swapRefusal rn rd rm = none) (ha : s.Aborts .read (s.readReg rn) n) :
    s.swap n rn rd rm = .next (s.raise .dataAbort) := by
  simp only [State.swap, hx, State.memRead_abort ha, Access.andThen_abort]

/-- A SWP or SWPB that has read memory and whose write aborts takes the exception and does nothing else. -/
theorem State.swap_writeAborts {old : Word} (hx : swapRefusal rn rd rm = none)
    (hr : s.memRead (s.readReg rn) n = .ok old) (hm : s.seen (s.readReg rn) n = s)
    (ha : s.Aborts .write (s.readReg rn) n) :
    s.swap n rn rd rm = .next (s.raise .dataAbort) := by
  simp only [State.swap, hx, hr, hm, State.memWrite_abort.2 ha, Access.andThen_ok, Access.andThen_abort]

end

/-- Settles O45: the refusals in the order of the rule, then the read of the old value before the store. -/
theorem swapFollowsItsRule : Obligations.SwapFollowsItsRule := by
  intro s c rn rd rm i n old ht hc hi
  have hrun : exec i s = s.swap n rn rd rm := exec_swap_pass hc hi
  rw [hrun]
  split_ifs with h15 hop hmis
  · exact State.swap_notAllowed (if_pos h15)
  · exact State.swap_notAllowed ((if_neg h15).trans (if_pos hop))
  · exact State.swap_refused ((if_neg h15).trans (if_neg hop)) (State.memRead_misaligned hmis)
  · intro hr hw hv hlt
    have hx : swapRefusal rn rd rm = none := (if_neg h15).trans (if_neg hop)
    have hlen := swapLen_cases hi
    have hd : rd ≠ 15#4 := fun h => h15 (.inr (.inl h))
    obtain ⟨hmoves, hplaced⟩ := State.swap_completes (rd := rd) (s.readReg rn) (s.readReg rm) old
      (show n ≤ 2 ^ 32 by omega) ht hd
    refine ⟨_, hrun.trans (State.swap_done hx (State.memRead_holds hlen hr hv hlt) hw.reaches), ?_,
      hplaced.stores hmoves hw.mapped ?_, hmoves.pc⟩
    · exact (State.writeReg_get _ old hd _).trans (if_pos (by simp))
    · simp [State.seen_of_memory hr.mapped]

/-- Settles O46: nothing is written before either access has gone through. -/
theorem abortedSwapChangesNothing : Obligations.AbortedSwapChangesNothing := by
  intro s c rn rd rm i n old _ hc hi hn hd hm hnd hnm ha
  have hx := (swapRefusal_none_iff rn rd rm).2 ⟨hn, hd, hm, hnd, hnm⟩
  refine ⟨_, (exec_swap_pass hc hi).trans ?_, s.raise_takesDataAbort⟩
  obtain ha | ⟨hr, hv, ha⟩ := ha
  · exact State.swap_readAborts hx ha
  · obtain ⟨v, hread⟩ := State.memRead_readable (hr.readable hv)
    exact State.swap_writeAborts hx hread (State.seen_of_memory hr.mapped) ha

end Sys2Proof.Machine
end

section
/-! The statements about block transfers (43_data_transfer R166 to R168, R174): the refusals and the
addresses of LDM and STM, how they follow their rules on memory, what a data abort leaves behind, and the pop
that undoes a push. -/

namespace Sys2Proof.Machine

/-! ### Refusals and addresses (43_data_transfer R166 to R168) -/

section
variable {s : State} {mode : BlockMode} {wb : Bool} {rn : RegNum} {list : BitVec 16}

/-- The refusals of R166 are those of LDM and of STM. -/
theorem exec_block_refused {c : Cond} {r : Refusal} (hc : condPassed s.cpsr c = true)
    (h : s.blockRefusal rn list = some r) :
    exec (.ldm c mode wb rn list) s = .refused r ∧ exec (.stm c mode wb rn list) s = .refused r := by
  refine ⟨(State.whenCond_pass _ hc).trans ?_, (State.whenCond_pass _ hc).trans ?_⟩
  · simp only [State.loadMultiple, h]
  · simp only [State.storeMultiple, h]

theorem State.blockRefusal_misaligned (hl : list ≠ 0#16) (hn : rn ≠ 15#4)
    (h : (s.readReg rn).toNat % 4 ≠ 0) : s.blockRefusal rn list = some .misaligned := by
  rw [State.blockRefusal, if_neg hl, if_neg hn, if_pos ((misaligned_iff _ _).2 h)]

theorem State.loadMultiple_baseInList (h : BlockAllowed s rn list) (hl : list.getLsbD rn.toNat = true) :
    s.loadMultiple mode true rn list = .refused .ldmWritebackBaseInList := by
  simp only [State.loadMultiple, h.refusal, hl, Bool.and_self, if_true]

theorem State.storeMultiple_r15 (h : BlockAllowed s rn list) (h15 : list.getLsbD 15 = true) :
    s.storeMultiple mode wb rn list = .refused .stmOfR15 := by
  simp only [State.storeMultiple, h.refusal, h15, if_true]

theorem State.storeMultiple_baseNotFirst (h : BlockAllowed s rn list) (h15 : list.getLsbD 15 = false)
    (hl : list.getLsbD rn.toNat = true) (h0 : slotOf list rn.toNat ≠ 0) :
    s.storeMultiple mode true rn list = .refused .stmWritebackBaseNotFirst := by
  have hhead : ((regList list).head? != some rn) = true :=
    bne_iff_ne.2 ((head_regList_iff hl).not.2 h0)
  simp only [State.storeMultiple, h.refusal, h15, hl, hhead, Bool.and_self, Bool.false_eq_true, if_false,
    if_true]

end

/-- The bytes of a block transfer are four for each register of the list. -/
theorem blockBytes_eq (list : BitVec 16) : blockBytes list = BitVec.ofNat 32 (4 * slotOf list 16) := by
  rw [blockBytes, regList_length]

/-- Settles O47: the refusals one by one; the addresses by counting the registers of the list. -/
theorem blockTransferAddressing : Obligations.BlockTransferAddressing := by
  intro s c mode wb rn list hc
  refine ⟨fun hl => exec_block_refused hc (if_pos hl),
    fun hl hn => exec_block_refused hc ((if_neg hl).trans (if_pos hn)),
    fun hl hn hmis => exec_block_refused hc (State.blockRefusal_misaligned hl hn hmis),
    fun ha hw hl => ?_, fun ha h15 => ?_, fun ha h15 hw hl h0 => ?_, fun base => ?_⟩
  · subst hw
    exact (State.whenCond_pass _ hc).trans (State.loadMultiple_baseInList ha hl)
  · exact (State.whenCond_pass _ hc).trans (State.storeMultiple_r15 ha h15)
  · subst hw
    exact (State.whenCond_pass _ hc).trans (State.storeMultiple_baseNotFirst ha h15 hl h0)
  · rw [← blockBytes_eq]
    exact ⟨rfl, rfl, rfl, rfl, rfl, rfl, rfl, rfl, blockAddrs_eq mode base list⟩

/-! ### The list around one of its registers -/

/-- A list split at one of its registers: before it the listed registers below, after it those above. -/
theorem regList_split_iff {list : BitVec 16} {r0 : RegNum} (h : list.getLsbD r0.toNat = true) :
    ∃ rs qs, regList list = rs ++ r0 :: qs ∧
      (∀ r, r ∈ rs ↔ list.getLsbD r.toNat = true ∧ r.toNat < r0.toNat) ∧
      ∀ r, r ∈ qs ↔ list.getLsbD r.toNat = true ∧ r0.toNat < r.toNat := by
  obtain ⟨rs, qs, hl⟩ := List.append_of_mem (mem_regList.2 h)
  have hsorted := regList_sorted list
  rw [hl, List.pairwise_append, List.pairwise_cons] at hsorted
  obtain ⟨-, ⟨habove, -⟩, hbelow⟩ := hsorted
  have hmem (r : RegNum) : list.getLsbD r.toNat = true ↔ r ∈ rs ∨ r = r0 ∨ r ∈ qs := by
    rw [← mem_regList, hl, List.mem_append, List.mem_cons]
  have hrs (r : RegNum) (hr : r ∈ rs) : r.toNat < r0.toNat := hbelow r hr r0 List.mem_cons_self
  refine ⟨rs, qs, hl, fun r => ⟨fun hr => ⟨(hmem r).2 (.inl hr), hrs r hr⟩, ?_⟩,
    fun r => ⟨fun hr => ⟨(hmem r).2 (.inr (.inr hr)), habove r hr⟩, ?_⟩⟩
  · rintro ⟨hr, hlt⟩
    obtain hr | rfl | hr := (hmem r).1 hr
    · exact hr
    · exact absurd hlt (lt_irrefl _)
    · exact absurd hlt (habove r hr).not_gt
  · rintro ⟨hr, hlt⟩
    obtain hr | rfl | hr := (hmem r).1 hr
    · exact absurd hlt (hrs r hr).not_gt
    · exact absurd hlt (lt_irrefl _)
    · exact hr

/-- R15 is the last register of a list that it is in. -/
theorem regList_getLastD_r15 {list : BitVec 16} (h : list.getLsbD 15 = true) (val : RegNum → Word) :
    ((regList list).map val).getLastD 0 = val 15#4 := by
  have hsplit : regList list =
      (((List.range 15).filter fun i => list.getLsbD i).map (BitVec.ofNat 4)) ++ [15#4] := by
    rw [regList, List.range_succ, List.filter_append, List.map_append]
    simp [h]
  rw [hsplit, List.map_append]
  simp

/-- Values for the first registers of a list go to these. -/
theorem zip_append_map {α β : Type} (g : α → β) (xs ys : List α) :
    (xs ++ ys).zip (xs.map g) = xs.map fun x => (x, g x) := by
  induction xs with
  | nil => simp
  | cons x xs ih => simp [ih]

/-! ### LDM from memory (43_data_transfer R167) -/

@[simp] theorem State.writeRegs_draws (s : State) (xs : List (RegNum × Word)) :
    (s.writeRegs xs).draws = s.draws := by
  obtain ⟨g, hg⟩ := s.writeRegs_frame xs
  rw [hg]

section
variable {s : State} {list : BitVec 16} {start : Word} {val : RegNum → Word}

/-- The reads of a LDM whose slots memory holds give the values of the slots. -/
theorem State.loadWords_slots {rs : List RegNum}
    (h : ∀ r ∈ rs, s.Accessible .read (slotAddr start list r) 4 ∧
      s.Holds (slotAddr start list r) 4 (val r)) :
    s.loadWords (rs.map (slotAddr start list)) = .done (rs.map val) :=
  State.loadWords_done fun r hr => ⟨(h r hr).1, State.memRead_word (h r hr).1 (h r hr).2⟩

/-- The reads of a LDM whose slots are in memory change nothing. -/
theorem State.seenAll_slots {rs : List RegNum}
    (h : ∀ r ∈ rs, s.Accessible .read (slotAddr start list r) 4) :
    s.seenAll (rs.map (slotAddr start list)) = s := by
  refine State.seenAll_of_memory fun a ha => ?_
  obtain ⟨r, hr, rfl⟩ := List.mem_map.1 ha
  exact (h r hr).mapped

end

/-- What LDM leaves before it branches or goes on: the values in their registers, the base written back. -/
theorem State.writeRegs_loads (s : State) {wb : Bool} {rn : RegNum} {list : BitVec 16} (off : Word)
    (val : RegNum → Word) (hn : rn ≠ 15#4) (hw : wb = true → list.getLsbD rn.toNat = false) :
    let u := (s.blockWriteBack wb rn off).writeRegs ((regList list).zip ((regList list).map val))
    s.LoadsListed u wb rn list off ∧
      (∀ r : RegNum, list.getLsbD r.toNat = true → r ≠ 15#4 → u.regs.get (physOf s.bank r) = val r) ∧
      u.stored = s.stored ∧ u.pc = s.pc ∧ u.draws = s.draws := by
  intro u
  have hdata : s.Data False u :=
    (s.blockWriteBack_data wb off hn False).trans (State.writeRegs_data _ _ False)
  have hzip := zip_append_map val (regList list) []
  rw [List.append_nil] at hzip
  refine ⟨s.writeRegs_loadsListed [] off _ hn hw, fun r hr h15 => ?_, (hdata.mem id).2, hdata.pc,
    by simp [u]⟩
  have hget := (s.blockWriteBack wb rn off).writeRegs_get (regList list) val (mem_regList.2 hr) h15
  rwa [← hzip, State.blockWriteBack_bank] at hget

/-- Settles O48: the reads give the values of the slots, which go to their registers after the base is
written back. -/
theorem ldmFollowsItsRule : Obligations.LdmFollowsItsRule := by
  intro s c mode wb rn list val ht hc ha hw hr
  have hloaded : s.loadWords (blockAddrs mode (s.readReg rn) list) = .done ((regList list).map val) := by
    rw [blockAddrs_eq]
    exact State.loadWords_slots fun r hl => hr r (mem_regList.1 hl)
  have hseen : s.seenAll (blockAddrs mode (s.readReg rn) list) = s := by
    rw [blockAddrs_eq]
    exact State.seenAll_slots fun r hl => (hr r (mem_regList.1 hl)).1
  have hrun : exec (.ldm c mode wb rn list) s = _ :=
    (State.whenCond_pass _ hc).trans (State.loadMultiple_done ha hw hloaded)
  obtain ⟨hlist, hvalue, hstored, hpc, hdraws⟩ :=
    s.writeRegs_loads (blockEnd mode (s.readReg rn) list) val ha.base hw
  rw [hseen] at hrun
  generalize (State.blockWriteBack s wb rn _).writeRegs _ = u at hrun hlist hvalue hstored hpc hdraws
  have hmem (a : Nat) := (hlist.bytes a).mem
  cases h15 : list.getLsbD 15
  · simp only [h15, Bool.false_eq_true, false_and, if_false] at hrun ⊢
    have hadvance := State.advance_advances hpc (congrArg Psr.t hlist.cpsr)
    rw [State.instrLen_of_arm ht] at hadvance
    exact ⟨_, hrun, hvalue, hlist.base, hlist.regs, hadvance, hlist.cpsr, hlist.spsr, hmem, hstored,
      hlist.platform, hlist.inputs, hdraws⟩
  · simp only [h15, if_true, regList_getLastD_r15 h15, true_and] at hrun ⊢
    split_ifs with h4
    · rw [hrun, State.branchArm_misaligned _ h4]
    · exact ⟨_, hrun.trans (State.branchArm_aligned _ (not_not.1 h4)), hvalue, hlist.base, hlist.regs,
        State.setPc_lands _ _, hlist.cpsr, hlist.spsr, hmem, hstored, hlist.platform, hlist.inputs, hdraws⟩

/-! ### What an aborted LDM leaves (43_data_transfer R174) -/

/-- LDM of which one read aborts loads what it has read, but not its base, writes the base back and takes
the exception. -/
theorem State.loadMultiple_aborted {s : State} {mode : BlockMode} {wb : Bool} {rn : RegNum}
    {list : BitVec 16} {vs : List Word} (h : BlockAllowed s rn list)
    (hw : wb = true → list.getLsbD rn.toNat = false)
    (hv : s.loadWords (blockAddrs mode (s.readReg rn) list) = .aborted vs) :
    s.loadMultiple mode wb rn list =
      .next ((((s.seenAll (blockAddrs mode (s.readReg rn) list)).writeRegs
        (((regList list).zip vs).filter fun x => x.1 != rn)).blockWriteBack wb rn
          (blockEnd mode (s.readReg rn) list)).raise .dataAbort) := by
  have hw' : (wb && list.getLsbD rn.toNat) = false := by simpa using hw
  unfold State.loadMultiple
  simp only [h.refusal, hw', Bool.false_eq_true, if_false, hv]

/-- What is loaded for the first registers of a list, the base left out. -/
theorem filter_zip_append_map (val : RegNum → Word) (rs qs : List RegNum) (rn : RegNum) :
    ((rs ++ qs).zip (rs.map val)).filter (fun x => x.1 != rn) =
      (rs.filter (· != rn)).map fun r => (r, val r) := by
  rw [zip_append_map, List.filter_map]
  rfl

/-- Registers loaded, then the base written back, which is none of them. -/
theorem State.writeRegs_blockWriteBack_loads (s : State) (as : List Word) {rs : List RegNum} {wb : Bool}
    {rn : RegNum} (off : Word) (val : RegNum → Word) (hn : rn ≠ 15#4)
    (hrs : ∀ r ∈ rs, r ≠ 15#4 ∧ r ≠ rn) :
    let u := ((s.seenAll as).writeRegs (rs.map fun r => (r, val r))).blockWriteBack wb rn off
    (∀ r ∈ rs, u.regs.get (physOf s.bank r) = val r) ∧
      (wb = true → u.regs.get (physOf s.bank rn) = off) ∧
      (∀ p, (∀ r ∈ rs, p ≠ physOf s.bank r) → p ∉ wbRegs s wb rn → u.regs.get p = s.regs.get p) ∧
      s.Data False u := by
  have hload := (s.seenAll_data as False).trans
    (State.writeRegs_data (s.seenAll as) (rs.map fun r => (r, val r)) False)
  have hbank := State.bank_congr hload.cpsr
  have hkeeps := State.blockWriteBack_keeps ((s.seenAll as).writeRegs (rs.map fun r => (r, val r)))
    (wb := wb) off fun _ => hn
  rw [wbRegs_congr hbank] at hkeeps
  refine ⟨fun r hr => ?_, fun hw => ?_, fun p hp hpw => ?_,
    hload.trans (State.blockWriteBack_data _ wb off hn False)⟩
  · obtain ⟨h15, hne⟩ := hrs r hr
    have hget := (s.seenAll as).writeRegs_get rs val hr h15
    rw [State.seenAll_bank] at hget
    rw [hkeeps.regs _ fun hm => ?_, hget]
    cases wb
    · simp [wbRegs] at hm
    · exact hne ((physOf_inj h15 hn).1 (List.mem_singleton.1 hm))
  · subst hw
    rw [← hbank]
    exact State.blockWriteBack_base _ off hn
  · rw [hkeeps.regs p hpw, State.writeRegs_get_of_ne, State.seenAll_regs]
    rintro x hx -
    obtain ⟨r, hr, rfl⟩ := List.mem_map.1 hx
    rw [State.seenAll_bank]
    exact hp r hr

/-- R15 is below no register. -/
theorem ne_r15_of_lt {r r0 : RegNum} (h : r.toNat < r0.toNat) : r ≠ 15#4 := by
  rintro rfl
  exact absurd h (Nat.le_of_lt_succ r0.isLt).not_gt

/-- Settles O50: the list is split at the register whose read aborts. -/
theorem abortedLdmKeepsLaterRegisters : Obligations.AbortedLdmKeepsLaterRegisters := by
  intro s c mode wb rn r0 list val _ hc ha hw h0 habort hbefore hafter
  obtain ⟨rs, qs, hl, hrs, hqs⟩ := regList_split_iff h0
  have hloaded : s.loadWords (blockAddrs mode (s.readReg rn) list) = .aborted (rs.map val) := by
    rw [blockAddrs_eq, hl]
    refine State.loadWords_aborted (fun r hr => ?_) (State.memRead_abort habort)
      (State.issueReads_none fun a hmem => ?_)
    · obtain ⟨hlist, hlt⟩ := (hrs r).1 hr
      obtain ⟨hacc, hholds⟩ := hbefore r hlist hlt
      exact ⟨hacc, State.memRead_word hacc hholds⟩
    · obtain ⟨r, hr, rfl⟩ := List.mem_map.1 hmem
      exact hafter r ((hqs r).1 hr).1 ((hqs r).1 hr).2
  have hmem (r : RegNum) :
      r ∈ rs.filter (· != rn) ↔ (list.getLsbD r.toNat = true ∧ r.toNat < r0.toNat) ∧ r ≠ rn := by
    rw [List.mem_filter, hrs, bne_iff_ne]
  have hrun := State.loadMultiple_aborted ha hw hloaded
  rw [hl, filter_zip_append_map] at hrun
  obtain ⟨hvalue, hbase, hregs, hdata⟩ := s.writeRegs_blockWriteBack_loads
    (blockAddrs mode (s.readReg rn) list) (rs := rs.filter (· != rn)) (wb := wb)
    (blockEnd mode (s.readReg rn) list) val ha.base fun r hr => by
      obtain ⟨⟨-, hlt⟩, hne⟩ := (hmem r).1 hr
      exact ⟨ne_r15_of_lt hlt, hne⟩
  refine ⟨_, (State.whenCond_pass _ hc).trans hrun, _,
    fun r hlist hlt hne => hvalue r ((hmem r).2 ⟨⟨hlist, hlt⟩, hne⟩), hbase,
    fun p hp hpw => hregs p (fun r hr => ?_) hpw, hdata.pc, hdata.cpsr, hdata.spsr,
    fun a => congrArg (·.read a) (hdata.mem id).1, (hdata.mem id).2, hdata.platform, hdata.inputs,
    State.raise_takesDataAbort _⟩
  obtain ⟨⟨hlist, hlt⟩, hne⟩ := (hmem r).1 hr
  exact hp r hlist hlt hne

/-! ### STM to memory (43_data_transfer R168) -/

/-- Stores that share no byte each leave their word in memory, and its marks. -/
theorem State.storeAll_hasStored {s : State} {xs : List (Word × Word)}
    (hd : xs.Pairwise fun x y => ∀ j < 4, ∀ k < 4, byteAddr x.1 j ≠ byteAddr y.1 k)
    {x : Word × Word} (hx : x ∈ xs) (ha : s.Accessible .write x.1 4) :
    (s.storeAll xs).HasStored x.1 x.2 :=
  ⟨s.storeAll_holds xs hd hx ha.mapped,
    fun k hk => (s.storeAll_marks xs _).2 (.inr ⟨x, hx, fun h => h k hk rfl⟩)⟩

/-- Stores keep every byte that is none of theirs, and its mark. -/
theorem State.storeAll_keepsByte_of_outside {s : State} {xs : List (Word × Word)} {a : Nat}
    (h : ∀ x ∈ xs, Outside x.1 4 a) : s.KeepsByte (s.storeAll xs) a := by
  refine ⟨s.storeAll_read_outside xs h, (s.storeAll_marks xs a).trans (or_iff_left ?_)⟩
  rintro ⟨x, hx, hn⟩
  exact hn (h x hx)

/-- What has been stored is said of memory, the marks and the byte order alone. -/
theorem State.HasStored.congr {u t : State} {addr v : Word} (h : u.HasStored addr v)
    (hm : t.mem = u.mem) (hs : t.stored = u.stored) (hp : t.platform = u.platform) :
    t.HasStored addr v :=
  ⟨fun k hk => by rw [hm, hp]; exact h.holds k hk, fun k hk => by rw [hs]; exact h.marked k hk⟩

/-- That a byte is kept is said of memory and the marks alone. -/
theorem State.KeepsByte.congr {s u t : State} {a : Nat} (h : s.KeepsByte u a) (hm : t.mem = u.mem)
    (hs : t.stored = u.stored) : s.KeepsByte t a :=
  ⟨by rw [hm]; exact h.mem, by rw [hs]; exact h.mark⟩

/-- Settles O49: the stores are all done, to slots that share no byte. -/
theorem stmFollowsItsRule : Obligations.StmFollowsItsRule := by
  intro s c mode wb rn list ht hc ha h15 hw hr
  have hrun := State.storeMultiple_done (mode := mode) ha h15 hw fun r hl => (hr r hl).reaches
  obtain ⟨honly, hdraws⟩ :=
    s.storeAll_storesOnly (s.slotStores (blockStart mode (s.readReg rn) list) list)
  obtain ⟨hmoves, hbase⟩ := honly.writeBack_movesOn (wb := wb) (blockEnd mode (s.readReg rn) list)
    (fun _ => ha.base) ht
  refine ⟨_, (State.whenCond_pass _ hc).trans hrun, fun r hl => ?_, fun a ho => ?_, hbase, hmoves,
    by simpa using hdraws⟩
  · have hstored := State.storeAll_hasStored (s.slotStores_disjoint _ list)
      (State.mem_slotStores.2 ⟨r, hl, rfl⟩) (hr r hl)
    exact hstored.congr (by simp) (by simp) (by simp)
  · exact (s.storeAll_keepsByte ho).congr (by simp) (by simp)

/-! ### What an aborted STM leaves (43_data_transfer R174, D26) -/

theorem State.storeAll_append (s : State) (xs ys : List (Word × Word)) :
    (s.storeAll xs).storeAll ys = s.storeAll (xs ++ ys) := List.foldl_append.symm

/-- Stores of which one aborts: those before it are done, those after it are done or leave no trace, and
one that is done has gone through. -/
theorem State.storeWords_abortedAt {s : State} {xs ys : List (Word × Word)} {a v : Word}
    (hx : ∀ x ∈ xs, s.Reaches .write x.1 4) (ha : s.Aborts .write a 4)
    (hy : ∀ y ∈ ys, s.Reaches .write y.1 4 ∨ s.Aborts .write y.1 4) :
    ∃ zs u, zs.Sublist ys ∧ (∀ x ∈ xs ++ zs, s.Reaches .write x.1 4) ∧
      s.storeWords (xs ++ (a, v) :: ys) = .aborted u ∧ s.StoresOnly u ∧
      u.mem = (s.storeAll (xs ++ zs)).mem ∧ u.stored = (s.storeAll (xs ++ zs)).stored := by
  have honly := (s.storeAll_storesOnly xs).1
  have hmode := congrArg Psr.m honly.cpsr
  obtain ⟨zs, n, hsub, hreach, hissued⟩ := State.issueStores_aborted fun y h =>
    (hy y h).imp (·.congr honly.platform hmode) (·.congr honly.platform hmode)
  rw [State.storeAll_append] at hissued
  have hrun := (State.storeWords_aborted (v := v) hx ha).trans hissued
  refine ⟨zs, _, hsub, fun x h => ?_, hrun, (State.storeWords_any (.inr hrun)).1, rfl, rfl⟩
  obtain h | h := List.mem_append.1 h
  · exact hx x h
  · exact (hreach x h).congr honly.platform.symm hmode.symm

section
variable {s : State} {mode : BlockMode} {wb : Bool} {rn r0 : RegNum} {list : BitVec 16} {start : Word}

/-- The stores of a STM of which the one of `r0` aborts: those of the registers below it are done, that of
`r0` is not, and one that is done has gone through. -/
theorem State.slotStores_aborted (h0 : list.getLsbD r0.toNat = true)
    (habort : s.Aborts .write (slotAddr start list r0) 4)
    (hbefore : ∀ r : RegNum, list.getLsbD r.toNat = true → r.toNat < r0.toNat →
      s.Reaches .write (slotAddr start list r) 4)
    (hafter : ∀ r : RegNum, list.getLsbD r.toNat = true → r0.toNat < r.toNat →
      s.Reaches .write (slotAddr start list r) 4 ∨ s.Aborts .write (slotAddr start list r) 4) :
    ∃ xs u, xs.Sublist (s.slotStores start list) ∧ (∀ x ∈ xs, s.Reaches .write x.1 4) ∧
      (∀ r : RegNum, list.getLsbD r.toNat = true → r.toNat < r0.toNat →
        (slotAddr start list r, s.readReg r) ∈ xs) ∧
      s.storeWords (s.slotStores start list) = .aborted u ∧ s.StoresOnly u ∧
      u.mem = (s.storeAll xs).mem ∧ u.stored = (s.storeAll xs).stored := by
  obtain ⟨rs, qs, hl, hrs, hqs⟩ := regList_split_iff h0
  have hstores : s.slotStores start list = (rs.map fun r => (slotAddr start list r, s.readReg r)) ++
      (slotAddr start list r0, s.readReg r0) :: qs.map fun r => (slotAddr start list r, s.readReg r) := by
    rw [State.slotStores, hl, List.map_append, List.map_cons]
  have hearlier : ∀ x ∈ rs.map fun r => (slotAddr start list r, s.readReg r),
      s.Reaches .write x.1 4 :=
    List.forall_mem_map.2 fun r hr => hbefore r ((hrs r).1 hr).1 ((hrs r).1 hr).2
  have hlater : ∀ x ∈ qs.map fun r => (slotAddr start list r, s.readReg r),
      s.Reaches .write x.1 4 ∨ s.Aborts .write x.1 4 :=
    List.forall_mem_map.2 fun r hr => hafter r ((hqs r).1 hr).1 ((hqs r).1 hr).2
  obtain ⟨zs, u, hsub, hreach, hrun⟩ := State.storeWords_abortedAt hearlier habort hlater
  rw [hstores]
  exact ⟨_, u, (List.Sublist.refl _).append (hsub.cons _), hreach, fun r hlist hlt =>
    List.mem_append_left _ (List.mem_map.2 ⟨r, (hrs r).2 ⟨hlist, hlt⟩, rfl⟩), hrun⟩

/-- STM of which one store aborts writes its base back and takes the exception. -/
theorem State.storeMultiple_aborted {u : State} (h : BlockAllowed s rn list)
    (h15 : list.getLsbD 15 = false)
    (hw : wb = true → list.getLsbD rn.toNat = true → slotOf list rn.toNat = 0)
    (hu : s.storeWords (s.slotStores (blockStart mode (s.readReg rn) list) list) = .aborted u) :
    s.storeMultiple mode wb rn list =
      .next ((u.blockWriteBack wb rn (blockEnd mode (s.readReg rn) list)).raise .dataAbort) := by
  unfold State.storeMultiple
  simp only [h.refusal, h15, stmList_accepted hw, blockStores_eq, hu, Bool.false_eq_true, if_false]

/-- A slot that none of the stores is of shares no byte with them. -/
theorem State.slot_outside {xs : List (Word × Word)} (hsub : xs.Sublist (s.slotStores start list))
    {r : RegNum} (hr : list.getLsbD r.toNat = true)
    (hn : (slotAddr start list r, s.readReg r) ∉ xs) {k : Nat} (hk : k < 4) :
    ∀ x ∈ xs, Outside x.1 4 (byteAddr (slotAddr start list r) k) := by
  intro x hx j hj
  obtain ⟨q, hq, rfl⟩ := State.mem_slotStores.1 (hsub.subset hx)
  refine slotAddr_disjoint hr hq ?_ hk hj
  rintro rfl
  exact hn hx

/-- An access that is made does not abort. -/
theorem State.Reaches.not_aborts {kind : AccessKind} {addr : Word} {n : Nat}
    (h : s.Reaches kind addr n) : ¬ s.Aborts kind addr n := fun ha => by
  simpa [h.noAbort] using ha.abort

end

/-- Settles O51: what the stores have done is the stores of a part of the slots, without that of `r0`. -/
theorem abortedStmStoresEarlierRegisters : Obligations.AbortedStmStoresEarlierRegisters := by
  intro s c mode wb rn r0 list ht hc ha h15 hw h0 habort hbefore hafter
  obtain ⟨xs, w, hsub, hreach, hbelow, hstores, honly, hmem, hmarks⟩ := State.slotStores_aborted h0 habort
    (fun r hl hlt => (hbefore r hl hlt).reaches) (fun r hl hlt => (hafter r hl hlt).imp_left (·.reaches))
  obtain ⟨hmoves, hbase⟩ := honly.writeBack_movesOn (wb := wb) (blockEnd mode (s.readReg rn) list)
    (fun _ => ha.base) ht
  have hdone {r : RegNum} (hx : (slotAddr (blockStart mode (s.readReg rn) list) list r, s.readReg r) ∈ xs)
      (hacc : s.Accessible .write (slotAddr (blockStart mode (s.readReg rn) list) list r) 4) :=
    (State.storeAll_hasStored ((s.slotStores_disjoint _ list).sublist hsub) hx hacc).congr hmem hmarks
      (honly.platform.trans (s.storeAll_storesOnly xs).1.platform.symm)
  have hkept {a : Nat} (ho : ∀ x ∈ xs, Outside x.1 4 a) :=
    (State.storeAll_keepsByte_of_outside ho).congr hmem hmarks
  refine ⟨_, (State.whenCond_pass _ hc).trans (State.storeMultiple_aborted ha h15 hw hstores),
    w.blockWriteBack wb rn (blockEnd mode (s.readReg rn) list), fun r hl hlt => ?_, fun r hl hlt => ?_,
    fun a ho => ?_, hbase, hmoves.regs, (w.blockWriteBack_pc _ fun _ => ha.base).trans honly.pc,
    hmoves.cpsr, hmoves.spsr, hmoves.platform, hmoves.inputs, State.raise_takesDataAbort _⟩
  · exact (hdone (hbelow r hl hlt) (hbefore r hl hlt)).congr (by simp) (by simp) (by simp)
  · by_cases hx : (slotAddr (blockStart mode (s.readReg rn) list) list r, s.readReg r) ∈ xs
    · have hacc := (hafter r hl hlt).resolve_right (hreach _ hx).not_aborts
      exact .inl ((hdone hx hacc).congr (by simp) (by simp) (by simp))
    · exact .inr fun k hk => (hkept (State.slot_outside hsub hl hx hk)).congr (by simp) (by simp)
  · refine (hkept fun x hx => ?_).congr (by simp) (by simp)
    obtain ⟨r, hl, rfl⟩ := State.mem_slotStores.1 (hsub.subset hx)
    refine ho r hl ?_
    rintro rfl
    exact (hreach _ hx).not_aborts habort

/-! ### Push, then pop -/

/-- A base that a push has lowered is still a multiple of four. -/
theorem sub_blockBytes_aligned {base : Word} (list : BitVec 16) (h : base.toNat % 4 = 0) :
    (base - blockBytes list).toNat % 4 = 0 := by
  rw [blockBytes_eq, BitVec.toNat_sub, BitVec.toNat_ofNat]
  omega

/-- Settles O52: the pop reads the slots that the push has stored to, and its write-back gives the base. -/
theorem pushThenPopRestores : Obligations.PushThenPopRestores := by
  intro s rn list ht ha h15 hrn hr
  obtain ⟨t, htrun, hstored, -, htbase, hmoves, -⟩ :=
    stmFollowsItsRule s .al .db true rn list ht rfl ha h15
      (fun _ h => absurd (hrn.symm.trans h) (by decide)) fun r hl => (hr r hl).1
  have hbank := State.bank_congr hmoves.cpsr
  have hmode := congrArg Psr.m hmoves.cpsr
  have hbase : t.readReg rn = s.readReg rn - blockBytes list := by
    rw [State.readReg_of_ne _ ha.base, hbank]
    exact htbase rfl
  have hpop := ldmFollowsItsRule t .al .ia true rn list s.readReg (by rw [hmoves.cpsr, ht]) rfl
    ⟨ha.nonempty, ha.base, by rw [hbase]; exact sub_blockBytes_aligned list ha.aligned⟩ (fun _ => hrn)
  rw [hbase, h15, hbank, wbRegs_congr hbank, if_neg (by simp)] at hpop
  obtain ⟨u, hurun, hvalue, hubase, hregs, hadvance, hcpsr, -⟩ :=
    hpop fun r hl => ⟨(hr r hl).2.congr hmoves.platform hmode, (hstored r hl).holds⟩
  have hpc : u.pc = s.pc + 4#32 + 4#32 := hmoves.pc.pc ▸ hadvance.pc
  refine ⟨t, u, htrun, hurun, fun p => ?_, hcpsr.trans hmoves.cpsr, hmoves.pc, hadvance,
    hpc.trans (BitVec.add_assoc _ _ _)⟩
  by_cases hlisted : ∃ r : RegNum, list.getLsbD r.toNat = true ∧ r ≠ 15#4 ∧ p = physOf s.bank r
  · obtain ⟨r, hl, hne, rfl⟩ := hlisted
    rw [hvalue r hl hne, State.readReg_of_ne _ hne]
  by_cases hp : p = physOf s.bank rn
  · subst hp
    have hback : blockEnd .ia (s.readReg rn - blockBytes list) list = s.readReg rn :=
      BitVec.sub_add_cancel _ _
    rw [hubase rfl, hback, State.readReg_of_ne _ ha.base]
  · have hnot : p ∉ wbRegs s true rn := by simpa [wbRegs] using hp
    rw [hregs p (fun r hl hne he => hlisted ⟨r, hl, hne, he⟩) hnot, hmoves.regs p hnot]

end Sys2Proof.Machine
end

section
/-! The statements about the software interrupt and the undefined patterns (44_swi_and_undefined): what SWI and
the undefined pattern of each state enter, and the address they save. -/

namespace Sys2Proof.Machine

/-! ### Exceptions raised by an instruction (60_exceptions R230, R231) -/

/-- An instruction that only raises an exception, one that saves the address of the next instruction, takes
it with that address. -/
theorem runsTo_of_exec_raise {i : Instr} {s : State} {e : ExceptionKind} {len : Word}
    (hrun : exec i s = .next (s.raise e)) (hret : s.returnValue e = s.pc + s.instrLen)
    (hlen : s.instrLen = len) :
    RunsTo i s fun t => s.Takes t e.entryMode e.entryMode.mode.bits e.vector e.setsF (s.pc + len) :=
  ⟨_, hrun, hlen ▸ hret ▸ s.raise_takes e⟩

/-- A software interrupt saves the address of the next instruction. -/
theorem State.returnValue_softwareInterrupt (s : State) :
    s.returnValue .softwareInterrupt = s.pc + s.instrLen := rfl

/-- An undefined instruction saves the address of the next instruction. -/
theorem State.returnValue_undefined (s : State) : s.returnValue .undefined = s.pc + s.instrLen := rfl

section
variable {s : State} {c : Cond}

/-! ### SWI (44_swi_and_undefined R185, R186) -/

/-- An ARM SWI whose condition passes raises the software interrupt, whatever its comment field. -/
theorem exec_swi_pass (imm : BitVec 24) (hc : condPassed s.cpsr c = true) :
    exec (.swi c imm) s = .next (s.raise .softwareInterrupt) := State.whenCond_pass _ hc

/-- The THUMB SWI raises the software interrupt, whatever its comment field. -/
theorem exec_tSwi (v : BitVec 8) : exec (.tSwi v) s = .next (s.raise .softwareInterrupt) := rfl

/-! ### The undefined patterns (44_swi_and_undefined R187, R188) -/

/-- The undefined pattern of ARM state, if its condition passes, raises the Undefined exception. -/
theorem exec_undef_pass (hi : BitVec 20) (lo : BitVec 4) (hc : condPassed s.cpsr c = true) :
    exec (.undef c hi lo) s = .next (s.raise .undefined) := State.whenCond_pass _ hc

/-- The undefined pattern of THUMB state raises the Undefined exception. -/
theorem exec_tUndef (v : BitVec 8) : exec (.tUndef v) s = .next (s.raise .undefined) := rfl

end

/-! ### The statements about SWI and the undefined patterns -/

/-- Settles O53: both forms raise the software interrupt; the length of an instruction is the state's. -/
theorem swiEntersSupervisorMode : Obligations.SwiEntersSupervisorMode := by
  intro s c imm v
  have hret := s.returnValue_softwareInterrupt
  constructor
  · intro ht hc
    exact runsTo_of_exec_raise (exec_swi_pass imm hc) hret (State.instrLen_of_arm ht)
  · intro ht
    exact runsTo_of_exec_raise (exec_tSwi v) hret (State.instrLen_of_thumb ht)

/-- Settles O54: both patterns raise the Undefined exception; the length of an instruction is the state's. -/
theorem undefinedPatternTrap : Obligations.UndefinedPatternTrap := by
  intro s c hi lo v
  have hret := s.returnValue_undefined
  constructor
  · intro ht hc
    exact runsTo_of_exec_raise (exec_undef_pass hi lo hc) hret (State.instrLen_of_arm ht)
  · intro ht
    exact runsTo_of_exec_raise (exec_tUndef v) hret (State.instrLen_of_thumb ht)

end Sys2Proof.Machine
end

section
/-! The statements about exceptions (60_exceptions): the step that runs the instruction at the pc, takes an
interrupt or a Prefetch abort, the return that undoes an entry, an FIQ at a data abort, and the two ways in
which a step in User mode can end. -/

namespace Sys2Proof.Machine

/-! ### The confinement of User mode (60_exceptions R251, 10_state R38) -/

/-- From `s` to `t` nothing changed that User mode may not change: the mode, I, F, the SPSRs and the
registers of the other modes' banks. -/
structure State.KeepsPrivilege (s t : State) : Prop where
  mode : t.cpsr.m = s.cpsr.m
  irqMask : t.cpsr.i = s.cpsr.i
  fiqMask : t.cpsr.f = s.cpsr.f
  spsr : t.spsr = s.spsr
  banked : ∀ p, isBankedAway p → t.regs.get p = s.regs.get p

/-- From `s` in User mode the exception `e` led to `t`, where of the SPSRs and of the registers of the other
modes' banks only the SPSR and R14 of the entered mode differ. -/
structure State.EntersFromUser (s t : State) (e : ExceptionKind) : Prop where
  pc : t.pc = e.vector
  mode : t.cpsr.m = e.entryMode.mode.bits
  armState : t.cpsr.t = false
  irqMasked : t.cpsr.i = true
  saved : (t.spsr.get e.entryMode).m = 0b10000#5
  spsrs : ∀ x, x ≠ e.entryMode → t.spsr.get x = s.spsr.get x
  banked : ∀ p, isBankedAway p → p ≠ .lr (some e.entryMode) → t.regs.get p = s.regs.get p

theorem State.KeepsPrivilege.trans {s t u : State} (h : s.KeepsPrivilege t) (k : t.KeepsPrivilege u) :
    s.KeepsPrivilege u where
  mode := k.mode.trans h.mode
  irqMask := k.irqMask.trans h.irqMask
  fiqMask := k.fiqMask.trans h.fiqMask
  spsr := k.spsr.trans h.spsr
  banked p hp := (k.banked p hp).trans (h.banked p hp)

/-- An exception taken after changes that User mode may make is an entry from where they began. -/
theorem State.KeepsPrivilege.enters {s t u : State} {e : ExceptionKind} (h : s.KeepsPrivilege t)
    (k : t.EntersFromUser u e) : s.EntersFromUser u e :=
  { k with
    spsrs := fun x hx => h.spsr ▸ k.spsrs x hx
    banked := fun p hp hne => (k.banked p hp hne).trans (h.banked p hp) }

theorem State.nextInputs_keepsPrivilege (s : State) : s.KeepsPrivilege s.nextInputs :=
  ⟨rfl, rfl, rfl, rfl, fun _ _ => rfl⟩

theorem State.seen_keepsPrivilege (s : State) (a : Word) (n : Nat) : s.KeepsPrivilege (s.seen a n) :=
  ⟨by simp, by simp, by simp, by simp, fun _ _ => by simp⟩

/-- An exception raised in User mode saves that mode and writes R14 and the SPSR of the mode it enters. -/
theorem State.raise_entersFromUser {s : State} (hm : s.cpsr.m = 0b10000#5) (e : ExceptionKind) :
    s.EntersFromUser (s.raise e) e :=
  have h := s.raise_takes e
  { pc := h.pc.pc
    mode := h.mode
    armState := h.armState
    irqMasked := h.irqMasked
    saved := (congrArg Psr.m h.saved).trans hm
    spsrs := h.spsrs
    banked := fun p _ => h.regs p }

/-- The bank of User mode holds no register of another mode's bank (10_state R22). -/
theorem not_isBankedAway_physOf_none (r : RegNum) : ¬ isBankedAway (physOf none r) := by
  unfold physOf
  split_ifs with _ _ hfiq
  · exact id
  · cases hfiq
  · exact id
  · exact fun h => h rfl
  · exact fun h => h rfl

/-- Changes of data in User mode reach no register of another mode's bank. -/
theorem State.Data.keepsPrivilege {s u : State} {P : Prop} (hu : s.Data P u)
    (hm : s.cpsr.m = 0b10000#5) : s.KeepsPrivilege u where
  mode := congrArg Psr.m hu.cpsr
  irqMask := congrArg Psr.i hu.cpsr
  fiqMask := congrArg Psr.f hu.cpsr
  spsr := hu.spsr
  banked p hp := by
    refine hu.regs p fun r _ hpr => ?_
    rw [hpr, State.bank_of_user hm] at hp
    exact not_isBankedAway_physOf_none r hp

/-- What an instruction can have done in User mode: an effect that needs an SPSR or privilege cannot occur. -/
theorem State.Effect.fromUser {i : Instr} {s t : State} (h : State.Effect i s t)
    (hm : s.cpsr.m = 0b10000#5) :
    s.KeepsPrivilege t ∨ ∃ e : ExceptionKind, e ≠ .reset ∧ s.EntersFromUser t e := by
  have hbank := State.bank_of_user hm
  cases h with
  | went u p hu hp => exact .inl ⟨hp.m, hp.i, hp.f, hu.spsr, (hu.keepsPrivilege hm).banked⟩
  | branched u a hu => exact .inl ((hu.keepsPrivilege hm).trans ⟨rfl, rfl, rfl, rfl, fun _ _ => rfl⟩)
  | exchanged b a => exact .inl ⟨rfl, rfl, rfl, rfl, fun _ _ => rfl⟩
  | took u e hu he =>
    have hkeeps := hu.keepsPrivilege hm
    exact .inr ⟨e, he, hkeeps.enters (State.raise_entersFromUser (hkeeps.mode.trans hm) e)⟩
  | returned r _ _ hr =>
    rw [State.exceptionReturn_noSpsr r hbank] at hr
    cases hr
  | wroteControl p _ hp => exact absurd hm ((State.privileged_iff s).1 hp)
  | wroteSpsr e q hb =>
    rw [hbank] at hb
    cases hb

/-- What a step without Reset can have done in User mode. -/
theorem step_fromUser {s t : State} (hm : s.cpsr.m = 0b10000#5) (hr : s.boundary.reset = false)
    (h : step s = .next t) :
    s.KeepsPrivilege t ∨ ∃ e : ExceptionKind, e ≠ .reset ∧ s.EntersFromUser t e := by
  have hinputs := s.nextInputs_keepsPrivilege
  obtain ⟨hreset, -⟩ | ⟨-, -, rfl⟩ | ⟨-, -, e, he, rfl⟩ | ⟨-, -, i, -, hrun⟩ := step_next h
  · rw [hr] at hreset
    cases hreset
  · exact .inl hinputs
  · exact .inr ⟨e, he, hinputs.enters (State.raise_entersFromUser (s := s.nextInputs) hm e)⟩
  · have hfetch := hinputs.trans (s.nextInputs.seen_keepsPrivilege s.pc s.fetchLen)
    obtain hkeeps | ⟨e, he, henters⟩ := (exec_effect hrun).fromUser (hfetch.mode.trans hm)
    · exact .inl (hfetch.trans hkeeps)
    · exact .inr ⟨e, he, hfetch.enters henters⟩

/-- Settles O55: an effect in User mode changes data and flags, exchanges, or takes an exception. -/
theorem userModeLeavesOnlyByException : Obligations.UserModeLeavesOnlyByException := by
  intro s t hm hr h
  obtain hk | ⟨e, he, hx⟩ := step_fromUser hm hr h
  · exact .inl ⟨hk.mode, hk.irqMask, hk.fiqMask, hk.spsr, hk.banked⟩
  · exact .inr ⟨e, he, hx.pc, hx.mode, hx.armState, hx.irqMasked, hx.saved, hx.spsrs, hx.banked⟩

/-! ### The cases of a step (60_exceptions R235) -/

/-- An enabled FIQ is taken, whatever the IRQ does. -/
theorem step_fiq {s : State} (hr : s.boundary.reset = false) (hs : s.stuck = false)
    (hn : s.boundary.nFIQ = false) (hf : s.cpsr.f = false) :
    step s = .next (s.nextInputs.raise .fiq) := by
  simp [step, State.stepAt, hr, hs, hn, hf]

/-- An enabled IRQ is taken where no FIQ is. -/
theorem step_irq {s : State} (hr : s.boundary.reset = false) (hs : s.stuck = false)
    (hfiq : s.boundary.nFIQ = true ∨ s.cpsr.f = true) (hn : s.boundary.nIRQ = false)
    (hi : s.cpsr.i = false) : step s = .next (s.nextInputs.raise .irq) := by
  have hno : (!s.boundary.nFIQ && !s.cpsr.f) = false := by
    obtain h | h := hfiq <;> simp [h]
  simp [step, State.stepAt, hr, hs, hno, hn, hi]

/-- Settles O7: the step raises the exception, and the entry is that of `State.raise_takes`. -/
theorem enabledInterruptIsTaken : Obligations.EnabledInterruptIsTaken := by
  intro s hr hs
  refine ⟨fun hn hf => ?_, fun hfiq hn hi => ?_⟩
  · exact ⟨_, step_fiq hr hs hn hf, s.nextInputs.raise_takes .fiq⟩
  · exact ⟨_, step_irq hr hs hfiq hn hi, s.nextInputs.raise_takes .irq⟩

/-- A step at an undisturbed boundary whose fetch aborts raises the Prefetch abort. -/
theorem step_fetch_aborted {s : State} (h : s.Undisturbed) (hf : s.fetch = .abort) :
    step s = .next (s.nextInputs.raise .prefetchAbort) := by
  rw [step_undisturbed h, State.fetchAndExec, State.nextInputs_fetch, hf, Access.andThen_abort]

/-- Settles O10: the fetch aborts, so the step raises the exception and runs no instruction. -/
theorem fetchAbortTakesPrefetchAbort : Obligations.FetchAbortTakesPrefetchAbort :=
  fun s h hw ha => ⟨_, step_fetch_aborted h (State.fetch_abort hw ha),
    s.nextInputs.raise_takes .prefetchAbort⟩

/-- Settles O5: the fetch reads the bytes, and from memory alone it changes nothing. -/
theorem stepRunsTheDecodedInstruction : Obligations.StepRunsTheDecodedInstruction := by
  intro s bs i h hf hi
  have hseen : s.nextInputs.seen s.pc s.fetchLen = s.nextInputs := State.seen_of_memory hf.access.mapped
  rw [step_fetch_decoded h (State.fetch_of_fetches hf) hi, hseen]

/-! ### The return from an exception (60_exceptions R245, R246) -/

/-- The handler's R14 is the value that the entry saved. -/
theorem State.raise_readReg_r14 (s : State) (e : ExceptionKind) :
    (s.raise e).readReg 14#4 = s.returnValue e := by
  rw [State.readReg_of_ne _ (by decide), State.raise_bank_eq, physOf_r14]
  exact (s.raise_takes e).link

/-- MOVS PC, R14 returns to R14. -/
theorem exec_movs_pc_r14 (s : State) :
    exec (.movReg .al true 15#4 14#4) s = s.exceptionReturn (s.readReg 14#4) := rfl

/-- SUBS PC, R14, #imm returns to R14 less the immediate. -/
theorem exec_subs_pc_r14 (s : State) (imm8 : BitVec 8) :
    exec (.subImm .al true 14#4 15#4 0#4 imm8) s =
      s.exceptionReturn (s.readReg 14#4 - imm8.setWidth 32) := by
  rw [← rotatedImm_zero]
  rfl

/-- The return instruction of an exception, in its handler, returns to the resume address. -/
theorem exec_returnInstr_raise (s : State) (e : ExceptionKind) :
    exec (returnInstr e) (s.raise e) = (s.raise e).exceptionReturn (resumeAt s e) := by
  have hlink := s.raise_readReg_r14 e
  cases e with
  | reset | undefined | softwareInterrupt =>
    rw [returnInstr, exec_movs_pc_r14, hlink]
    rfl
  | prefetchAbort | irq | fiq =>
    rw [returnInstr, exec_subs_pc_r14, hlink]
    exact congrArg _ (BitVec.add_sub_cancel s.pc 4#32)
  | dataAbort =>
    rw [returnInstr, exec_subs_pc_r14, hlink]
    exact congrArg _ (BitVec.add_sub_cancel s.pc 8#32)

/-- The alignment of the pc as a remainder. -/
theorem State.pcAligned_iff (s : State) :
    s.pcAligned = true ↔ s.pc.toNat % (if s.cpsr.t then 2 else 4) = 0 := by
  cases ht : s.cpsr.t
  · exact pcAligned_arm ht
  · exact pcAligned_thumb ht

/-- The resume address, that of the instruction or of the next one, is aligned as the pc is. -/
theorem resumeAt_aligned {s : State} (h : s.pcAligned = true) (e : ExceptionKind) :
    (resumeAt s e).toNat % (if s.cpsr.t then 2 else 4) = 0 := by
  cases e with
  | undefined | softwareInterrupt => exact s.advance.pcAligned_iff.1 (State.advance_pcAligned h)
  | reset | prefetchAbort | dataAbort | irq | fiq => exact s.pcAligned_iff.1 h

/-- The return instruction restores the CPSR that the entry saved and goes to the resume address. -/
theorem exec_returnInstr_raise_done {s : State} (hs : s.stuck = false) (ha : s.pcAligned = true)
    (e : ExceptionKind) : exec (returnInstr e) (s.raise e) =
      .next (((s.raise e).setCpsr s.cpsr).setPc (resumeAt s e)) := by
  have hsaved : (s.raise e).spsr.get e.entryMode = s.cpsr := (s.raise_takes e).saved
  obtain ⟨m, hm⟩ := (State.not_stuck_iff s).1 hs
  rw [exec_returnInstr_raise, State.exceptionReturn_done (s.raise_bank_eq e), hsaved]
  · rw [hsaved, hm]
    exact Option.some_ne_none m
  · rw [hsaved]
    exact resumeAt_aligned ha e

/-- Settles O12: the return restores the CPSR and the pc, and the entry wrote only R14 and the SPSR of the
handler's mode besides. -/
theorem returnUndoesExceptionEntry : Obligations.ReturnUndoesExceptionEntry := by
  intro s e _ hs ha
  have h := s.raise_takes e
  exact ⟨_, exec_returnInstr_raise_done hs ha e, rfl, State.setPc_lands _ _, h.regs, h.spsrs, h.mem,
    h.stored, h.platform, h.inputs, h.draws⟩

/-! ### An FIQ at a data abort (60_exceptions R242) -/

/-- Settles O11: the FIQ is taken in the abort handler's first state, and its return undoes that entry. -/
theorem fiqAtDataAbortResumesAbortHandler : Obligations.FiqAtDataAbortResumesAbortHandler := by
  intro u t e rest habort hf hinputs hr hn
  have hb : t.boundary = e := by rw [State.boundary, hinputs, List.headD_cons]
  have hpc : t.pc = 0x00000010#32 := habort.pc.pc
  have hstuck : t.stuck = false := (State.not_stuck_iff t).2 ⟨.abort, habort.mode ▸ rfl⟩
  have htf : t.cpsr.f = false := by rw [habort.fiqMask, hf, Bool.or_false]
  have haligned : t.nextInputs.pcAligned = true :=
    State.pcAligned_of_mod4 (by rw [State.nextInputs_pc, hpc]; rfl)
  have htakes : t.nextInputs.Takes (t.nextInputs.raise .fiq) .fiq 0b10001#5 0x0000001C#32 true
      (t.pc + 4#32) := t.nextInputs.raise_takes .fiq
  refine ⟨_, _, step_fiq (hb ▸ hr) hstuck (hb ▸ hn) htf, ?_,
    exec_returnInstr_raise_done (s := t.nextInputs) hstuck haligned .fiq, ?_, rfl, ?_, ?_, htakes.regs, ?_⟩
  · rw [hpc] at htakes
    exact htakes
  · rw [← hpc]
    exact State.setPc_lands _ _
  · exact (htakes.regs _ (by decide)).trans habort.link
  · exact (htakes.spsrs _ (by decide)).trans habort.saved
  · exact fun a => (htakes.mem a).trans (habort.mem a)

end Sys2Proof.Machine
end

section
/-! The statements about Reset (70_reset_and_hazards): it is taken from every state, and the state after
it meets the invariant of every step. -/

namespace Sys2Proof.Machine

/-- A step at a boundary that presents Reset takes it, whatever else the boundary or the state holds. -/
theorem step_reset {s : State} (hr : s.boundary.reset = true) :
    step s = .next s.nextInputs.resetException := if_pos hr

/-- Reset branches to its vector, the bottom of the space. -/
theorem State.resetException_lands (s : State) : s.resetException.Lands 0x00000000#32 :=
  ⟨s.resetException_pc, s.resetException_pcWrapped⟩

/-- Reset masks FIQ: it sets F over whatever value was drawn for the CPSR. -/
theorem State.resetException_cpsr_f (s : State) : s.resetException.cpsr.f = true := Bool.or_true _

/-- Settles O8: the step takes Reset, which sets the control bits over the drawn CPSR and leaves the memory
and the platform alone. -/
theorem resetIsTakenFromEveryState : Obligations.ResetIsTakenFromEveryState := by
  intro s hr
  let u := s.nextInputs
  exact ⟨u.resetException, step_reset hr, rfl, rfl, u.resetException_cpsr_f, rfl, u.resetException_lands,
    u.resetException_not_stuck, fun _ => rfl, u.resetException_platform⟩

/-- Settles O13: memory and the marks start empty, and the pc starts at 0. -/
theorem wellKeptAfterReset : Obligations.WellKeptAfterReset where
  mem := reset_mem_wf
  stored := reset_stored_wf
  pc := State.pcAligned_of_mod4 rfl

end Sys2Proof.Machine
end
